-- ==== Sys2Proof/Word.lean ====
section
/-! DEFINITION. The bit-vector types of FASTYZ-CORE and nothing else. -/

namespace Sys2Proof

/-- A byte: the only access size of the memory port (20_memory R60, R62). -/
abbrev Byte := BitVec 8

/-- A host register word, and a 32-bit byte address of the memory port (10_state R20, 20_memory R60). -/
abbrev Word := BitVec 32

end Sys2Proof
end

