-- ==== Sys2Proof/Config.lean ====
section
/-! DEFINITION. What is fixed for the machine (00_scope R7 to R10) and the values the spec leaves free. -/

namespace Sys2Proof

/-- `MAGIC`, header bytes 0-3: "Yaz0" (00_scope R7, 30_encoding R83). -/
def Config.magic : List Byte := [0x59#8, 0x61#8, 0x7A#8, 0x30#8]

/-- `HDR_LEN` (00_scope R7). -/
def Config.hdrLen : Nat := 16

/-- How many leading header bytes carry magic and size; PEEK_SIZE needs no more (46_header_utilities R230, R231). -/
def Config.peekLen : Nat := 8

/-- How many leading header bytes carry the magic; IS_YAZ0 needs no more (46_header_utilities R232). -/
def Config.magicLen : Nat := 4

/-- `GROUP_TOKENS` (00_scope R7). -/
def Config.groupTokens : Nat := 8

/-- `MIN_MATCH` (00_scope R7). -/
def Config.minMatch : Nat := 3

/-- `MAX_SHORT` (00_scope R7). -/
def Config.maxShort : Nat := 17

/-- `MIN_LONG` (00_scope R7). -/
def Config.minLong : Nat := 18

/-- `MAX_LONG` (00_scope R7). -/
def Config.maxLong : Nat := 273

/-- `WINDOW`, the largest distance (00_scope R7). -/
def Config.window : Nat := 4096

/-- `HT_SIZE` (00_scope R8). UNVERIFIED against the repository (93 item 24, log 18), as the next six. -/
def Config.htSize : Nat := 16384

/-- `HASH_MULT` (00_scope R8, 41_primitives R132). -/
def Config.hashMult : Word := 2654435769#32

/-- `IP_START` (00_scope R8). -/
def Config.ipStart : Nat := 2

/-- `LIMIT_TAIL` (00_scope R8). -/
def Config.limitTail : Nat := 13

/-- `BOUND_TAIL` (00_scope R8). -/
def Config.boundTail : Nat := 4

/-- `SPLIT_CHUNK` (00_scope R8). -/
def Config.splitChunk : Nat := 273

/-- `SPLIT_ALT` (00_scope R8). -/
def Config.splitAlt : Nat := 271

/-- `MAX_IN_LEN` (00_scope R10). -/
def Config.maxInLen : Nat := 2 ^ 31 - 1

/-- The number of addresses of the memory port (20_memory R60). -/
def Config.addrSpace : Nat := 2 ^ 32

/-- `BOUND(n)` (00_scope R9); `(n + 7) / 8` is the integer ceiling of `n / 8`. -/
def Config.bound (n : Nat) : Nat := 16 + n + (n + 7) / 8 + 1

/-- The working registers of 10_state R32, R34, R36, as names under which a free value is drawn. -/
inductive Config.WorkReg where
  | encN | encIp | encAnchor | encRef | encDistance | encLen
  | wrOp | wrFp | wrMask | wrFlagv
  | decN | decCap | decSize | decPos | decWritten | decFlag | decBits | decB0 | decB1 | decB2 | decDist | decLen
  deriving DecidableEq, Repr

/-- Free: the value of a working register after an error or a reset input, per draw (10_state R41, 60_exceptions R243; log 6). -/
opaque Config.freeReg : Nat → Config.WorkReg → (w : Nat) → BitVec w

/-- Free: the value of a hash-table slot after an error or a reset input, per draw and slot (10_state R41, 60_exceptions R243; log 6). -/
opaque Config.freeSlot : Nat → Nat → BitVec 32

/-- Free: a destination byte read while BUSY, or left by a reset while BUSY, per draw and offset (20_memory R71,
70_reset_and_hazards R271; log 8, log 9). -/
opaque Config.freeByte : Nat → Nat → Byte

end Sys2Proof
end

