-- ==== Sys2Proof/Syntax.lean ====
section
/-! DEFINITION. The instructions: the host commands and the items of a Yaz0 stream (00_scope R1), one constructor per row of the
opcode table, in its order. Bits the spec ignores (CMD bits 31:3, header bytes 8-15) are no operands (log 22). -/

namespace Sys2Proof

inductive Instr where
  /-- NOP, CMD OP = 0 (40_command_interface R115). -/
  | nop
  /-- ENCODE, CMD OP = 1 (44_encoder R180). -/
  | encode
  /-- DECODE, CMD OP = 2 (45_decoder R200). -/
  | decode
  /-- PEEK_SIZE, CMD OP = 3 (46_header_utilities R230). -/
  | peekSize
  /-- IS_YAZ0, CMD OP = 4 (46_header_utilities R232). -/
  | isYaz0
  /-- Reserved command code 5 (40_command_interface R116). -/
  | reserved5
  /-- Reserved command code 6 (40_command_interface R116). -/
  | reserved6
  /-- Reserved command code 7 (40_command_interface R116). -/
  | reserved7
  /-- HDR, the stream header, with its declared size (30_encoding R83). -/
  | hdr (size : Word)
  /-- FLAG, a flag byte (30_encoding R86). -/
  | flag (f : Byte)
  /-- LIT, a literal (30_encoding R88). -/
  | lit (b : Byte)
  /-- SM, a short match: `l` is `length - 2`, never 0, and `d` is `distance - 1` (30_encoding R89). -/
  | sm (l : BitVec 4) (d : BitVec 12)
  /-- LM, a long match: `d` is `distance - 1` and `n` is `length - 18` (30_encoding R90). -/
  | lm (d : BitVec 12) (n : Byte)
  deriving DecidableEq, Repr

end Sys2Proof
end

