-- ==== Sys2Proof/WellFormed.lean ====
section
/-! DEFINITION. Which instructions have an encoding. -/

namespace Sys2Proof

/-- A short match's length field is never 0: 0 selects the long form (30_encoding R89, R94). Every other operand value has an
encoding (30_encoding R95). -/
def wellFormed : Instr → Bool
  | .sm l _ => l != 0#4
  | .nop | .encode | .decode | .peekSize | .isYaz0 | .reserved5 | .reserved6 | .reserved7 => true
  | .hdr _ | .flag _ | .lit _ | .lm _ _ => true

end Sys2Proof
end

