-- ==== Sys2Proof/Decode.lean ====
section
/-! DEFINITION. The decoder and the encoder of both languages of 30_encoding: the command word and the Yaz0 stream. What a stream
byte is depends on where the decoder stands (30_encoding R94), so decoding takes a `Select`. -/

namespace Sys2Proof

/-- What the bytes to be decoded are read as (30_encoding R80, "what selects it"). -/
inductive Select where
  | cmd | hdr | flag | lit | mtch
  deriving DecidableEq, Repr

/-- Why bytes are no instruction. -/
inductive Reject where
  /-- The bytes end before the instruction does. -/
  | truncated
  /-- A header whose first four bytes are not the magic (30_encoding R83). -/
  | badMagic
  deriving DecidableEq, Repr

/-- The command of a CMD word: bits 2:0 choose it, bits 31:3 are ignored (10_state R23, 30_encoding R81). -/
def decodeCmd (w : Word) : Instr :=
  let op := w.extractLsb' 0 3
  if op = 0#3 then .nop
  else if op = 1#3 then .encode
  else if op = 2#3 then .decode
  else if op = 3#3 then .peekSize
  else if op = 4#3 then .isYaz0
  else if op = 5#3 then .reserved5
  else if op = 6#3 then .reserved6
  else .reserved7

/-- The high nibble of a match code's first byte (30_encoding R89, R90). -/
def highNibble (b0 : Byte) : BitVec 4 := b0.extractLsb' 4 4

/-- The 12-bit `distance - 1` of a match code's first two bytes (30_encoding R91). -/
def distField (b0 b1 : Byte) : BitVec 12 := b0.extractLsb' 0 4 ++ b1

/-- How many bytes a match code with first byte `b0` has, known before the rest is read (30_encoding R94). -/
def matchLen (b0 : Byte) : Nat := if highNibble b0 = 0#4 then 3 else 2

/-- A match code: long form exactly when the high nibble of byte 0 is zero (30_encoding R89 to R91, R94). -/
def decodeMatch : List Byte → Except Reject (Instr × List Byte)
  | b0 :: b1 :: rest =>
    if highNibble b0 = 0#4 then
      match rest with
      | b2 :: rest' => .ok (.lm (distField b0 b1) b2, rest')
      | [] => .error .truncated
    else .ok (.sm (highNibble b0) (distField b0 b1), rest)
  | _ => .error .truncated

/-- A header: magic, big-endian size, and eight reserved bytes that are never looked at (30_encoding R83, R84); the eight leading
bytes are enough (46_header_utilities R231). -/
def decodeHdr : List Byte → Except Reject (Instr × List Byte)
  | m0 :: m1 :: m2 :: m3 :: s0 :: s1 :: s2 :: s3 :: rest =>
    if [m0, m1, m2, m3] = Config.magic then .ok (.hdr (s0 ++ s1 ++ s2 ++ s3), rest.drop 8) else .error .badMagic
  | _ => .error .truncated

/-- Decoding, total on any bytes; answers the instruction and the bytes after it. -/
def decode (sel : Select) (bs : List Byte) : Except Reject (Instr × List Byte) :=
  match sel, bs with
  | .cmd, b0 :: b1 :: b2 :: b3 :: rest => .ok (decodeCmd (b3 ++ b2 ++ b1 ++ b0), rest)
  | .cmd, _ => .error .truncated
  | .hdr, bs => decodeHdr bs
  | .flag, b :: rest => .ok (.flag b, rest)
  | .flag, [] => .error .truncated
  | .lit, b :: rest => .ok (.lit b, rest)
  | .lit, [] => .error .truncated
  | .mtch, bs => decodeMatch bs

/-- What an instruction's bytes are read as. -/
def selectOf : Instr → Select
  | .nop | .encode | .decode | .peekSize | .isYaz0 | .reserved5 | .reserved6 | .reserved7 => .cmd
  | .hdr _ => .hdr
  | .flag _ => .flag
  | .lit _ => .lit
  | .sm _ _ | .lm _ _ => .mtch

/-- A command word's bytes, least significant first (log 29: a register word has no byte order the host can see). -/
def cmdBytes (op : Byte) : List Byte := [op, 0#8, 0#8, 0#8]

/-- A header of declared size `n` as the encoder writes it, big-endian, reserved bytes 0 (30_encoding R83, R84). -/
def hdrBytes (n : Word) : List Byte :=
  Config.magic ++ [n.extractLsb' 24 8, n.extractLsb' 16 8, n.extractLsb' 8 8, n.extractLsb' 0 8] ++ List.replicate 8 0#8

/-- The encoder: the bytes of a well-formed instruction (30_encoding R81, R83, R86, R88, R92). -/
def encode : Instr → List Byte
  | .nop => cmdBytes 0#8
  | .encode => cmdBytes 1#8
  | .decode => cmdBytes 2#8
  | .peekSize => cmdBytes 3#8
  | .isYaz0 => cmdBytes 4#8
  | .reserved5 => cmdBytes 5#8
  | .reserved6 => cmdBytes 6#8
  | .reserved7 => cmdBytes 7#8
  | .hdr size => hdrBytes size
  | .flag f => [f]
  | .lit b => [b]
  | .sm l d => [l ++ d.extractLsb' 8 4, d.extractLsb' 0 8]
  | .lm d n => [0#4 ++ d.extractLsb' 8 4, d.extractLsb' 0 8, n]

/-- The match token for `len` in 3..273 and `dist` in 1..4096: short form up to 17, else long form (30_encoding R92). -/
def matchInstr (len dist : Nat) : Instr :=
  if len ≤ Config.maxShort then .sm (BitVec.ofNat 4 (len - 2)) (BitVec.ofNat 12 (dist - 1))
  else .lm (BitVec.ofNat 12 (dist - 1)) (BitVec.ofNat 8 (len - 18))

/-- The low `k` bytes of `w`, bits 7..0 first. -/
def bytesOfNat : (k w : Nat) → List Byte
  | 0, _ => []
  | k + 1, w => BitVec.ofNat 8 w :: bytesOfNat k (w / 256)

/-- What a word of the opcode table is read as, from its number of bits (log 15): a 32-bit word is a CMD word, a longer one a
header, a 16- or 24-bit one a match code. A word of one byte does not say what it is: 0, the only one-byte pattern the table gives, is
the first byte of a long match; 1 to 7 are taken as the low byte of a CMD word, the rest below 16 as the first byte of a long match,
then a flag byte below 128, and above it a literal. -/
def tableSelect (nbits w : Nat) : Select :=
  if nbits ≤ 8 then
    if w = 0 then .mtch else if w < 8 then .cmd else if w < 16 then .mtch else if w < 128 then .flag else .lit
  else if nbits ≤ 24 then .mtch
  else if nbits ≤ 32 then .cmd
  else .hdr

/-- The bytes of a table word: the longest instruction's worth, zeros above `nbits`. -/
def tableBytes (nbits w : Nat) : List Byte := bytesOfNat 16 (w % 2 ^ nbits)

/-- The instruction the decoder reads from a table word (bit 0 the least significant bit of the first byte or word). -/
def decodeTableWord (nbits w : Nat) : Option Instr :=
  match decode (tableSelect nbits w) (tableBytes nbits w) with
  | .ok (i, _) => some i
  | .error _ => none

end Sys2Proof
end

