-- ==== Sys2Proof/Machine/State.lean ====
section
/-! DEFINITION. Everything the spec gives the machine to hold, as plain data, and the state after reset. -/

namespace Sys2Proof.Machine

/-- The commands the block can be busy with (10_state R30); the reserved codes are one of them. -/
inductive Op where
  | encode | decode | peekSize | isYaz0 | reserved
  deriving DecidableEq, Repr

/-- The control state (10_state R30). -/
inductive Ctrl where
  | idle
  | busy (op : Op)
  deriving DecidableEq, Repr

/-- Which of the running command's atomic steps comes next (10_state R31). DESIGN CHOICE (log 1): the spec implies this state and
gives it no name. -/
inductive Phase where
  /-- The command's first step after its start checks: ENCODE's initialisation, the header of DECODE and PEEK_SIZE, IS_YAZ0's test. -/
  | begin
  /-- ENCODE's search loop (44_encoder R183). -/
  | search
  /-- ENCODE after a probe that accepted: the match step comes next (44_encoder R184). -/
  | accepted
  /-- ENCODE after its tail flush: completion comes next (44_encoder R187). -/
  | flushed
  /-- DECODE's token loop (45_decoder R210). -/
  | tokens
  deriving DecidableEq, Repr

/-- The causes of 60_exceptions R240, less NONE. -/
inductive Cause where
  | illegalCmd | regionWrap | regionOverlap | encTooLong | encDstSmall | shortInput | badMagic | zeroSize | sizeGtCap
  | truncFlag | truncLiteral | litCap | truncMatch | badDistance | capOverrun | sizeOverrun
  deriving DecidableEq, Repr

/-- ENCODE's working registers (10_state R32); `distance` is signed. -/
structure EncRegs where
  n : Word
  ip : Word
  anchor : Word
  ref : Word
  distance : BitVec 33
  len : Word
  deriving DecidableEq, Repr

/-- The writer cursor (10_state R34). -/
structure WriterRegs where
  op : Word
  fp : Word
  mask : Byte
  flagv : Byte
  deriving DecidableEq, Repr

/-- DECODE's working registers (10_state R36). -/
structure DecRegs where
  n : Word
  cap : Word
  size : Word
  pos : Word
  written : Word
  flag : Byte
  bits : BitVec 4
  b0 : Byte
  b1 : Byte
  b2 : Byte
  dist : BitVec 13
  len : BitVec 9
  deriving DecidableEq, Repr

/-- The width of a host register access (10_state R21). -/
inductive Width where
  | byte | half | word
  deriving DecidableEq, Repr

/-- What the host can do to the machine (40_command_interface R120, 30_encoding R97, 70_reset_and_hazards R270). -/
inductive HostAction where
  /-- A register write at an offset from the block's register base (10_state R21). -/
  | wr (width : Width) (off v : Word)
  /-- A register read; the word read goes to `portData`. -/
  | rd (width : Width) (off : Word)
  /-- A byte write to memory (20_memory R69, R70). -/
  | memWr (a : Word) (b : Byte)
  /-- A byte read from memory; the byte read goes to `memData` (20_memory R71, R72). -/
  | memRd (a : Word)
  /-- WAIT: read STATUS until BUSY = 0, while the block runs (30_encoding R97). -/
  | wait
  /-- The host does nothing while the block takes one step (10_state R31: the host may step between two block steps). -/
  | pass
  /-- The reset input is asserted (70_reset_and_hazards R270 to R272). -/
  | reset
  deriving DecidableEq, Repr

/-- Why the machine stops. An error of the spec (60_exceptions R243) is none of these: it is a next state. -/
inductive Fault where
  /-- A host write into a region of the running command (20_memory R70, 93 item 11). Raised by the host's memory write. Safe: the
  spec gives such a write no step (log 10). -/
  | regionRace
  deriving DecidableEq, Repr

/-- Why a step has no meaning. -/
inductive Refusal where
  /-- An instruction that has no meaning yet. Raised by an arm of `exec`; safe. -/
  | notModelled (mnemonic : String)
  /-- A stream item the running command does not read at this point. Raised by the stream items' meanings; no step of the machine
  raises it, as it runs only the item the decoder asks for. Safe (log 14). -/
  | notSelected
  /-- A register access that is not an aligned 32-bit access (10_state R21, 93 item 10). Raised by the host's register accesses; safe
  (log 11). -/
  | badRegisterAccess
  /-- A register access at offset 0x100 or above, which is outside this block (10_state R20). Raised by the host's register
  accesses; safe (log 11). -/
  | outsideWindow
  deriving DecidableEq, Repr

/-- The machine's state. `mem` and `ht` list what is not 0, by rising address or slot; `host` is what the host does next, first
action first (log 2). -/
structure State where
  srcAddr : Word
  srcLen : Word
  dstAddr : Word
  dstCap : Word
  status : Word
  result : Word
  ctrl : Ctrl
  phase : Phase
  enc : EncRegs
  wr : WriterRegs
  dec : DecRegs
  ht : List (Nat × BitVec 32)
  mem : List Host.Cell
  host : List HostAction
  portData : Word
  memData : Byte
  draws : Nat
  deriving DecidableEq, Repr

/-- The state right after reset (10_state R41, 70_reset_and_hazards R270, R273). DESIGN CHOICE: the working registers and the hash
table, which the spec leaves unspecified, hold 0 (log 4, log 5); memory lists nothing (log 3). -/
def State.reset : State where
  srcAddr := 0#32
  srcLen := 0#32
  dstAddr := 0#32
  dstCap := 0#32
  status := 0#32
  result := 0#32
  ctrl := .idle
  phase := .begin
  enc := ⟨0#32, 0#32, 0#32, 0#32, 0#33, 0#32⟩
  wr := ⟨0#32, 0#32, 0#8, 0#8⟩
  dec := ⟨0#32, 0#32, 0#32, 0#32, 0#32, 0#8, 0#4, 0#8, 0#8, 0#8, 0#13, 0#9⟩
  ht := []
  mem := []
  host := []
  portData := 0#32
  memData := 0#8
  draws := 0

end Sys2Proof.Machine
end

