-- ==== Sys2Proof/Machine/Flags.lean ====
section
/-! DEFINITION. Every flag computation of the spec: STATUS and its fields, the cause codes, the writer's mask and flag byte, and the
decoder's flag register. -/

namespace Sys2Proof.Machine

/-- The cause codes (60_exceptions R240). -/
def Cause.code : Cause → BitVec 5
  | .illegalCmd => 0x01#5
  | .regionWrap => 0x02#5
  | .regionOverlap => 0x03#5
  | .encTooLong => 0x04#5
  | .encDstSmall => 0x05#5
  | .shortInput => 0x06#5
  | .badMagic => 0x07#5
  | .zeroSize => 0x08#5
  | .sizeGtCap => 0x09#5
  | .truncFlag => 0x0A#5
  | .truncLiteral => 0x0B#5
  | .litCap => 0x0C#5
  | .truncMatch => 0x0D#5
  | .badDistance => 0x0E#5
  | .capOverrun => 0x0F#5
  | .sizeOverrun => 0x10#5

/-- STATUS from its fields; bits 7:3 and 31:13 are 0 (10_state R24). -/
def statusWord (busy done err : Bool) (cause : BitVec 5) : Word :=
  0#19 ++ cause ++ 0#5 ++ BitVec.ofBool err ++ BitVec.ofBool done ++ BitVec.ofBool busy

/-- STATUS.BUSY (10_state R24). -/
def statusBusy (v : Word) : Bool := v.getLsbD 0

/-- STATUS.DONE (10_state R24). -/
def statusDone (v : Word) : Bool := v.getLsbD 1

/-- STATUS.ERR (10_state R24). -/
def statusErr (v : Word) : Bool := v.getLsbD 2

/-- STATUS.ERR_CAUSE (10_state R24). -/
def statusCause (v : Word) : BitVec 5 := v.extractLsb' 8 5

/-- STATUS at acceptance (40_command_interface R111). -/
def statusRunning : Word := statusWord true false false 0#5

/-- STATUS after a success (40_command_interface R117). -/
def statusDoneOk : Word := statusWord false true false 0#5

/-- STATUS after an error (60_exceptions R243). -/
def statusError (c : Cause) : Word := statusWord false true true c.code

/-- The flag bit of a group's first token (43_flag_group_writer R160). -/
def firstMask : Byte := 0x80#8

/-- The flag bit after this one; 0 when the group is full (43_flag_group_writer R161). -/
def nextMask (mask : Byte) : Byte := mask >>> 1

/-- Whether the decoder's flag register announces a literal (45_decoder R205). -/
def flagIsLiteral (flag : Byte) : Bool := flag.getLsbD 7

/-- The decoder's flag register after a token (45_decoder R209). -/
def shiftFlag (flag : Byte) : Byte := flag <<< 1

end Sys2Proof.Machine
end

