-- ==== Sys2Proof/Machine/Operands.lean ====
section
/-! DEFINITION. Operand assembly: the numbers that encoded fields stand for. -/

namespace Sys2Proof.Machine

/-- The length of a short match, 3..17, in the 9 bits of the decoder's `len` (30_encoding R91). -/
def shortLength (l : BitVec 4) : BitVec 9 := l.setWidth 9 + 2#9

/-- The length of a long match, 18..273 (30_encoding R91). -/
def longLength (n : Byte) : BitVec 9 := n.setWidth 9 + 18#9

/-- The distance of a match, 1..4096, in the 13 bits of the decoder's `dist` (30_encoding R91). -/
def matchDistance (d : BitVec 12) : BitVec 13 := d.setWidth 13 + 1#13

/-- Three bytes assembled little-endian (41_primitives R130). -/
def le24 (b0 b1 b2 : Byte) : BitVec 24 := b2 ++ b1 ++ b0

/-- The 14-bit hash: bits 31:18 of the 32-bit product (41_primitives R132). -/
def hash3 (x : BitVec 24) : BitVec 14 := (x.setWidth 32 * Config.hashMult).extractLsb' 18 14

end Sys2Proof.Machine
end

