-- ==== Sys2Proof/Machine/Ops.lean ====
section
/-! DEFINITION. The named operations over the sparse stores, memory, the hash table and the registers; accepting a command, and the
two ways it ends: success, and taking an error. -/

namespace Sys2Proof.Machine

/-! ### Sparse stores: memory and the hash table -/

/-- What a key that is not listed reads as. For memory DESIGN CHOICE (log 3); for the hash table it is the cleared value
(44_encoder R182). -/
def Store.unlisted {w : Nat} : BitVec w := 0#w

/-- The value at a key. -/
def Store.get {w : Nat} : List (Nat × BitVec w) → Nat → BitVec w
  | [], _ => Store.unlisted
  | (k, x) :: t, a => if k = a then x else Store.get t a

/-- Writing a key, keeping keys rising and listing no value an unlisted key reads as. -/
def Store.set {w : Nat} (m : List (Nat × BitVec w)) (a : Nat) (v : BitVec w) : List (Nat × BitVec w) :=
  match m with
  | [] => if v = Store.unlisted then [] else [(a, v)]
  | (k, x) :: t =>
    if a < k then (if v = Store.unlisted then (k, x) :: t else (a, v) :: (k, x) :: t)
    else if a = k then (if v = Store.unlisted then t else (a, v) :: t)
    else (k, x) :: Store.set t a v

/-- The store that holds `f k` at every key `k < n`. -/
def Store.ofFn {w : Nat} (n : Nat) (f : Nat → BitVec w) : List (Nat × BitVec w) :=
  (List.range n).filterMap fun k => if f k = Store.unlisted then none else some (k, f k)

/-- The canonical form: keys rising and below `n`, and nothing listed that an unlisted key reads as. -/
abbrev Store.wf {w : Nat} (n : Nat) (m : List (Nat × BitVec w)) : Prop :=
  m.Pairwise (fun c d => c.1 < d.1) ∧ ∀ c ∈ m, c.1 < n ∧ c.2 ≠ Store.unlisted

/-- Memory is in canonical form. -/
abbrev Memory.wf (m : List Host.Cell) : Prop := Store.wf Config.addrSpace m

/-- The hash table is in canonical form: 16384 slots (10_state R35). -/
abbrev HashTable.wf (t : List (Nat × BitVec 32)) : Prop := Store.wf Config.htSize t

/-! ### The memory port -/

/-- The byte at an address (00_scope R13). -/
def State.memRead (s : State) (a : Word) : Byte := Store.get s.mem a.toNat

/-- Writes the byte at an address (00_scope R13). -/
def State.memWrite (s : State) (a : Word) (v : Byte) : State := { s with mem := Store.set s.mem a.toNat v }

/-- The address of source offset `i` (20_memory R61; the sum does not wrap once the start checks have passed, log 13). -/
def State.srcAt (s : State) (i : Nat) : Word := s.srcAddr + BitVec.ofNat 32 i

/-- The address of destination offset `j` (20_memory R61). -/
def State.dstAt (s : State) (j : Nat) : Word := s.dstAddr + BitVec.ofNat 32 j

/-- `SrcByte(i)` (00_scope R13). -/
def State.srcByte (s : State) (i : Nat) : Byte := s.memRead (s.srcAt i)

/-- `DstByte(i)` (00_scope R13). -/
def State.dstByte (s : State) (i : Nat) : Byte := s.memRead (s.dstAt i)

/-- `DstPut(i, v)` (00_scope R13). -/
def State.dstPut (s : State) (i : Nat) (v : Byte) : State := s.memWrite (s.dstAt i) v

/-- `DstPut` of a list of bytes at consecutive offsets, in order. -/
def State.dstPuts (s : State) (i : Nat) : List Byte → State
  | [] => s
  | b :: t => (s.dstPut i b).dstPuts (i + 1) t

/-- The `k` source bytes from offset `i`, in order. -/
def State.srcBytes (s : State) (i : Nat) : Nat → List Byte
  | 0 => []
  | k + 1 => s.srcByte i :: s.srcBytes (i + 1) k

/-! ### The hash table -/

/-- `HT[h]` (00_scope R13). -/
def State.htGet (s : State) (h : BitVec 14) : BitVec 32 := Store.get s.ht h.toNat

/-- `HT[h] <- v` (00_scope R13). -/
def State.htPut (s : State) (h : BitVec 14) (v : BitVec 32) : State := { s with ht := Store.set s.ht h.toNat v }

/-! ### Free values -/

/-- Every working register, under draw `d`. -/
def freeEnc (d : Nat) : EncRegs :=
  ⟨Config.freeReg d .encN 32, Config.freeReg d .encIp 32, Config.freeReg d .encAnchor 32, Config.freeReg d .encRef 32,
    Config.freeReg d .encDistance 33, Config.freeReg d .encLen 32⟩

/-- Every register of the writer cursor, under draw `d`. -/
def freeWriter (d : Nat) : WriterRegs :=
  ⟨Config.freeReg d .wrOp 32, Config.freeReg d .wrFp 32, Config.freeReg d .wrMask 8, Config.freeReg d .wrFlagv 8⟩

/-- Every register of the decoder, under draw `d`. -/
def freeDec (d : Nat) : DecRegs :=
  ⟨Config.freeReg d .decN 32, Config.freeReg d .decCap 32, Config.freeReg d .decSize 32, Config.freeReg d .decPos 32,
    Config.freeReg d .decWritten 32, Config.freeReg d .decFlag 8, Config.freeReg d .decBits 4, Config.freeReg d .decB0 8,
    Config.freeReg d .decB1 8, Config.freeReg d .decB2 8, Config.freeReg d .decDist 13, Config.freeReg d .decLen 9⟩

/-- Every slot of the hash table, under draw `d`. -/
@[irreducible] def freeTable (d : Nat) : List (Nat × BitVec 32) := Store.ofFn Config.htSize (Config.freeSlot d)

/-- The working registers and the hash table become unspecified: free values of a new draw (60_exceptions R243,
70_reset_and_hazards R270; log 6). -/
def State.freeWork (s : State) : State :=
  { s with
    enc := freeEnc s.draws, wr := freeWriter s.draws, dec := freeDec s.draws,
    ht := freeTable s.draws, draws := s.draws + 1 }

/-! ### Starting and ending a command -/

/-- Whether a command is running (10_state R30). -/
def State.isBusy (s : State) : Bool := s.ctrl != .idle

/-- Taking an error: `raise Error(cause)` (60_exceptions R243). Nothing written before is undone. -/
def State.raise (s : State) (c : Cause) : State :=
  { s.freeWork with result := 0#32, status := statusError c, ctrl := .idle, phase := .begin }

/-- `complete(result)` (40_command_interface R117). -/
def State.complete (s : State) (r : Word) : State :=
  { s with result := r, status := statusDoneOk, ctrl := .idle, phase := .begin }

/-- Accepting a command (40_command_interface R111), with the copies it takes of the parameters at acceptance (10_state R32, R36,
45_decoder R201). -/
def State.accept (s : State) (op : Op) : State :=
  { s with
    ctrl := .busy op, phase := .begin, status := statusRunning, result := 0#32,
    enc := if op = .encode then { s.enc with n := s.srcLen } else s.enc,
    dec := if op = .decode then { s.dec with n := s.srcLen, cap := s.dstCap } else s.dec }

end Sys2Proof.Machine
end

