-- ==== Sys2Proof/Machine/Commands.lean ====
section
/-! DEFINITION. The command interface (40_command_interface): start checks, the start of a command, NOP and the reserved codes. -/

namespace Sys2Proof.Machine

/-- The commands that use the destination region (40_command_interface R113, 46_header_utilities R235). -/
def Op.usesDst : Op → Bool
  | .encode | .decode => true
  | .peekSize | .isYaz0 | .reserved => false

/-- Whether a region passes address 2^32 - 1; the sum is exact (40_command_interface R113). -/
def regionWraps (addr len : Word) : Bool := decide (Config.addrSpace < addr.toNat + len.toNat)

/-- Whether two regions share a byte (40_command_interface R114). -/
def regionsOverlap (a m b n : Word) : Bool :=
  decide (0 < m.toNat ∧ 0 < n.toNat ∧ a.toNat < b.toNat + n.toNat ∧ b.toNat < a.toNat + m.toNat)

/-- ENCODE's own start checks (44_encoder R181). -/
def encodeCheck (s : State) : Option Cause :=
  if Config.maxInLen < s.srcLen.toNat then some .encTooLong
  else if s.dstCap.toNat < Config.bound s.srcLen.toNat then some .encDstSmall
  else none

/-- The start checks that read no memory, in their order; the first that fails is reported (40_command_interface R112 to R114, R116,
44_encoder R181). -/
def startCheck (op : Op) (s : State) : Option Cause :=
  if op = .reserved then some .illegalCmd
  else if regionWraps s.srcAddr s.srcLen then some .regionWrap
  else if op.usesDst && regionWraps s.dstAddr s.dstCap then some .regionWrap
  else if op.usesDst && regionsOverlap s.srcAddr s.srcLen s.dstAddr s.dstCap then some .regionOverlap
  else if op = .encode then encodeCheck s
  else none

/-- A command word other than NOP reaches the command interface: ignored while BUSY (10_state R22, 40_command_interface R110), else
accepted and checked (40_command_interface R111, R112). DESIGN CHOICE (log 1): acceptance and the start checks are one step. -/
def start (op : Op) (s : State) : State :=
  if s.isBusy then s
  else
    match startCheck op (s.accept op) with
    | some c => (s.accept op).raise c
    | none => s.accept op

/-- NOP (40_command_interface R115). -/
def execNop (s : State) : Host.Outcome State Fault Refusal := .next s

/-- RESERVED, code 5 (40_command_interface R116). -/
def execReserved5 (s : State) : Host.Outcome State Fault Refusal := .next (start .reserved s)

/-- RESERVED, code 6 (40_command_interface R116). -/
def execReserved6 (s : State) : Host.Outcome State Fault Refusal := .next (start .reserved s)

/-- RESERVED, code 7 (40_command_interface R116). -/
def execReserved7 (s : State) : Host.Outcome State Fault Refusal := .next (start .reserved s)

end Sys2Proof.Machine
end

