-- ==== Sys2Proof/Machine/Decoder.lean ====
section
/-! DEFINITION. DECODE and the stream's items (45_decoder), and PEEK_SIZE's use of the header (46_header_utilities). -/

namespace Sys2Proof.Machine

/-- What the running command reads next from its stream. -/
inductive Want where
  /-- Nothing: no stream is being read. -/
  | nothing
  /-- The header (45_decoder R202, 46_header_utilities R230). -/
  | header
  /-- A flag byte (45_decoder R204). -/
  | flag
  /-- A literal's byte (45_decoder R206). -/
  | literal
  /-- A match code (45_decoder R207). -/
  | matchCode
  /-- Nothing more: the declared size is written (45_decoder R210). -/
  | done
  deriving DecidableEq, Repr

/-- DECODE's loop test, flag fetch test and dispatch (45_decoder R210, R204, R205). -/
def wantToken (d : DecRegs) : Want :=
  if d.written = d.size then .done
  else if d.bits = 0#4 then .flag
  else if flagIsLiteral d.flag then .literal
  else .matchCode

/-- What the machine's running command reads next. -/
def want (s : State) : Want :=
  match s.ctrl with
  | .busy .decode => if s.phase = .begin then .header else wantToken s.dec
  | .busy .peekSize => .header
  | .busy .encode | .busy .isYaz0 | .busy .reserved | .idle => .nothing

/-- How many source bytes the running command needs for its header (45_decoder R202, 46_header_utilities R230). -/
def headerNeed (s : State) : Nat := if s.ctrl = .busy .peekSize then Config.peekLen else Config.hdrLen

/-- How long the running command takes its stream to be (45_decoder R201, 46_header_utilities R230). -/
def headerHave (s : State) : Nat := if s.ctrl = .busy .peekSize then s.srcLen.toNat else s.dec.n.toNat

/-- DECODE's header check after the magic (45_decoder R202), then its initialisation (45_decoder R203). -/
def checkHeader (s : State) (size : Word) : State :=
  if size = 0#32 then s.raise .zeroSize
  else if s.dec.cap.toNat < size.toNat then s.raise .sizeGtCap
  else
    { s with
      dec := { s.dec with size := size, pos := BitVec.ofNat 32 Config.hdrLen, written := 0#32, flag := 0#8, bits := 0#4 },
      phase := .tokens }

/-- After every token (45_decoder R209). -/
def nextFlagBit (s : State) : State :=
  { s with dec := { s.dec with flag := shiftFlag s.dec.flag, bits := s.dec.bits - 1#4 } }

/-- How many stream bytes are left (45_decoder R207). -/
def streamLeft (s : State) : Nat := s.dec.n.toNat - s.dec.pos.toNat

/-- One byte of a back-reference copy (45_decoder R208). -/
def copyByte (s : State) (dist : Nat) : State :=
  { s.dstPut s.dec.written.toNat (s.dstByte (s.dec.written.toNat - dist)) with
    dec := { s.dec with written := s.dec.written + 1#32 } }

/-- The copy, strictly one byte after the other (45_decoder R208, 70_reset_and_hazards R276). -/
def copyBytes (s : State) (dist : Nat) : (len : Nat) → State
  | 0 => s
  | len + 1 => copyBytes (copyByte s dist) dist len

/-- `validate_and_copy(dist, len)` and the end of the token (45_decoder R208, R209). -/
def validateAndCopy (s : State) (dist len : Nat) : State :=
  if s.dec.written.toNat < dist then s.raise .badDistance
  else if s.dec.cap.toNat < s.dec.written.toNat + len then s.raise .capOverrun
  else if s.dec.size.toNat < s.dec.written.toNat + len then s.raise .sizeOverrun
  else nextFlagBit (copyBytes s dist len)

/-- The registers after a match code is read: its bytes, the position past it, its distance and length (45_decoder R207). -/
def readMatch (s : State) (b0 b1 b2 : Byte) (k : Nat) (dist : BitVec 13) (len : BitVec 9) : State :=
  { s with
    dec := { s.dec with b0 := b0, b1 := b1, b2 := b2, pos := s.dec.pos + BitVec.ofNat 32 k, dist := dist, len := len } }

/-- A match token of `k` bytes: the code is read whole or the stream is too short for it (45_decoder R207), then the copy. -/
def matchToken (s : State) (b0 b1 b2 : Byte) (k : Nat) (dist : BitVec 13) (len : BitVec 9) : State :=
  if streamLeft s < k then s.raise .truncMatch
  else validateAndCopy (readMatch s b0 b1 b2 k dist len) dist.toNat len.toNat

/-- The byte of an encoded instruction, 0 past its end. -/
def byteOf (i : Instr) (k : Nat) : Byte := (encode i).getD k 0#8

/-- DECODE (45_decoder R200): its start; the block's later steps run the stream's items. -/
def execDecode (s : State) : Host.Outcome State Fault Refusal := .next (start .decode s)

/-- HDR: DECODE checks the size and starts its loop (45_decoder R202, R203); PEEK_SIZE completes with the size
(46_header_utilities R230). -/
def execHdr (size : Word) (s : State) : Host.Outcome State Fault Refusal :=
  if want s ≠ .header then .refused .notSelected
  else if headerHave s < headerNeed s then .next (s.raise .shortInput)
  else if s.ctrl = .busy .peekSize then .next (s.complete size)
  else .next (checkHeader s size)

/-- FLAG (45_decoder R204). -/
def execFlag (f : Byte) (s : State) : Host.Outcome State Fault Refusal :=
  if want s ≠ .flag then .refused .notSelected
  else if streamLeft s = 0 then .next (s.raise .truncFlag)
  else .next { s with dec := { s.dec with flag := f, pos := s.dec.pos + 1#32, bits := 8#4 } }

/-- LIT (45_decoder R206, R209). -/
def execLit (b : Byte) (s : State) : Host.Outcome State Fault Refusal :=
  if want s ≠ .literal then .refused .notSelected
  else if streamLeft s = 0 then .next (s.raise .truncLiteral)
  else if s.dec.written = s.dec.cap then .next (s.raise .litCap)
  else
    .next (nextFlagBit
      { s.dstPut s.dec.written.toNat b with
        dec := { s.dec with pos := s.dec.pos + 1#32, written := s.dec.written + 1#32 } })

/-- SM (45_decoder R207, R208, R211); `b2` is not read and keeps its value. -/
def execSm (l : BitVec 4) (d : BitVec 12) (s : State) : Host.Outcome State Fault Refusal :=
  if want s ≠ .matchCode then .refused .notSelected
  else .next (matchToken s (byteOf (.sm l d) 0) (byteOf (.sm l d) 1) s.dec.b2 2 (matchDistance d) (shortLength l))

/-- LM (45_decoder R207, R208, R212). -/
def execLm (d : BitVec 12) (n : Byte) (s : State) : Host.Outcome State Fault Refusal :=
  if want s ≠ .matchCode then .refused .notSelected
  else .next (matchToken s (byteOf (.lm d n) 0) (byteOf (.lm d n) 1) (byteOf (.lm d n) 2) 3 (matchDistance d) (longLength n))

end Sys2Proof.Machine
end

