-- ==== Sys2Proof/Machine/Primitives.lean ====
section
/-! DEFINITION. The bit and byte primitives over the source region (41_primitives). -/

namespace Sys2Proof.Machine

/-- `seq3(p)`: three source bytes, little-endian; the fourth is never read (41_primitives R130). -/
def seq3 (s : State) (p : Nat) : BitVec 24 := le24 (s.srcByte p) (s.srcByte (p + 1)) (s.srcByte (p + 2))

/-- `HashAt(p)` (41_primitives R133). -/
def hashAt (s : State) (p : Nat) : BitVec 14 := hash3 (seq3 s p)

/-- `eq3(a, b)` (41_primitives R135). -/
def eq3 (s : State) (a b : Nat) : Bool := seq3 s a == seq3 s b

/-- The common prefix of the source at `a` and at `b`, at most `fuel` bytes long. -/
def commonPrefix (s : State) (a b : Nat) : (fuel : Nat) → Nat
  | 0 => 0
  | fuel + 1 => if s.srcByte a = s.srcByte b then commonPrefix s (a + 1) (b + 1) fuel + 1 else 0

/-- `compare_prefix(a, b, limit)`: no byte at or past `limit` is compared (41_primitives R134). -/
def comparePrefix (s : State) (a b limit : Nat) : Nat := commonPrefix s a b (limit - b)

end Sys2Proof.Machine
end

