-- ==== Sys2Proof/Machine/MatchFinder.lean ====
section
/-! DEFINITION. The match finder (42_match_finder). -/

namespace Sys2Proof.Machine

/-- The loop test: a probe runs at `ip` only if `ip + 13 < n` (42_match_finder R146, 44_encoder R183). -/
def mayProbe (s : State) : Bool := decide (s.enc.ip.toNat + Config.limitTail < s.enc.n.toNat)

/-- Whether candidate `ref` is accepted at `ip` (42_match_finder R143); the bytes count only when the distance is in range. -/
def accepts (s : State) (ref ip : Nat) : Bool :=
  decide (ref < ip ∧ ip - ref ≤ Config.window) && eq3 s ref ip

/-- One probe: read the bucket, overwrite it with `ip`, and accept or advance (42_match_finder R140 to R143). -/
def probe (s : State) : State :=
  let ip := s.enc.ip
  let h := hashAt s ip.toNat
  let ref := s.htGet h
  let t := s.htPut h ip
  let e := { s.enc with ref := ref, distance := ip.setWidth 33 - ref.setWidth 33 }
  if accepts s ref.toNat ip.toNat then { t with enc := e, phase := .accepted }
  else { t with enc := { e with ip := ip + 1#32 } }

/-- The length of the accepted match: the three bytes known and the extension (42_match_finder R144). -/
def matchLength (s : State) : Nat :=
  3 + comparePrefix s (s.enc.ref.toNat + 3) (s.enc.ip.toNat + 3) (s.enc.n.toNat - Config.boundTail)

end Sys2Proof.Machine
end

