-- ==== Sys2Proof/Machine/Writer.lean ====
section
/-! DEFINITION. The flag-group writer (43_flag_group_writer). -/

namespace Sys2Proof.Machine

/-- OpenGroup: reserve a fresh flag byte (43_flag_group_writer R160). -/
def openGroup (s : State) : State :=
  { s.dstPut s.wr.op.toNat 0#8 with wr := ⟨s.wr.op + 1#32, s.wr.op, firstMask, 0#8⟩ }

/-- After a token's bytes: the mask moves to the next flag bit, and a full group opens the next at once (43_flag_group_writer R160,
R161; eager, 90_conflicts C4). -/
def advanceMask (s : State) : State :=
  let t := { s with wr := { s.wr with mask := nextMask s.wr.mask } }
  if nextMask s.wr.mask = 0#8 then openGroup t else t

/-- Sets the current flag bit, in FLAGV and in the flag byte (43_flag_group_writer R161). -/
def markLiteral (s : State) : State :=
  { s.dstPut s.wr.fp.toNat (s.wr.flagv ||| s.wr.mask) with wr := { s.wr with flagv := s.wr.flagv ||| s.wr.mask } }

/-- Writes a token's bytes at `op` (43_flag_group_writer R161, R163, R164). -/
def putToken (s : State) (i : Instr) : State :=
  { s.dstPuts s.wr.op.toNat (encode i) with wr := { s.wr with op := s.wr.op + BitVec.ofNat 32 (encode i).length } }

/-- LIT token (43_flag_group_writer R161). -/
def emitLiteral (s : State) (b : Byte) : State := advanceMask (putToken (markLiteral s) (.lit b))

/-- SM or LM token, by the length: the flag bit stays 0 (43_flag_group_writer R163, R164). -/
def emitMatchToken (s : State) (len dist : Nat) : State := advanceMask (putToken s (matchInstr len dist))

/-- `emit_literals(src, count)` (43_flag_group_writer R162). -/
def emitLiterals (s : State) (src : Nat) : (count : Nat) → State
  | 0 => s
  | count + 1 => emitLiterals (emitLiteral s (s.srcByte src)) (src + 1) count

/-- The chunk split off a match longer than 273 (43_flag_group_writer R165). -/
def chunkOf (len : Nat) : Nat :=
  if len - Config.splitChunk = 1 ∨ len - Config.splitChunk = 2 then Config.splitAlt else Config.splitChunk

/-- The lengths of the tokens of a match, in order (43_flag_group_writer R165); `fuel` at least `len` never runs out. -/
def chunks (len : Nat) : (fuel : Nat) → List Nat
  | 0 => [len]
  | fuel + 1 => if Config.splitChunk < len then chunkOf len :: chunks (len - chunkOf len) fuel else [len]

/-- Tokens of the given lengths, all with one distance (43_flag_group_writer R166). -/
def emitTokens (s : State) (dist : Nat) : List Nat → State
  | [] => s
  | len :: t => emitTokens (emitMatchToken s len dist) dist t

/-- `emit_match(length, distance)` (43_flag_group_writer R165). -/
def emitMatch (s : State) (len dist : Nat) : State := emitTokens s dist (chunks len len)

end Sys2Proof.Machine
end

