-- ==== Sys2Proof/Machine/Encoder.lean ====
section
/-! DEFINITION. ENCODE (44_encoder). -/

namespace Sys2Proof.Machine

/-- The registers and the table that ENCODE's initialisation sets (44_encoder R182). -/
def initRegs (s : State) : State :=
  { s with
    ht := [], wr := { s.wr with op := BitVec.ofNat 32 Config.hdrLen },
    enc := { s.enc with anchor := 0#32, ip := BitVec.ofNat 32 Config.ipStart }, phase := .search }

/-- ENCODE's initialisation: clear HT, write the header, open the first group (44_encoder R182). -/
def initEncode (s : State) : State := openGroup ((initRegs s).dstPuts 0 (hdrBytes s.enc.n))

/-- The two post-match insertions, in order (44_encoder R184). -/
def insertPair (s : State) (p : Nat) : State :=
  (s.htPut (hashAt s p) (BitVec.ofNat 32 p)).htPut (hashAt s (p + 1)) (BitVec.ofNat 32 (p + 1))

/-- The match step: literals before the match, the match, the two insertions at the new `ip` (44_encoder R184). -/
def matchStep (s : State) : State :=
  let ip := s.enc.ip.toNat
  let anchor := s.enc.anchor.toNat
  let len := matchLength s
  let t := emitMatch (emitLiterals s anchor (ip - anchor)) len (ip - s.enc.ref.toNat)
  let p := BitVec.ofNat 32 (ip + len)
  insertPair { t with enc := { s.enc with len := BitVec.ofNat 32 len, ip := p, anchor := p }, phase := .search } (ip + len)

/-- The tail flush: every byte from `anchor` on is a literal (44_encoder R186). -/
def tailFlush (s : State) : State :=
  { emitLiterals s s.enc.anchor.toNat (s.enc.n.toNat - s.enc.anchor.toNat) with phase := .flushed }

/-- ENCODE's next atomic step (44_encoder R180, R183, R187). -/
def encodeMove (s : State) : State :=
  match s.phase with
  | .begin | .tokens => initEncode s
  | .search => if mayProbe s then probe s else tailFlush s
  | .accepted => matchStep s
  | .flushed => s.complete s.wr.op

/-- ENCODE (44_encoder R180): its start; the block's later steps are `encodeMove`. -/
def execEncode (s : State) : Host.Outcome State Fault Refusal := .next (start .encode s)

end Sys2Proof.Machine
end

