-- ==== Sys2Proof/Machine/HeaderUtil.lean ====
section
/-! DEFINITION. PEEK_SIZE and IS_YAZ0 (46_header_utilities). PEEK_SIZE's header read is `execHdr`. -/

namespace Sys2Proof.Machine

/-- IS_YAZ0's one step after its start: the magic test; a source too short for the magic does not hold it (46_header_utilities
R232, R233). -/
def isYaz0Move (s : State) : State :=
  if s.srcLen.toNat < Config.magicLen then s.complete 0#32
  else if s.srcBytes 0 Config.magicLen = Config.magic then s.complete 1#32
  else s.complete 0#32

/-- PEEK_SIZE (46_header_utilities R230): its start. -/
def execPeekSize (s : State) : Host.Outcome State Fault Refusal := .next (start .peekSize s)

/-- IS_YAZ0 (46_header_utilities R232): its start. -/
def execIsYaz0 (s : State) : Host.Outcome State Fault Refusal := .next (start .isYaz0 s)

end Sys2Proof.Machine
end

