-- ==== Sys2Proof/Machine/Dispatch.lean ====
section
/-! DEFINITION. One arm per instruction. -/

namespace Sys2Proof.Machine

def exec (i : Instr) (s : State) : Host.Outcome State Fault Refusal :=
  match i with
  | .nop => Sys2Proof.Machine.execNop s
  | .encode => Sys2Proof.Machine.execEncode s
  | .decode => Sys2Proof.Machine.execDecode s
  | .peekSize => Sys2Proof.Machine.execPeekSize s
  | .isYaz0 => Sys2Proof.Machine.execIsYaz0 s
  | .reserved5 => Sys2Proof.Machine.execReserved5 s
  | .reserved6 => Sys2Proof.Machine.execReserved6 s
  | .reserved7 => Sys2Proof.Machine.execReserved7 s
  | .hdr size => Sys2Proof.Machine.execHdr size s
  | .flag f => Sys2Proof.Machine.execFlag f s
  | .lit b => Sys2Proof.Machine.execLit b s
  | .sm l d => Sys2Proof.Machine.execSm l d s
  | .lm d n => Sys2Proof.Machine.execLm d n s

end Sys2Proof.Machine
end

