-- ==== Sys2Proof/Machine/HostPort.lean ====
section
/-! DEFINITION. What the host and the reset input do to the machine (10_state R20 to R22, 20_memory R69 to R72,
70_reset_and_hazards R270 to R272). -/

namespace Sys2Proof.Machine

/-- Whether a register access is within the interface: a word, at a multiple of 4 (10_state R21). -/
def alignedWord (width : Width) (off : Word) : Bool := width == .word && decide (off.toNat % 4 = 0)

/-- Whether an offset lies in the 256-byte register window (10_state R20). -/
def inWindow (off : Word) : Bool := decide (off.toNat < 0x100)

/-- The state with these host actions pending and this the word that the register port returned last (log 2, log 12). -/
def State.withHost (s : State) (q : List HostAction) (v : Word) : State := { s with host := q, portData := v }

/-- A register read: CMD and reserved offsets read 0 (10_state R20, R21). -/
def State.regRead (s : State) (off : Word) : Word :=
  if off = 0x04#32 then s.status
  else if off = 0x08#32 then s.srcAddr
  else if off = 0x0C#32 then s.srcLen
  else if off = 0x10#32 then s.dstAddr
  else if off = 0x14#32 then s.dstCap
  else if off = 0x18#32 then s.result
  else 0#32

/-- A register write elsewhere than CMD: ignored while BUSY (10_state R22), and at read-only registers and reserved offsets (R21). -/
def State.regWrite (s : State) (off v : Word) : State :=
  if s.isBusy then s
  else if off = 0x08#32 then { s with srcAddr := v }
  else if off = 0x0C#32 then { s with srcLen := v }
  else if off = 0x10#32 then { s with dstAddr := v }
  else if off = 0x14#32 then { s with dstCap := v }
  else s

/-- Whether an address lies in a region (20_memory R61; exact sums). -/
def inRegion (a base len : Word) : Bool := decide (base.toNat ≤ a.toNat ∧ a.toNat < base.toNat + len.toNat)

/-- Whether an address is in the source region of the running command. -/
def State.inBusySrc (s : State) (a : Word) : Bool := s.isBusy && inRegion a s.srcAddr s.srcLen

/-- Whether an address is in the destination region of a running command that uses one (20_memory R61; log 10). -/
def State.inBusyDst (s : State) (a : Word) : Bool :=
  match s.ctrl with
  | .busy op => op.usesDst && inRegion a s.dstAddr s.dstCap
  | .idle => false

/-- A host read of memory: a destination byte reads as a free value while BUSY (20_memory R71, log 9), any other byte as it stands. -/
def State.hostMemRead (s : State) (a : Word) : State :=
  if s.inBusyDst a then { s with memData := Config.freeByte s.draws 0, draws := s.draws + 1 }
  else { s with memData := s.memRead a }

/-- The first `k` destination bytes become free values of draw `d` (70_reset_and_hazards R271). -/
def State.freeDst (s : State) (d : Nat) : (k : Nat) → State
  | 0 => s
  | k + 1 => (s.freeDst d k).dstPut k (Config.freeByte d k)

/-- The destination region of the command that a reset aborts becomes free (70_reset_and_hazards R271, log 8); an idle block, and a
command without a destination, leave memory as it is (70_reset_and_hazards R272). -/
def State.abortDst (s : State) : State :=
  match s.ctrl with
  | .busy op => if op.usesDst then s.freeDst s.draws s.dstCap.toNat else s
  | .idle => s

/-- The reset input (70_reset_and_hazards R270 to R272): the host's pending actions and the data it has read are not the block's. -/
def State.resetInput (s : State) : State :=
  { s.abortDst.freeWork with
    srcAddr := 0#32, srcLen := 0#32, dstAddr := 0#32, dstCap := 0#32, status := 0#32, result := 0#32, ctrl := .idle,
    phase := .begin }

end Sys2Proof.Machine
end

