-- ==== Sys2Proof/Machine/Fetch.lean ====
section
/-! DEFINITION. Whose turn it is and what it does: the host's next action, or the block's next atomic step (10_state R31), and the
fetch of the stream's items. -/

namespace Sys2Proof.Machine

/-- What one step of the machine does. -/
inductive Turn where
  /-- An instruction of the opcode table runs at a state. -/
  | run (i : Instr) (s : State)
  /-- A move that is no instruction of the table. -/
  | move (s : State)
  /-- The machine stops. -/
  | stop (f : Fault)
  /-- An action outside the interface. -/
  | refuse (r : Refusal)
  deriving DecidableEq, Repr

/-- Runs the item the stream bytes decode to, or takes the error for a stream that ends before it (45_decoder R204, R206, R207). -/
def runItem (s : State) (sel : Select) (need : Nat) (c : Cause) : Turn :=
  match decode sel (s.srcBytes s.dec.pos.toNat (min need (streamLeft s))) with
  | .ok (i, _) => .run i s
  | .error _ => .move (s.raise c)

/-- How many bytes a match code needs: two, and a third when the first byte, read only if two are there, says so (45_decoder R207). -/
def matchNeed (s : State) : Nat := if streamLeft s < 2 then 2 else matchLen (s.srcByte s.dec.pos.toNat)

/-- The header: the source must be long enough before a byte of it is read, and it must start with the magic (45_decoder R202,
46_header_utilities R230). -/
def runHeader (s : State) : Turn :=
  if headerHave s < headerNeed s then .move (s.raise .shortInput)
  else
    match decode .hdr (s.srcBytes 0 Config.peekLen) with
    | .ok (i, _) => .run i s
    | .error _ => .move (s.raise .badMagic)

/-- The next item of the stream the running command reads (45_decoder R200, 46_header_utilities R230). -/
def streamTurn (s : State) : Turn :=
  match want s with
  | .nothing => .move s
  | .header => runHeader s
  | .flag => runItem s .flag 1 .truncFlag
  | .literal => runItem s .lit 1 .truncLiteral
  | .matchCode => runItem s .mtch (matchNeed s) .truncMatch
  | .done => .move (s.complete s.dec.written)

/-- The block's next atomic step (10_state R31); idle, it takes none (60_exceptions R257). -/
def blockTurn (s : State) : Turn :=
  match s.ctrl with
  | .idle => .move s
  | .busy .reserved => .move (s.raise .illegalCmd)
  | .busy .encode => .move (encodeMove s)
  | .busy .isYaz0 => .move (isYaz0Move s)
  | .busy .decode => streamTurn s
  | .busy .peekSize => streamTurn s

/-- A host register write: a write of CMD presents a command, which `exec` ignores while BUSY (10_state R21 to R23). -/
def writeTurn (s : State) (width : Width) (off v : Word) : Turn :=
  if !alignedWord width off then .refuse .badRegisterAccess
  else if !inWindow off then .refuse .outsideWindow
  else if off = 0#32 then .run (decodeCmd v) s
  else .move (s.regWrite off v)

/-- A host register read (10_state R20, R21). -/
def readTurn (s : State) (width : Width) (off : Word) : Turn :=
  if !alignedWord width off then .refuse .badRegisterAccess
  else if !inWindow off then .refuse .outsideWindow
  else .move (s.withHost s.host (s.regRead off))

/-- The host's next action `a`, on a state whose pending actions are the ones after it. -/
def hostTurn (s : State) (a : HostAction) : Turn :=
  match a with
  | .wr width off v => writeTurn s width off v
  | .rd width off => readTurn s width off
  | .memWr addr b => if s.inBusySrc addr || s.inBusyDst addr then .stop .regionRace else .move (s.memWrite addr b)
  | .memRd addr => .move (s.hostMemRead addr)
  | .wait =>
    if s.isBusy then blockTurn (s.withHost (.wait :: s.host) s.status)
    else .move (s.withHost s.host s.status)
  | .pass => blockTurn s
  | .reset => .move s.resetInput

/-- Whose turn it is: the host's while it has an action pending, else the block's (log 2). -/
def turn (s : State) : Turn :=
  match s.host with
  | [] => blockTurn s
  | a :: rest => hostTurn (s.withHost rest s.portData) a

/-- Writes bytes to memory at consecutive addresses. -/
def State.memPuts (s : State) (a : Word) : List Byte → State
  | [] => s
  | b :: t => (s.memWrite a b).memPuts (a + 1#32) t

/-- A decoder that is about to read an item at stream offset 16 of a 32-byte stream, 4096 bytes of 8192 written, with the given flag
register and count (log 16). -/
def fetchDec (s : State) (flag : Byte) (bits : BitVec 4) : DecRegs :=
  { s.dec with n := 32#32, cap := 8192#32, size := 8192#32, pos := 16#32, written := 4096#32, flag := flag, bits := bits }

/-- `s` with DECODE running at phase `p`, and the bytes placed at source offset `k`. -/
def placeItem (s : State) (p : Phase) (d : DecRegs) (k : Nat) (bs : List Byte) : State :=
  { s.memPuts (s.srcAddr + BitVec.ofNat 32 k) bs with
    ctrl := .busy .decode, phase := p, status := statusRunning, result := 0#32, srcLen := 32#32, dstCap := 8192#32, dec := d,
    host := [] }

/-- `s` with the host about to write CMD, and the block idle. -/
def placeCmd (s : State) (w : Word) : State :=
  { s with
    host := .wr .word 0#32 w :: s.host, ctrl := .idle,
    status := if s.isBusy then 0#32 else s.status }

/-- The state in which the very next step fetches and runs a table word (log 16). -/
def placeWord (s : State) (nbits w : Nat) : State :=
  match tableSelect nbits w with
  | .cmd => placeCmd s (BitVec.ofNat 32 (w % 2 ^ nbits))
  | .hdr => placeItem s .begin (fetchDec s 0#8 0#4) 0 (tableBytes nbits w)
  | .flag => placeItem s .tokens (fetchDec s 0#8 0#4) 16 (tableBytes nbits w)
  | .lit => placeItem s .tokens (fetchDec s 0x80#8 8#4) 16 (tableBytes nbits w)
  | .mtch => placeItem s .tokens (fetchDec s 0#8 8#4) 16 (tableBytes nbits w)

end Sys2Proof.Machine
end

