-- ==== Sys2Proof/Machine/Step.lean ====
section
/-! DEFINITION. One step of the machine. -/

namespace Sys2Proof.Machine

/-- What a turn comes to: its instruction runs, or its move is made. -/
def perform (w : Turn) : Host.Outcome State Fault Refusal :=
  match w with
  | .run i t => exec i t
  | .move t => .next t
  | .stop f => .fault f
  | .refuse r => .refused r

/-- One step (10_state R31). -/
def step (s : State) : Host.Outcome State Fault Refusal := perform (turn s)

/-- `s` with a table word where the next step fetches it (log 16). -/
def State.withFetchWord (s : State) (nbits w : Nat) : State := placeWord s nbits w

end Sys2Proof.Machine
end

