-- ==== Sys2Proof/Safety.lean ====
section
/-! DEFINITION. What the spec promises of every state the machine reaches, as predicates over a state that claims take as premises
or show kept. -/

namespace Sys2Proof.Machine

/-- STATUS and RESULT agree with the control state (10_state R24, R29, R30; 60_exceptions R243): busy, STATUS is just BUSY and RESULT
reads 0; idle, STATUS is its reset value, a success, or an error with a cause and RESULT 0. -/
def StatusOk (s : State) : Prop :=
  match s.ctrl with
  | .busy _ => s.status = statusRunning ∧ s.result = 0#32
  | .idle =>
    (s.status = 0#32 ∧ s.result = 0#32) ∨ s.status = statusDoneOk ∨ ∃ c : Cause, s.status = statusError c ∧ s.result = 0#32

/-- Memory and the hash table are in canonical form. -/
def StoresOk (s : State) : Prop := Memory.wf s.mem ∧ HashTable.wf s.ht

/-- A running command has passed its start checks, and its parameters still pass them (10_state R22, 40_command_interface R112). -/
def ParamsOk (s : State) : Prop := ∀ op, s.ctrl = .busy op → startCheck op s = none

/-- DECODE's registers while it runs (10_state R33, R36, R42): copies of the parameters, and in the token loop a cursor within the
stream, a declared size within the capacity, and no more bytes written than declared. -/
def DecodeOk (s : State) : Prop :=
  s.ctrl = .busy .decode →
    s.dec.n = s.srcLen ∧ s.dec.cap = s.dstCap ∧ (s.phase = .begin ∨ s.phase = .tokens) ∧
    (s.phase = .tokens →
      16 ≤ s.dec.pos.toNat ∧ s.dec.pos.toNat ≤ s.dec.n.toNat ∧
      0 < s.dec.size.toNat ∧ s.dec.size.toNat ≤ s.dec.cap.toNat ∧
      s.dec.written.toNat ≤ s.dec.size.toNat ∧ s.dec.bits.toNat ≤ 8)

/-- The writer's mask is one flag bit (10_state R37). -/
def MaskOk (mask : Byte) : Prop :=
  mask = 0x80#8 ∨ mask = 0x40#8 ∨ mask = 0x20#8 ∨ mask = 0x10#8 ∨ mask = 0x08#8 ∨ mask = 0x04#8 ∨ mask = 0x02#8 ∨ mask = 0x01#8

/-- The flag bits that no token has taken yet are 0 (10_state R38): the bit `mask` and every bit below it. -/
def UnusedFlagsZero (w : WriterRegs) : Prop := w.flagv &&& (w.mask ||| (w.mask - 1#8)) = 0#8

/-- The writer cursor after `e` input bytes have been turned into tokens (10_state R34, R37, R38; 43_flag_group_writer R168;
44_encoder R189): `t` tokens so far, at most one per byte, have left the mask at its place in the group and `op` within the bound,
and the current flag byte in the destination is FLAGV. -/
def WriterOk (s : State) (e : Nat) : Prop :=
  (∃ t, t ≤ e ∧ s.wr.mask = firstMask >>> (t % 8) ∧ s.wr.op.toNat ≤ 17 + e + t / 8) ∧
  UnusedFlagsZero s.wr ∧
  16 ≤ s.wr.fp.toNat ∧ s.wr.fp.toNat < s.wr.op.toNat ∧ s.dstByte s.wr.fp.toNat = s.wr.flagv

/-- The destination starts with the header of a stream that declares `n` bytes (44_encoder R193). -/
def HeaderOk (s : State) (n : Word) : Prop := ∀ k, k < 16 → s.dstByte k = (hdrBytes n).getD k 0#8

/-- How many input bytes ENCODE has turned into tokens: those before `anchor`, and all of them once the tail is flushed
(10_state R32, 44_encoder R186). -/
def emitted (s : State) : Nat := if s.phase = .flushed then s.enc.n.toNat else s.enc.anchor.toNat

/-- ENCODE's registers and output while it runs (10_state R32, R34, R37, R38; 42_match_finder R143, R146; 44_encoder R189, R193). The
cursor's bound is `max n 2`: initialisation sets `ip` to 2 whatever `n` is (log 24). -/
def EncodeOk (s : State) : Prop :=
  s.ctrl = .busy .encode →
    s.enc.n = s.srcLen ∧ s.phase ≠ .tokens ∧
    (s.phase ≠ .begin →
      WriterOk s (emitted s) ∧ HeaderOk s s.enc.n ∧
      s.enc.anchor.toNat ≤ s.enc.ip.toNat ∧ s.enc.anchor.toNat ≤ s.enc.n.toNat ∧ s.enc.ip.toNat ≤ max s.enc.n.toNat 2) ∧
    (s.phase = .accepted → mayProbe s = true ∧ accepts s s.enc.ref.toNat s.enc.ip.toNat = true)

/-- Every promise at once. -/
def Inv (s : State) : Prop := StatusOk s ∧ StoresOk s ∧ ParamsOk s ∧ DecodeOk s ∧ EncodeOk s

/-- An address of the running command's destination region (20_memory R61, R64). -/
def InDst (s : State) (a : Word) : Prop := s.dstAddr.toNat ≤ a.toNat ∧ a.toNat < s.dstAddr.toNat + s.dstCap.toNat

/-- An address of the source region (20_memory R61). -/
def InSrc (s : State) (a : Word) : Prop := s.srcAddr.toNat ≤ a.toNat ∧ a.toNat < s.srcAddr.toNat + s.srcLen.toNat

end Sys2Proof.Machine
end

