-- ==== Sys2Proof/Certificates/Slice0/Obligations.lean ====
section
/-! DEFINITION. The statements for the provers, in the order of spec/. Each docstring names the rules a statement formalises. A clause
that rests on the model's own choice names the log entry. -/

open Sys2Proof Sys2Proof.Machine

/-! ### What several statements say -/

/-- The parameter registers are the same (10_state R25 to R28). -/
abbrev Sys2Proof.Machine.SameParams (s t : State) : Prop :=
  t.srcAddr = s.srcAddr ∧ t.srcLen = s.srcLen ∧ t.dstAddr = s.dstAddr ∧ t.dstCap = s.dstCap

/-- An error with STATUS value `v` has been taken (60_exceptions R243): RESULT 0, IDLE, and no parameter, no byte of memory and nothing
of the host's has changed. -/
abbrev Sys2Proof.Machine.ErrorTaken (s t : State) (v : Word) : Prop :=
  t.status = v ∧ t.result = 0#32 ∧ t.ctrl = .idle ∧ SameParams s t ∧ t.mem = s.mem ∧ t.host = s.host ∧
    t.portData = s.portData ∧ t.memData = s.memData

/-- The source region passes address 2^32 - 1 (40_command_interface R113). -/
abbrev Sys2Proof.Machine.SrcWraps (s : State) : Prop := 2 ^ 32 < s.srcAddr.toNat + s.srcLen.toNat

/-- The destination region passes address 2^32 - 1 (40_command_interface R113). -/
abbrev Sys2Proof.Machine.DstWraps (s : State) : Prop := 2 ^ 32 < s.dstAddr.toNat + s.dstCap.toNat

/-- The two regions share a byte (40_command_interface R114). -/
abbrev Sys2Proof.Machine.RegionsShare (s : State) : Prop :=
  0 < s.srcLen.toNat ∧ 0 < s.dstCap.toNat ∧ s.srcAddr.toNat < s.dstAddr.toNat + s.dstCap.toNat ∧
    s.dstAddr.toNat < s.srcAddr.toNat + s.srcLen.toNat

/-- The regions of a command that uses both are in order (40_command_interface R113, R114). -/
abbrev Sys2Proof.Machine.RegionsFit (s : State) : Prop := ¬ SrcWraps s ∧ ¬ DstWraps s ∧ ¬ RegionsShare s

/-- The source starts with the magic (30_encoding R83). -/
abbrev Sys2Proof.Machine.SrcMagic (s : State) : Prop :=
  s.srcByte 0 = 0x59#8 ∧ s.srcByte 1 = 0x61#8 ∧ s.srcByte 2 = 0x7A#8 ∧ s.srcByte 3 = 0x30#8

/-- The size that source bytes 4 to 7 declare, big-endian (30_encoding R83). -/
def Sys2Proof.Machine.srcSize (s : State) : Nat :=
  (s.srcByte 4).toNat * 2 ^ 24 + (s.srcByte 5).toNat * 2 ^ 16 + (s.srcByte 6).toNat * 2 ^ 8 + (s.srcByte 7).toNat

/-- DECODE is past its header and needs another token (45_decoder R210). -/
abbrev Sys2Proof.Machine.InLoop (s : State) : Prop :=
  s.ctrl = .busy .decode ∧ s.phase ≠ .begin ∧ s.dec.written ≠ s.dec.size

/-- DECODE stands before a literal (45_decoder R205). -/
abbrev Sys2Proof.Machine.AtLiteral (s : State) : Prop := InLoop s ∧ s.dec.bits ≠ 0#4 ∧ s.dec.flag.getLsbD 7 = true

/-- DECODE stands before a match token (45_decoder R205). -/
abbrev Sys2Proof.Machine.AtMatch (s : State) : Prop := InLoop s ∧ s.dec.bits ≠ 0#4 ∧ s.dec.flag.getLsbD 7 = false

/-- ENCODE is at phase `p` with nothing pending from the host. -/
abbrev Sys2Proof.Machine.Encoding (s : State) (p : Phase) : Prop := s.host = [] ∧ s.ctrl = .busy .encode ∧ s.phase = p

/-- ENCODE can start here and is left alone: idle, no host action, regions in order, within ENCODE's limits (40_command_interface R113,
R114; 44_encoder R181). -/
abbrev Sys2Proof.Machine.EncodeReady (s : State) : Prop :=
  s.host = [] ∧ s.ctrl = .idle ∧ StoresOk s ∧ RegionsFit s ∧ s.srcLen.toNat ≤ 2 ^ 31 - 1 ∧
    16 + s.srcLen.toNat + (s.srcLen.toNat + 7) / 8 + 1 ≤ s.dstCap.toNat

/-- The length and distance of a match instruction (30_encoding R91). -/
def Sys2Proof.Machine.matchOperands : Instr → Option (Nat × Nat)
  | .sm l d => some ((shortLength l).toNat, (matchDistance d).toNat)
  | .lm d n => some ((longLength n).toNat, (matchDistance d).toNat)
  | _ => none

/-! ### Encodings -/

/-- Decoding an encoded well-formed instruction gives it back, with the bytes after it (30_encoding R81, R83, R86, R88 to R92). -/
def Obligations.DecodeOfEncode : Prop :=
  ∀ (i : Instr) (rest : List Byte), wellFormed i = true → decode (selectOf i) (encode i ++ rest) = .ok (i, rest)

/-- Whatever decodes as a match code is the encoding of a well-formed instruction: no match pattern has a second meaning
(30_encoding R93, R95). -/
def Obligations.EncodeOfDecodedMatch : Prop :=
  ∀ (bs rest : List Byte) (i : Instr), decode .mtch bs = .ok (i, rest) → wellFormed i = true ∧ bs = encode i ++ rest

/-- The command map: OP is bits 2:0, and bits 31:3 are ignored (30_encoding R81). -/
def Obligations.CommandMap : Prop :=
  ∀ w : Word,
    ([.nop, .encode, .decode, .peekSize, .isYaz0, .reserved5, .reserved6, .reserved7] : List Instr)[w.toNat % 8]? = some (decodeCmd w)

/-- How a match code's bytes make its distance and length (30_encoding R91). -/
def Obligations.MatchOperandAssembly : Prop :=
  ∀ (b0 b1 b2 : Byte) (rest : List Byte),
    (b0.toNat / 16 ≠ 0 →
      ∃ i, decode .mtch (b0 :: b1 :: rest) = .ok (i, rest) ∧
        matchOperands i = some (b0.toNat / 16 + 2, (b0.toNat % 16) * 256 + b1.toNat + 1)) ∧
    (b0.toNat / 16 = 0 →
      ∃ i, decode .mtch (b0 :: b1 :: b2 :: rest) = .ok (i, rest) ∧
        matchOperands i = some (b2.toNat + 18, (b0.toNat % 16) * 256 + b1.toNat + 1)) ∧
    (b0.toNat % 16) * 256 + b1.toNat + 1 ≤ 4096 ∧ b0.toNat / 16 + 2 ≤ 17 ∧ b2.toNat + 18 ≤ 273

/-- The bytes of a match token (30_encoding R92). -/
def Obligations.MatchTokenBytes : Prop :=
  ∀ len dist : Nat, 3 ≤ len → len ≤ 273 → 1 ≤ dist → dist ≤ 4096 →
    (len ≤ 17 →
      encode (matchInstr len dist) =
        [BitVec.ofNat 8 (((len - 2) <<< 4) ||| ((dist - 1) >>> 8)), BitVec.ofNat 8 ((dist - 1) &&& 0xFF)] ∧
      (dist - 1) >>> 8 ≤ 15) ∧
    (18 ≤ len →
      encode (matchInstr len dist) =
        [BitVec.ofNat 8 (((dist - 1) >>> 8) &&& 0x0F), BitVec.ofNat 8 ((dist - 1) &&& 0xFF), BitVec.ofNat 8 (len - 18)])

/-- Every length and distance has exactly one match instruction (30_encoding R93). -/
def Obligations.OneEncodingPerMatch : Prop :=
  ∀ len dist : Nat, 3 ≤ len → len ≤ 273 → 1 ≤ dist → dist ≤ 4096 →
    wellFormed (matchInstr len dist) = true ∧ matchOperands (matchInstr len dist) = some (len, dist) ∧
    ∀ i, wellFormed i = true → matchOperands i = some (len, dist) → i = matchInstr len dist

/-- A header: the magic, the big-endian size, and eight bytes that do not matter; any other first four bytes are refused
(30_encoding R83, R84). -/
def Obligations.HeaderDecodes : Prop :=
  (∀ (s0 s1 s2 s3 : Byte) (rsv rest : List Byte), rsv.length = 8 →
    ∃ size : Word,
      decode .hdr ([0x59#8, 0x61#8, 0x7A#8, 0x30#8, s0, s1, s2, s3] ++ rsv ++ rest) = .ok (.hdr size, rest) ∧
      size.toNat = s0.toNat * 2 ^ 24 + s1.toNat * 2 ^ 16 + s2.toNat * 2 ^ 8 + s3.toNat) ∧
  (∀ bs : List Byte, 8 ≤ bs.length → bs.take 4 ≠ [0x59#8, 0x61#8, 0x7A#8, 0x30#8] → decode .hdr bs = .error .badMagic)

/-- Words written out from the spec decode to what they stand for (30_encoding R81, R83, R89, R90; 95_test_vectors). -/
def Obligations.SpecWordsDecode : Prop :=
  decodeCmd 0xFFFFFFF8#32 = .nop ∧ decodeCmd 0xFFFFFFF9#32 = .encode ∧ decodeCmd 2#32 = .decode ∧ decodeCmd 3#32 = .peekSize ∧
  decodeCmd 4#32 = .isYaz0 ∧ decodeCmd 5#32 = .reserved5 ∧ decodeCmd 6#32 = .reserved6 ∧ decodeCmd 0xFFFFFFFF#32 = .reserved7 ∧
  decode .mtch [0x40#8, 0x03#8] = .ok (.sm 4#4 3#12, []) ∧ decode .mtch [0x00#8, 0x00#8, 0xED#8] = .ok (.lm 0#12 0xED#8, [])

/-! ### The step and the register port -/

/-- A host write of CMD runs the command its word decodes to, on the state with that action taken (10_state R21, R23). -/
def Obligations.CommandWriteRuns : Prop :=
  ∀ (s : State) (v : Word) (rest : List HostAction), s.host = .wr .word 0#32 v :: rest →
    step s = exec (decodeCmd v) (s.withHost rest s.portData)

/-- The block's step runs the stream item at the cursor (45_decoder R202, R204 to R207; 46_header_utilities R230). That a flag fetch is a
step of its own, apart from the token that needs it, is the model's choice (log 1): 10_state R31 lists them as one step. -/
def Obligations.StreamItemRuns : Prop :=
  ∀ s : State, s.host = [] →
    (∀ size, s.ctrl = .busy .decode → s.phase = .begin → 16 ≤ s.dec.n.toNat →
      decode .hdr (s.srcBytes 0 8) = .ok (.hdr size, []) → step s = exec (.hdr size) s) ∧
    (∀ size, s.ctrl = .busy .peekSize → 8 ≤ s.srcLen.toNat →
      decode .hdr (s.srcBytes 0 8) = .ok (.hdr size, []) → step s = exec (.hdr size) s) ∧
    (InLoop s → s.dec.bits = 0#4 → s.dec.pos.toNat < s.dec.n.toNat → step s = exec (.flag (s.srcByte s.dec.pos.toNat)) s) ∧
    (AtLiteral s → s.dec.pos.toNat < s.dec.n.toNat → step s = exec (.lit (s.srcByte s.dec.pos.toNat)) s) ∧
    (∀ i, AtMatch s → s.dec.pos.toNat + (encode i).length ≤ s.dec.n.toNat →
      decode .mtch (s.srcBytes s.dec.pos.toNat (encode i).length) = .ok (i, []) → step s = exec i s)

/-- With nothing pending from the host every state has a next state: the block never stops (40_command_interface R118,
44_encoder R190), and idle it stays as it is (60_exceptions R257). Under the host's action `pass` the block takes that same step. Under
WAIT it takes that same step for as long as it is busy, WAIT still pending; once it is idle, WAIT ends with STATUS read (30_encoding
R97). That the host's actions are a list whose action `pass` lets the block step is the model's choice (log 2), and so is the
field `portData` that holds the word read (log 12). -/
def Obligations.BlockNeverStops : Prop :=
  ∀ s : State, s.host = [] →
    ∃ t, step s = .next t ∧ (s.ctrl = .idle → t = s) ∧
      ∀ rest,
        step { s with host := .pass :: rest } = .next { t with host := rest } ∧
        (s.ctrl ≠ .idle →
          step { s with host := .wait :: rest } = .next { t with host := .wait :: rest, portData := s.status }) ∧
        (s.ctrl = .idle → step { s with host := .wait :: rest } = .next { s with host := rest, portData := s.status })

/-- A stream item run where the running command does not read it is refused by name (the model's refusal, log 14). -/
def Obligations.ItemsOutOfPlaceRefused : Prop :=
  ∀ s : State,
    (∀ size, s.ctrl ≠ .busy .peekSize → ¬ (s.ctrl = .busy .decode ∧ s.phase = .begin) → exec (.hdr size) s = .refused .notSelected) ∧
    (∀ f, ¬ (InLoop s ∧ s.dec.bits = 0#4) → exec (.flag f) s = .refused .notSelected) ∧
    (∀ b, ¬ AtLiteral s → exec (.lit b) s = .refused .notSelected) ∧
    (∀ i, selectOf i = .mtch → ¬ AtMatch s → exec i s = .refused .notSelected)

/-- The register port: what each offset reads as and which accesses are outside the interface, idle or busy, and what a write does to an
idle block (10_state R20, R21; the refusals' names are the model's, log 11, and so is the field that holds the word read, log 12). -/
def Obligations.RegisterPort : Prop :=
  ∀ (s : State) (w : Width) (off v : Word) (rest : List HostAction),
    (s.host = .rd w off :: rest → w = .word → off.toNat % 4 = 0 → off.toNat < 0x100 →
      ∃ r, step s = .next (s.withHost rest r) ∧
        (off = 0x04#32 → r = s.status) ∧ (off = 0x08#32 → r = s.srcAddr) ∧ (off = 0x0C#32 → r = s.srcLen) ∧
        (off = 0x10#32 → r = s.dstAddr) ∧ (off = 0x14#32 → r = s.dstCap) ∧ (off = 0x18#32 → r = s.result) ∧
        (off = 0x00#32 ∨ 0x1C ≤ off.toNat → r = 0#32)) ∧
    (s.ctrl = .idle → s.host = .wr w off v :: rest → w = .word → off.toNat % 4 = 0 → off.toNat < 0x100 →
      let u := s.withHost rest s.portData
      (off = 0x08#32 → step s = .next { u with srcAddr := v }) ∧ (off = 0x0C#32 → step s = .next { u with srcLen := v }) ∧
      (off = 0x10#32 → step s = .next { u with dstAddr := v }) ∧ (off = 0x14#32 → step s = .next { u with dstCap := v }) ∧
      (off = 0x04#32 ∨ 0x18 ≤ off.toNat → step s = .next u)) ∧
    (s.host = .rd w off :: rest ∨ s.host = .wr w off v :: rest → w ≠ .word ∨ off.toNat % 4 ≠ 0 →
      step s = .refused .badRegisterAccess) ∧
    (s.host = .rd w off :: rest ∨ s.host = .wr w off v :: rest → w = .word → off.toNat % 4 = 0 → 0x100 ≤ off.toNat →
      step s = .refused .outsideWindow)

/-- While BUSY every register write is ignored, CMD included, and reads return STATUS, RESULT 0 and the parameters (10_state R22), and 0
at CMD and at the reserved offsets (10_state R21). The accesses outside the interface are refused as RegisterPort says (log 11); the
field that holds the word read is the model's (log 12). -/
def Obligations.BusyPort : Prop :=
  ∀ (s : State) (op : Op) (w : Width) (off v : Word) (rest : List HostAction), s.ctrl = .busy op → StatusOk s →
    (w = .word → off.toNat % 4 = 0 → off.toNat < 0x100 →
      (s.host = .wr w off v :: rest → step s = .next (s.withHost rest s.portData)) ∧
      (s.host = .rd w off :: rest →
        ∃ r, step s = .next (s.withHost rest r) ∧ (off = 0x04#32 → r = s.status) ∧ (off = 0x18#32 → r = 0#32) ∧
          (off = 0x08#32 → r = s.srcAddr) ∧ (off = 0x0C#32 → r = s.srcLen) ∧ (off = 0x10#32 → r = s.dstAddr) ∧
          (off = 0x14#32 → r = s.dstCap) ∧ (off = 0x00#32 ∨ 0x1C ≤ off.toNat → r = 0#32))) ∧
    (s.host = .rd w off :: rest ∨ s.host = .wr w off v :: rest →
      (w ≠ .word ∨ off.toNat % 4 ≠ 0 → step s = .refused .badRegisterAccess) ∧
      (w = .word → off.toNat % 4 = 0 → 0x100 ≤ off.toNat → step s = .refused .outsideWindow))

/-- STATUS in every state that keeps its promise: reserved bits 0, BUSY exactly while a command runs, never with DONE, a cause only
with ERR, and no cause above 0x10 (10_state R24, R30; 60_exceptions R240). -/
def Obligations.StatusLayout : Prop :=
  ∀ s : State, StatusOk s →
    s.status.extractLsb' 3 5 = 0#5 ∧ s.status.extractLsb' 13 19 = 0#19 ∧
    (s.status.getLsbD 0 = true ↔ s.ctrl ≠ .idle) ∧ ¬ (s.status.getLsbD 0 = true ∧ s.status.getLsbD 1 = true) ∧
    (s.status.getLsbD 2 = false → s.status.extractLsb' 8 5 = 0#5) ∧
    (s.status.getLsbD 2 = true → s.status.getLsbD 1 = true ∧ s.result = 0#32 ∧ 1 ≤ (s.status.extractLsb' 8 5).toNat) ∧
    (s.status.extractLsb' 8 5).toNat ≤ 0x10

/-- Every step keeps STATUS and RESULT in agreement with the control state (10_state R24, R29, R30). -/
def Obligations.StatusKept : Prop := ∀ s t : State, StatusOk s → step s = .next t → StatusOk t

/-- Every step keeps memory and the hash table in canonical form (the model's own form, log 3, log 5). -/
def Obligations.StoresKept : Prop := ∀ s t : State, StoresOk s → step s = .next t → StoresOk t

/-- The parameter registers change only by a host register write or by the reset input (10_state R22, 70_reset_and_hazards R275). -/
def Obligations.ParametersKept : Prop :=
  ∀ s t : State, (∀ w off v rest, s.host ≠ .wr w off v :: rest) → (∀ rest, s.host ≠ .reset :: rest) → step s = .next t →
    SameParams s t

/-! ### Memory and reset -/

/-- The block's own step writes only the destination region of a command that uses one, and so never the source region
(20_memory R64; 46_header_utilities R235). -/
def Obligations.BlockWritesOnlyItsDestination : Prop :=
  ∀ s t : State, s.host = [] → Inv s → step s = .next t →
    (∀ a, ¬ InDst s a → t.memRead a = s.memRead a) ∧ (∀ a, s.ctrl ≠ .idle → InSrc s a →
      (s.ctrl = .busy .encode ∨ s.ctrl = .busy .decode) → t.memRead a = s.memRead a) ∧
    (s.ctrl ≠ .busy .encode → s.ctrl ≠ .busy .decode → t.mem = s.mem)

/-- The host and memory: while a command runs, a host write into its regions is a race (the model's fault, log 10), a source byte reads
as it stands, and a destination byte reads as a free value (20_memory R70, R71; log 9); every other access is one of ordinary memory.
PEEK_SIZE and IS_YAZ0 use no destination (46_header_utilities R235). -/
def Obligations.HostMemoryAccess : Prop :=
  ∀ (s : State) (a : Word) (b : Byte) (rest : List HostAction),
    let inDst := (s.ctrl = .busy .encode ∨ s.ctrl = .busy .decode) ∧ InDst s a
    let inSrc := s.ctrl ≠ .idle ∧ InSrc s a
    (s.host = .memWr a b :: rest → inSrc ∨ inDst → step s = .fault .regionRace) ∧
    (s.host = .memWr a b :: rest → ¬ inSrc → ¬ inDst → step s = .next ((s.withHost rest s.portData).memWrite a b)) ∧
    (s.host = .memRd a :: rest → ¬ inDst → step s = .next { s.withHost rest s.portData with memData := s.memRead a }) ∧
    (s.host = .memRd a :: rest → inDst →
      step s = .next { s.withHost rest s.portData with memData := Config.freeByte s.draws 0, draws := s.draws + 1 })

/-- The reset input: the registers of the register port and the control state take their reset values, and an idle block's memory is
untouched (70_reset_and_hazards R270, R272). That the host's pending actions survive it, `t.host = rest`, is the model's choice
(log 8). -/
def Obligations.ResetInput : Prop :=
  ∀ (s : State) (rest : List HostAction), s.host = .reset :: rest →
    ∃ t, step s = .next t ∧ t.ctrl = .idle ∧ t.status = 0#32 ∧ t.srcAddr = 0#32 ∧ t.srcLen = 0#32 ∧ t.dstAddr = 0#32 ∧
      t.dstCap = 0#32 ∧ t.result = 0#32 ∧ t.host = rest ∧ (s.ctrl = .idle → t.mem = s.mem)

/-- A reset while BUSY reports neither success nor an error, leaves every byte outside the aborted command's destination as it was, the
source included, and a free value in each destination byte of a command that uses one (70_reset_and_hazards R271; log 8). -/
def Obligations.ResetWhileBusy : Prop :=
  ∀ (s : State) (op : Op) (rest : List HostAction), s.host = .reset :: rest → s.ctrl = .busy op → ParamsOk s → Memory.wf s.mem →
    ∃ t, step s = .next t ∧ t.ctrl = .idle ∧ t.status = 0#32 ∧ t.result = 0#32 ∧
      (∀ a, ¬ InDst s a → t.memRead a = s.memRead a) ∧ (op ≠ .encode → op ≠ .decode → t.mem = s.mem) ∧
      (op = .encode ∨ op = .decode →
        ∀ k, k < s.dstCap.toNat → t.memRead (s.dstAddr + BitVec.ofNat 32 k) = Config.freeByte s.draws k)

/-- What reset leaves where the spec gives a value (10_state R41, 70_reset_and_hazards R270); memory lists nothing (the model's
choice, log 3). -/
def Obligations.ResetValues : Prop :=
  State.reset.ctrl = .idle ∧ State.reset.status = 0#32 ∧ State.reset.srcAddr = 0#32 ∧ State.reset.srcLen = 0#32 ∧
    State.reset.dstAddr = 0#32 ∧ State.reset.dstCap = 0#32 ∧ State.reset.result = 0#32 ∧ State.reset.mem = []

/-- Every promise of Safety.lean holds after reset (the model's invariant). -/
def Obligations.ResetKeepsPromises : Prop := Inv State.reset

/-! ### The command interface -/

/-- NOP changes nothing, whatever bits 31:3 of its word are (40_command_interface R115). -/
def Obligations.NopChangesNothing : Prop :=
  ∀ (s : State) (v : Word), v.toNat % 8 = 0 → exec (decodeCmd v) s = .next s ∧ exec .nop s = .next s

/-- A reserved code, idle, takes the error ILLEGAL_CMD before any other check (40_command_interface R116). -/
def Obligations.ReservedCodesAreIllegal : Prop :=
  ∀ s : State, s.ctrl = .idle →
    (∃ t, exec .reserved5 s = .next t ∧ ErrorTaken s t 0x106#32) ∧ (∃ t, exec .reserved6 s = .next t ∧ ErrorTaken s t 0x106#32) ∧
    (∃ t, exec .reserved7 s = .next t ∧ ErrorTaken s t 0x106#32)

/-- The region checks: ENCODE and DECODE check both regions for wrap, source first, then for overlap; PEEK_SIZE and IS_YAZ0 check the
source region alone (40_command_interface R113, R114). -/
def Obligations.RegionChecks : Prop :=
  ∀ s : State, s.ctrl = .idle →
    (∀ i, i = .encode ∨ i = .decode → SrcWraps s ∨ DstWraps s → ∃ t, exec i s = .next t ∧ ErrorTaken s t 0x206#32) ∧
    (∀ i, i = .encode ∨ i = .decode → ¬ SrcWraps s → ¬ DstWraps s → RegionsShare s →
      ∃ t, exec i s = .next t ∧ ErrorTaken s t 0x306#32) ∧
    (∀ i, i = .peekSize ∨ i = .isYaz0 → SrcWraps s → ∃ t, exec i s = .next t ∧ ErrorTaken s t 0x206#32) ∧
    (∀ i, i = .peekSize ∨ i = .isYaz0 → ¬ SrcWraps s → ∃ t, exec i s = .next t ∧ t.status = 0x1#32)

/-- ENCODE's own start checks, after the region checks and in this order (44_encoder R181). -/
def Obligations.EncodeStartChecks : Prop :=
  ∀ s : State, s.ctrl = .idle → RegionsFit s →
    (2 ^ 31 - 1 < s.srcLen.toNat → ∃ t, exec .encode s = .next t ∧ ErrorTaken s t 0x406#32) ∧
    (s.srcLen.toNat ≤ 2 ^ 31 - 1 → s.dstCap.toNat < 16 + s.srcLen.toNat + (s.srcLen.toNat + 7) / 8 + 1 →
      ∃ t, exec .encode s = .next t ∧ ErrorTaken s t 0x506#32)

/-- ENCODE and DECODE, idle, with regions in order and ENCODE within its limits, are accepted (40_command_interface R111;
44_encoder R181, 45_decoder R201, 10_state R32). That acceptance and the start checks are one step, and the phase, are the model's choice
(log 1). -/
def Obligations.EncodeAndDecodeAccepted : Prop :=
  ∀ s : State, s.ctrl = .idle → RegionsFit s →
    exec .decode s =
      .next { s with
        ctrl := .busy .decode, phase := .begin, status := 0x1#32, result := 0#32,
        dec := { s.dec with n := s.srcLen, cap := s.dstCap } } ∧
    (s.srcLen.toNat ≤ 2 ^ 31 - 1 → 16 + s.srcLen.toNat + (s.srcLen.toNat + 7) / 8 + 1 ≤ s.dstCap.toNat →
      exec .encode s =
        .next { s with
          ctrl := .busy .encode, phase := .begin, status := 0x1#32, result := 0#32, enc := { s.enc with n := s.srcLen } })

/-- Taking an error from any state: RESULT 0, STATUS is the cause at bits 12:8 with DONE and ERR, IDLE; memory, parameters and the
host's side stay; working registers and table are free values of one draw (60_exceptions R243, R240; log 6). -/
def Obligations.TakingAnError : Prop :=
  ∀ (s : State) (c : Cause),
    ErrorTaken s (s.raise c) (BitVec.ofNat 32 (c.code.toNat * 256 + 6)) ∧
    (s.raise c).enc = freeEnc s.draws ∧ (s.raise c).wr = freeWriter s.draws ∧ (s.raise c).dec = freeDec s.draws ∧
    (∀ h : BitVec 14, (s.raise c).htGet h = Config.freeSlot s.draws h.toNat)

/-! ### The header utilities -/

/-- IS_YAZ0, idle, with a source region that does not wrap: accepted, and after one step of the block RESULT is 1 for the magic and 0
without it, or for fewer than four bytes; nothing else has changed (46_header_utilities R232, R235). The phase is the model's own
(log 1). -/
def Obligations.IsYaz0Answers : Prop :=
  ∀ s : State, s.host = [] → s.ctrl = .idle → ¬ SrcWraps s →
    ∃ t r, exec .isYaz0 s = .next t ∧ t = { s with ctrl := .busy .isYaz0, phase := .begin, status := 0x1#32, result := 0#32 } ∧
      step t = .next { s with phase := .begin, status := 0x2#32, result := r } ∧
      (4 ≤ s.srcLen.toNat ∧ SrcMagic s → r = 1#32) ∧ (¬ (4 ≤ s.srcLen.toNat ∧ SrcMagic s) → r = 0#32)

/-- PEEK_SIZE, idle, with a source region that does not wrap: accepted, and after one step of the block RESULT is the declared size,
be it 0; or the error is SHORT_INPUT below eight bytes, else BAD_MAGIC (46_header_utilities R230, R231). The phase is the model's
own (log 1). -/
def Obligations.PeekSizeAnswers : Prop :=
  ∀ s : State, s.host = [] → s.ctrl = .idle → ¬ SrcWraps s →
    ∃ t u, exec .peekSize s = .next t ∧ t = { s with ctrl := .busy .peekSize, phase := .begin, status := 0x1#32, result := 0#32 } ∧
      step t = .next u ∧
      (8 ≤ s.srcLen.toNat → SrcMagic s →
        u = { s with phase := .begin, status := 0x2#32, result := u.result } ∧ u.result.toNat = srcSize s) ∧
      (s.srcLen.toNat < 8 → ErrorTaken s u 0x606#32) ∧ (8 ≤ s.srcLen.toNat → ¬ SrcMagic s → ErrorTaken s u 0x706#32)

/-- The three magic tests agree on a source of sixteen bytes or more (46_header_utilities R234). -/
def Obligations.MagicTestsAgree : Prop :=
  ∀ s t1 t2 t3 u1 u2 u3 : State, s.host = [] → s.ctrl = .idle → RegionsFit s → 16 ≤ s.srcLen.toNat →
    exec .isYaz0 s = .next t1 → step t1 = .next u1 → exec .peekSize s = .next t2 → step t2 = .next u2 →
    exec .decode s = .next t3 → step t3 = .next u3 →
    (u1.result = 1#32 ↔ u2.status ≠ 0x706#32) ∧ (u1.result = 1#32 ↔ u3.status ≠ 0x706#32)

/-! ### DECODE -/

/-- A legal header starts the token loop (45_decoder R202, R203). The phase is the model's own (log 1). -/
def Obligations.HeaderStartsLoop : Prop :=
  ∀ (s : State) (size : Word), s.ctrl = .busy .decode → s.phase = .begin → 16 ≤ s.dec.n.toNat → size ≠ 0#32 →
    size.toNat ≤ s.dec.cap.toNat →
    exec (.hdr size) s =
      .next { s with
        phase := .tokens,
        dec := { s.dec with size := size, pos := 16#32, written := 0#32, flag := 0#8, bits := 0#4 } }

/-- The header check's errors, in order (45_decoder R202). -/
def Obligations.HeaderErrors : Prop :=
  ∀ s : State, s.host = [] → s.ctrl = .busy .decode → s.phase = .begin → s.dec.n = s.srcLen →
    ∃ u, step s = .next u ∧
      (s.srcLen.toNat < 16 → ErrorTaken s u 0x606#32) ∧
      (16 ≤ s.srcLen.toNat → ¬ SrcMagic s → ErrorTaken s u 0x706#32) ∧
      (16 ≤ s.srcLen.toNat → SrcMagic s → srcSize s = 0 → ErrorTaken s u 0x806#32) ∧
      (16 ≤ s.srcLen.toNat → SrcMagic s → srcSize s ≠ 0 → s.dec.cap.toNat < srcSize s → ErrorTaken s u 0x906#32) ∧
      (16 ≤ s.srcLen.toNat → SrcMagic s → srcSize s ≠ 0 → srcSize s ≤ s.dec.cap.toNat → u.phase = .tokens ∧ u.dec.size.toNat = srcSize s)

/-- FLAG: the fetch of a flag byte, or TRUNC_FLAG at the end of the stream (45_decoder R204). -/
def Obligations.FlagFetch : Prop :=
  ∀ (s : State) (f : Byte), InLoop s → s.dec.bits = 0#4 →
    (s.dec.pos.toNat < s.dec.n.toNat →
      exec (.flag f) s = .next { s with dec := { s.dec with flag := f, pos := s.dec.pos + 1#32, bits := 8#4 } }) ∧
    (s.dec.n.toNat ≤ s.dec.pos.toNat → ∃ t, exec (.flag f) s = .next t ∧ ErrorTaken s t 0xA06#32)

/-- LIT: one destination byte, the cursors and flag register move on, and every other byte of memory stays; its errors, in order, are
TRUNC_LITERAL and LIT_CAP (45_decoder R206, R209). -/
def Obligations.LiteralToken : Prop :=
  ∀ (s : State) (b : Byte), AtLiteral s →
    (Memory.wf s.mem → s.dec.pos.toNat < s.dec.n.toNat → s.dec.written ≠ s.dec.cap →
      ∃ t, exec (.lit b) s = .next t ∧
        t = { s with
          mem := t.mem,
          dec := { s.dec with
            pos := s.dec.pos + 1#32, written := s.dec.written + 1#32, flag := s.dec.flag <<< 1, bits := s.dec.bits - 1#4 } } ∧
        t.dstByte s.dec.written.toNat = b ∧ ∀ a, a ≠ s.dstAddr + s.dec.written → t.memRead a = s.memRead a) ∧
    (s.dec.n.toNat ≤ s.dec.pos.toNat → ∃ t, exec (.lit b) s = .next t ∧ ErrorTaken s t 0xB06#32) ∧
    (s.dec.pos.toNat < s.dec.n.toNat → s.dec.written = s.dec.cap → ∃ t, exec (.lit b) s = .next t ∧ ErrorTaken s t 0xC06#32)

/-- What a match token of `k` bytes with distance `d` and length `n` does (45_decoder R207 to R209, R219): `n` destination bytes that
repeat the last `d`, the cursors and the flag register move on, and every other byte of memory stays. `b0`, `b1`, `b2`, `dist` and
`len` are the temporaries it leaves. -/
def Sys2Proof.Machine.MatchCopied (s t : State) (k : Nat) (b0 b1 b2 : Byte) (dist : BitVec 13) (len : BitVec 9) : Prop :=
  t = { s with
    mem := t.mem,
    dec := { s.dec with
      b0 := b0, b1 := b1, b2 := b2, dist := dist, len := len, pos := s.dec.pos + BitVec.ofNat 32 k,
      written := s.dec.written + BitVec.ofNat 32 len.toNat, flag := s.dec.flag <<< 1, bits := s.dec.bits - 1#4 } } ∧
  (∀ i, i < len.toNat →
    t.dstByte (s.dec.written.toNat + i) = s.dstByte (s.dec.written.toNat - dist.toNat + i % dist.toNat)) ∧
  ∀ a, (∀ i, i < len.toNat → a ≠ s.dstAddr + BitVec.ofNat 32 (s.dec.written.toNat + i)) → t.memRead a = s.memRead a

/-- SM: a short match copies `l + 2` bytes from `d + 1` back (45_decoder R211, R208, R219; 30_encoding R89). That it leaves the temporary
`b2` as it was, the argument `s.dec.b2`, is the model's deduction (log 17). -/
def Obligations.ShortMatchToken : Prop :=
  ∀ (s : State) (l : BitVec 4) (d : BitVec 12), wellFormed (.sm l d) = true → AtMatch s → Memory.wf s.mem →
    s.dec.pos.toNat + 2 ≤ s.dec.n.toNat → d.toNat + 1 ≤ s.dec.written.toNat → s.dec.written.toNat + (l.toNat + 2) ≤ s.dec.cap.toNat →
    s.dec.written.toNat + (l.toNat + 2) ≤ s.dec.size.toNat →
    ∃ t b0 b1 dist len, exec (.sm l d) s = .next t ∧ [b0, b1] = encode (.sm l d) ∧ dist.toNat = d.toNat + 1 ∧
      len.toNat = l.toNat + 2 ∧ MatchCopied s t 2 b0 b1 s.dec.b2 dist len

/-- LM: a long match copies `n + 18` bytes from `d + 1` back (45_decoder R212, R208, R219; 30_encoding R90). -/
def Obligations.LongMatchToken : Prop :=
  ∀ (s : State) (d : BitVec 12) (n : Byte), AtMatch s → Memory.wf s.mem → s.dec.pos.toNat + 3 ≤ s.dec.n.toNat →
    d.toNat + 1 ≤ s.dec.written.toNat → s.dec.written.toNat + (n.toNat + 18) ≤ s.dec.cap.toNat →
    s.dec.written.toNat + (n.toNat + 18) ≤ s.dec.size.toNat →
    ∃ t b0 b1 b2 dist len, exec (.lm d n) s = .next t ∧ [b0, b1, b2] = encode (.lm d n) ∧ dist.toNat = d.toNat + 1 ∧
      len.toNat = n.toNat + 18 ∧ MatchCopied s t 3 b0 b1 b2 dist len

/-- A match token's errors, in order: TRUNC_MATCH, BAD_DISTANCE, CAP_OVERRUN, SIZE_OVERRUN; none writes memory (45_decoder R207, R208,
R218). -/
def Obligations.MatchErrors : Prop :=
  ∀ (s : State) (i : Instr) (len dist : Nat), AtMatch s → wellFormed i = true → matchOperands i = some (len, dist) →
    let w := s.dec.written.toNat
    let short := s.dec.n.toNat < s.dec.pos.toNat + (encode i).length
    (short → ∃ t, exec i s = .next t ∧ ErrorTaken s t 0xD06#32) ∧
    (¬ short → w < dist → ∃ t, exec i s = .next t ∧ ErrorTaken s t 0xE06#32) ∧
    (¬ short → dist ≤ w → s.dec.cap.toNat < w + len → ∃ t, exec i s = .next t ∧ ErrorTaken s t 0xF06#32) ∧
    (¬ short → dist ≤ w → w + len ≤ s.dec.cap.toNat → s.dec.size.toNat < w + len →
      ∃ t, exec i s = .next t ∧ ErrorTaken s t 0x1006#32)

/-- The loop ends when the declared size is written, before another flag byte is fetched (45_decoder R210, 40_command_interface R117). That
the idle block's working registers and hash table keep their values after a success is the model's deduction (log 23), and the phase
`begin` its own (log 1). -/
def Obligations.DecodeCompletes : Prop :=
  ∀ s : State, s.host = [] → s.ctrl = .busy .decode → s.phase = .tokens → s.dec.written = s.dec.size →
    step s = .next { s with ctrl := .idle, phase := .begin, status := 0x2#32, result := s.dec.size }

/-- Every step keeps DECODE's promises: the cursor within the stream, `written ≤ size ≤ DST_CAP`, at most eight flag bits left
(10_state R33, R36, R42; 45_decoder R210). -/
def Obligations.DecoderKept : Prop :=
  ∀ s t : State, ParamsOk s → DecodeOk s → step s = .next t → ParamsOk t ∧ DecodeOk t

/-- LIT_CAP is never reported (60_exceptions R242). -/
def Obligations.LitCapNeverReported : Prop :=
  ∀ s t : State, DecodeOk s → s.status ≠ 0xC06#32 → step s = .next t → t.status ≠ 0xC06#32

/-- DECODE, started idle with its regions in order and left alone by the host, ends: with RESULT the declared size, or with an error;
parameters and all memory outside the destination region stay (40_command_interface R118, 45_decoder R200, R210). -/
def Obligations.DecodeEnds : Prop :=
  ∀ s : State, s.host = [] → s.ctrl = .idle → RegionsFit s →
    ∃ t k u, exec .decode s = .next t ∧ t.ctrl = .busy .decode ∧ Host.Core.run Sys2Proof.core k t = .next u ∧
      State.ctrl u = .idle ∧ SameParams s u ∧ (∀ a, ¬ InDst s a → State.memRead u a = s.memRead a) ∧
      ((State.status u = 0x2#32 ∧ (State.result u).toNat = srcSize s) ∨ ∃ c, State.status u = statusError c ∧ State.result u = 0#32)

/-! ### ENCODE -/

/-- `seq3` and `hash3`: three source bytes, the lowest offset least significant, and the high 14 bits of the 32-bit product
(41_primitives R130, R132). -/
def Obligations.HashOfThreeBytes : Prop :=
  (∀ (s : State) (p : Nat),
    (seq3 s p).toNat = (s.srcByte p).toNat ||| (s.srcByte (p + 1)).toNat <<< 8 ||| (s.srcByte (p + 2)).toNat <<< 16) ∧
  ∀ x : BitVec 24, (hash3 x).toNat = (((x.toNat * 2654435769) % 2 ^ 32) >>> 18) &&& 0x3FFF

/-- `compare_prefix`: the longest common prefix that stays below the limit (41_primitives R134). -/
def Obligations.ComparePrefix : Prop :=
  ∀ (s : State) (a b limit : Nat),
    let k := comparePrefix s a b limit
    k ≤ limit - b ∧ (∀ i, i < k → s.srcByte (a + i) = s.srcByte (b + i)) ∧
    (b + k < limit → s.srcByte (a + k) ≠ s.srcByte (b + k))

/-- ENCODE's initialisation: the header, an empty first flag byte, a clear table, the cursors at their start, all other memory
unchanged (44_encoder R182, R193; 43_flag_group_writer R160). The phase is the model's own (log 1). -/
def Obligations.EncodeInitialises : Prop :=
  ∀ s : State, Encoding s .begin → Memory.wf s.mem →
    ∃ t, step s = .next t ∧
      t = { s with
        mem := t.mem, ht := [], phase := .search, wr := ⟨17#32, 16#32, 0x80#8, 0x00#8⟩,
        enc := { s.enc with anchor := 0#32, ip := 2#32 } } ∧
      (∀ h : BitVec 14, t.htGet h = 0#32) ∧
      t.dstByte 0 = 0x59#8 ∧ t.dstByte 1 = 0x61#8 ∧ t.dstByte 2 = 0x7A#8 ∧ t.dstByte 3 = 0x30#8 ∧
      (t.dstByte 4).toNat * 2 ^ 24 + (t.dstByte 5).toNat * 2 ^ 16 + (t.dstByte 6).toNat * 2 ^ 8 + (t.dstByte 7).toNat =
        s.enc.n.toNat ∧
      (∀ k, 8 ≤ k → k ≤ 16 → t.dstByte k = 0x00#8) ∧
      ∀ a, (∀ k, k ≤ 16 → a ≠ s.dstAddr + BitVec.ofNat 32 k) → t.memRead a = s.memRead a

/-- ENCODE forgets the past (44_encoder R191, 10_state R40). First, what the table, the writer cursor, and the working registers other
than `n` held before has no effect on what initialisation leaves in memory, the table and the cursors. Then, of the whole run: of two
ENCODEs of the same input bytes, from any two states and regions, RESULT and the destination bytes below it are the same. -/
def Obligations.EncodeForgetsThePast : Prop :=
  (∀ (s t t' : State) (ht : List (Nat × BitVec 32)) (wr : WriterRegs) (e : EncRegs), Encoding s .begin → e.n = s.enc.n →
    step s = .next t → step { s with ht := ht, wr := wr, enc := e } = .next t' →
    t'.mem = t.mem ∧ t'.ht = t.ht ∧ t'.wr = t.wr ∧ t'.enc.n = t.enc.n ∧ t'.enc.ip = t.enc.ip ∧ t'.enc.anchor = t.enc.anchor) ∧
  ∀ (s t u s' t' u' : State) (k k' : Nat), EncodeReady s → EncodeReady s' → s'.srcLen = s.srcLen →
    (∀ i, i < s.srcLen.toNat → s'.srcByte i = s.srcByte i) →
    exec .encode s = .next t → Host.Core.run Sys2Proof.core k t = .next u → State.ctrl u = .idle →
    exec .encode s' = .next t' → Host.Core.run Sys2Proof.core k' t' = .next u' → State.ctrl u' = .idle →
    State.result u' = State.result u ∧ ∀ i, i < (State.result u).toNat → State.dstByte u' i = State.dstByte u i

/-- One probe: the bucket of the three bytes at `ip` is read and then holds `ip`, no other slot changes, and the candidate is accepted
exactly when its distance is in 1..4096 and its three bytes agree; otherwise `ip` moves on by one. Memory, `anchor` and the writer stay
(42_match_finder R140 to R143). The phase is the model's own (log 1). -/
def Obligations.ProbeStep : Prop :=
  ∀ s : State, Encoding s .search → HashTable.wf s.ht → s.enc.ip.toNat + 13 < s.enc.n.toNat →
    let ip := s.enc.ip.toNat
    let h := hash3 (seq3 s ip)
    let ref := (s.htGet h).toNat
    let good := ref < ip ∧ ip - ref ≤ 4096 ∧ seq3 s ref = seq3 s ip
    ∃ t, step s = .next t ∧
      t = { s with
        ht := t.ht, phase := t.phase,
        enc := { s.enc with ip := t.enc.ip, ref := s.htGet h, distance := t.enc.distance } } ∧
      t.htGet h = s.enc.ip ∧ (∀ g, g ≠ h → t.htGet g = s.htGet g) ∧ t.enc.distance.toInt = (ip : Int) - (ref : Int) ∧
      (good → t.phase = .accepted ∧ t.enc.ip = s.enc.ip) ∧ (¬ good → t.phase = .search ∧ t.enc.ip.toNat = ip + 1)

/-- An accepted match is at least three bytes long, ends four bytes before the input's end at the latest, and its bytes agree with the
candidate's throughout (42_match_finder R145). -/
def Obligations.MatchesAgree : Prop :=
  ∀ s : State, mayProbe s = true → accepts s s.enc.ref.toNat s.enc.ip.toNat = true →
    3 ≤ matchLength s ∧ s.enc.ip.toNat + matchLength s ≤ s.enc.n.toNat - 4 ∧
    ∀ i, i < matchLength s → s.srcByte (s.enc.ref.toNat + i) = s.srcByte (s.enc.ip.toNat + i)

/-- OpenGroup (43_flag_group_writer R160). -/
def Obligations.GroupOpens : Prop :=
  ∀ s : State, Memory.wf s.mem →
    openGroup s = { s with mem := (openGroup s).mem, wr := ⟨s.wr.op + 1#32, s.wr.op, 0x80#8, 0x00#8⟩ } ∧
    ∀ a, (openGroup s).memRead a = if a = s.dstAddr + s.wr.op then 0x00#8 else s.memRead a

/-- The LIT token: FLAGV gets the flag bit, in the register and in the flag byte, the byte goes to `op`, and a group whose last bit this
was is followed at once by a fresh flag byte; nothing else changes, so the byte after `op` does only in a full group
(43_flag_group_writer R161, R160). -/
def Obligations.LiteralEmission : Prop :=
  ∀ (s : State) (b : Byte), Memory.wf s.mem → s.wr.fp.toNat < s.wr.op.toNat → s.wr.op.toNat + 2 < 2 ^ 32 →
    let t := emitLiteral s b
    let op := s.wr.op.toNat
    let full := s.wr.mask >>> 1 = 0#8
    t = { s with mem := t.mem, wr := t.wr } ∧
    t.dstByte s.wr.fp.toNat = s.wr.flagv ||| s.wr.mask ∧ t.dstByte op = b ∧
    (¬ full → t.wr = ⟨s.wr.op + 1#32, s.wr.fp, s.wr.mask >>> 1, s.wr.flagv ||| s.wr.mask⟩) ∧
    (full → t.wr = ⟨s.wr.op + 2#32, s.wr.op + 1#32, 0x80#8, 0x00#8⟩ ∧ t.dstByte (op + 1) = 0x00#8) ∧
    ∀ a, a ≠ s.dstAddr + s.wr.fp → a ≠ s.dstAddr + s.wr.op → (full → a ≠ s.dstAddr + (s.wr.op + 1#32)) →
      t.memRead a = s.memRead a

/-- The SM and LM tokens: their bytes go to `op`, FLAGV keeps the flag bit 0, and the mask moves on, opening a group if it was the last;
nothing else changes, so the byte after theirs does only in a full group (43_flag_group_writer R163, R164, R160). -/
def Obligations.MatchEmission : Prop :=
  ∀ (s : State) (len dist : Nat), Memory.wf s.mem → s.wr.op.toNat + 4 < 2 ^ 32 → 3 ≤ len → len ≤ 273 → 1 ≤ dist → dist ≤ 4096 →
    let t := emitMatchToken s len dist
    let op := s.wr.op.toNat
    let D := dist - 1
    let bytes : List Byte :=
      if len ≤ 17 then [BitVec.ofNat 8 (((len - 2) <<< 4) ||| (D >>> 8)), BitVec.ofNat 8 (D &&& 0xFF)]
      else [BitVec.ofNat 8 ((D >>> 8) &&& 0x0F), BitVec.ofNat 8 (D &&& 0xFF), BitVec.ofNat 8 (len - 18)]
    let k := bytes.length
    let full := s.wr.mask >>> 1 = 0#8
    t = { s with mem := t.mem, wr := t.wr } ∧
    (∀ j, j < k → some (t.dstByte (op + j)) = bytes[j]?) ∧
    (¬ full → t.wr = ⟨s.wr.op + BitVec.ofNat 32 k, s.wr.fp, s.wr.mask >>> 1, s.wr.flagv⟩) ∧
    (full → t.wr = ⟨s.wr.op + BitVec.ofNat 32 (k + 1), s.wr.op + BitVec.ofNat 32 k, 0x80#8, 0x00#8⟩ ∧ t.dstByte (op + k) = 0x00#8) ∧
    ∀ a, (∀ j, j < k → a ≠ s.dstAddr + BitVec.ofNat 32 (op + j)) → (full → a ≠ s.dstAddr + BitVec.ofNat 32 (op + k)) →
      t.memRead a = s.memRead a

/-- The tokens of a match, by its length: 273s, and a tail that is split as 271 and the rest when 274 or 275 are left
(43_flag_group_writer R165, R167). -/
def Obligations.MatchSplitting : Prop :=
  ∀ (s : State) (q r dist : Nat), 3 ≤ r → r ≤ 275 →
    emitMatch s (273 * q + r) dist = emitTokens s dist (List.replicate q 273 ++ if r ≤ 273 then [r] else [271, r - 271])

/-- The match step: the literals before the match and the match go to the writer, `ip` and `anchor` move past the match, the two
positions there go into the table in order, `len` is the match's length, and no other slot and no other field changes
(44_encoder R184; 42_match_finder R144). The phase is the model's own (log 1). -/
def Obligations.MatchStep : Prop :=
  ∀ s : State, Encoding s .accepted → ParamsOk s → StoresOk s → EncodeOk s →
    let ip := s.enc.ip.toNat
    let anchor := s.enc.anchor.toNat
    let p := ip + matchLength s
    ∃ t, step s = .next t ∧
      t = { emitMatch (emitLiterals s anchor (ip - anchor)) (matchLength s) (ip - s.enc.ref.toNat) with
        enc := { s.enc with len := BitVec.ofNat 32 (matchLength s), ip := t.enc.ip, anchor := t.enc.anchor },
        phase := .search, ht := t.ht } ∧
      t.enc.len.toNat = matchLength s ∧
      t.enc.ip.toNat = p ∧ t.enc.anchor.toNat = p ∧ (t.htGet (hashAt s (p + 1))).toNat = p + 1 ∧
      (hashAt s p ≠ hashAt s (p + 1) → (t.htGet (hashAt s p)).toNat = p) ∧
      ∀ h, h ≠ hashAt s p → h ≠ hashAt s (p + 1) → t.htGet h = s.htGet h

/-- The end of ENCODE: when no probe is left, every byte from `anchor` on becomes a literal, and RESULT is the output position
(44_encoder R186, R187; 40_command_interface R117). That all those literals are one step is the model's choice (log 1), as is the phase.
That the idle block's working registers and hash table keep their values after a success is its deduction (log 23). -/
def Obligations.EncodeTail : Prop :=
  ∀ s : State,
    (Encoding s .search → s.enc.n.toNat ≤ s.enc.ip.toNat + 13 →
      step s = .next { emitLiterals s s.enc.anchor.toNat (s.enc.n.toNat - s.enc.anchor.toNat) with phase := .flushed }) ∧
    (Encoding s .flushed →
      step s = .next { s with ctrl := .idle, phase := .begin, status := 0x2#32, result := s.wr.op })

/-- Every step keeps ENCODE's promises: a one-bit mask, unused flag bits 0, FLAGV in the destination, the header in place, the cursors
in order, and the output within the bound (10_state R34, R37, R38; 44_encoder R189, R193). -/
def Obligations.EncoderKept : Prop :=
  ∀ s t : State, ParamsOk s → StoresOk s → EncodeOk s → step s = .next t → EncodeOk t

/-- Between the block's steps the mask of a running ENCODE is one flag bit, and the output is within the bound and the capacity
(10_state R37, 44_encoder R189). -/
def Obligations.MaskAndBound : Prop :=
  ∀ s : State, ParamsOk s → EncodeOk s → s.ctrl = .busy .encode → s.phase ≠ .begin →
    MaskOk s.wr.mask ∧ s.wr.op.toNat ≤ 16 + s.srcLen.toNat + (s.srcLen.toNat + 7) / 8 + 1 ∧ s.wr.op.toNat ≤ s.dstCap.toNat

/-- ENCODE, started idle within its limits and left alone by the host, ends without an error: RESULT is within the bound, the
destination starts with the header of the input's length, and the parameters and every byte of memory but the first RESULT of the
destination stay: none at offset RESULT or above is written (40_command_interface R118; 44_encoder R187, R189, R190, R191, R193). -/
def Obligations.EncodeEnds : Prop :=
  ∀ s : State, s.host = [] → s.ctrl = .idle → StoresOk s → RegionsFit s → s.srcLen.toNat ≤ 2 ^ 31 - 1 →
    16 + s.srcLen.toNat + (s.srcLen.toNat + 7) / 8 + 1 ≤ s.dstCap.toNat →
    ∃ t k u, exec .encode s = .next t ∧ t.ctrl = .busy .encode ∧ Host.Core.run Sys2Proof.core k t = .next u ∧
      State.ctrl u = .idle ∧ State.status u = 0x2#32 ∧ SameParams s u ∧
      17 ≤ (State.result u).toNat ∧ (State.result u).toNat ≤ 16 + s.srcLen.toNat + (s.srcLen.toNat + 7) / 8 + 1 ∧
      HeaderOk u s.srcLen ∧
      ∀ a, (∀ k, k < (State.result u).toNat → a ≠ s.dstAddr + BitVec.ofNat 32 k) → State.memRead u a = s.memRead a

/-- The round trip: what ENCODE made of a source of at least one byte, taken as DECODE's source, gives the source's bytes back, and
RESULT is their number; of an empty source, DECODE raises ZERO_SIZE (44_encoder R192). `s` runs ENCODE until idle at `u`; `v` is any
idle state whose source bytes are the `RESULT` bytes ENCODE left, with room for the input. -/
def Obligations.RoundTrip : Prop :=
  ∀ (s t u v : State) (k : Nat), s.host = [] → s.ctrl = .idle → StoresOk s → RegionsFit s → s.srcLen.toNat ≤ 2 ^ 31 - 1 →
    16 + s.srcLen.toNat + (s.srcLen.toNat + 7) / 8 + 1 ≤ s.dstCap.toNat →
    exec .encode s = .next t → Host.Core.run Sys2Proof.core k t = .next u → State.ctrl u = .idle →
    v.host = [] → v.ctrl = .idle → StoresOk v → RegionsFit v → v.srcLen = State.result u →
    (∀ i, i < (State.result u).toNat → v.srcByte i = State.dstByte u i) → s.srcLen.toNat ≤ v.dstCap.toNat →
    ∃ t' m w, exec .decode v = .next t' ∧ Host.Core.run Sys2Proof.core m t' = .next w ∧ State.ctrl w = .idle ∧
      (1 ≤ s.srcLen.toNat →
        State.status w = 0x2#32 ∧ State.result w = s.srcLen ∧ ∀ i, i < s.srcLen.toNat → State.dstByte w i = s.srcByte i) ∧
      (s.srcLen = 0#32 → State.status w = 0x806#32 ∧ State.result w = 0#32)
end

