-- ==== Sys2Proof/Laws/Bits.lean ====
section
/-! SUPPORT. The numbers behind the bit fields of 30_encoding and 41_primitives: what each concatenation and each field is as a
number. -/

namespace Sys2Proof

/-- Appending bits is adding in base `2^n`. -/
theorem append_toNat {m n : Nat} (x : BitVec m) (y : BitVec n) : (x ++ y).toNat = x.toNat * 2 ^ n + y.toNat := by
  rw [BitVec.toNat_append, ← Nat.shiftLeft_add_eq_or_of_lt y.isLt, Nat.shiftLeft_eq]

/-- A field is division and remainder. -/
theorem field_toNat {w : Nat} (lo k : Nat) (x : BitVec w) : (x.extractLsb' lo k).toNat = x.toNat / 2 ^ lo % 2 ^ k := by
  rw [BitVec.extractLsb'_toNat, Nat.shiftRight_eq_div_pow]

theorem highNibble_toNat (b0 : Byte) : (highNibble b0).toNat = b0.toNat / 16 := by
  have := b0.isLt
  rw [highNibble, field_toNat]; omega

theorem distField_toNat (b0 b1 : Byte) : (distField b0 b1).toNat = b0.toNat % 16 * 256 + b1.toNat :=
  (append_toNat _ _).trans (by rw [field_toNat]; omega)

/-- The first byte of a match code (30_encoding R89, R90). -/
theorem matchByte0_toNat (l : BitVec 4) (d : BitVec 12) : (l ++ d.extractLsb' 8 4 : Byte).toNat = l.toNat * 16 + d.toNat / 256 :=
  (append_toNat _ _).trans (by have := d.isLt; rw [field_toNat]; omega)

/-- The second byte of a match code (30_encoding R89, R90). -/
theorem matchByte1_toNat (d : BitVec 12) : (d.extractLsb' 0 8).toNat = d.toNat % 256 := by
  rw [field_toNat]; omega

/-- A 32-bit word from four bytes, most significant first (30_encoding R83). -/
theorem word_toNat (b3 b2 b1 b0 : Byte) :
    (b3 ++ b2 ++ b1 ++ b0 : Word).toNat = b3.toNat * 2 ^ 24 + b2.toNat * 2 ^ 16 + b1.toNat * 2 ^ 8 + b0.toNat := by
  refine (append_toNat _ _).trans ?_
  rw [append_toNat, append_toNat]; omega

/-- Three bytes, least significant first (41_primitives R130). -/
theorem le24_toNat (b0 b1 b2 : Byte) : (Machine.le24 b0 b1 b2).toNat = b0.toNat + b1.toNat * 2 ^ 8 + b2.toNat * 2 ^ 16 := by
  refine (append_toNat _ _).trans ?_
  rw [append_toNat]; omega

/-- The high 14 bits of a 32-bit product with a 24-bit factor. -/
theorem product_toNat (x : BitVec 24) (m : Word) :
    ((x.setWidth 32 * m).extractLsb' 18 14).toNat = x.toNat * m.toNat % 2 ^ 32 / 2 ^ 18 := by
  have := x.isLt
  rw [field_toNat, BitVec.toNat_mul, BitVec.toNat_setWidth, Nat.mod_eq_of_lt (by omega : x.toNat < 2 ^ 32)]
  omega

theorem hashMult_toNat : Config.hashMult.toNat = 2654435769 := rfl

/-- The hash; the multiplier stays behind `Config.hashMult`, as arithmetic on so large a literal is slow to check
(41_primitives R132). -/
theorem hash3_toNat (x : BitVec 24) : (Machine.hash3 x).toNat = x.toNat * Config.hashMult.toNat % 2 ^ 32 / 2 ^ 18 :=
  product_toNat x _

/-- A short match's length (30_encoding R91). -/
theorem shortLength_toNat (l : BitVec 4) : (Machine.shortLength l).toNat = l.toNat + 2 := by
  have := l.isLt
  simp only [Machine.shortLength, BitVec.toNat_add, BitVec.toNat_setWidth, BitVec.toNat_ofNat]; omega

/-- A long match's length (30_encoding R91). -/
theorem longLength_toNat (n : Byte) : (Machine.longLength n).toNat = n.toNat + 18 := by
  have := n.isLt
  simp only [Machine.longLength, BitVec.toNat_add, BitVec.toNat_setWidth, BitVec.toNat_ofNat]; omega

/-- A match's distance (30_encoding R91). -/
theorem matchDistance_toNat (d : BitVec 12) : (Machine.matchDistance d).toNat = d.toNat + 1 := by
  have := d.isLt
  simp only [Machine.matchDistance, BitVec.toNat_add, BitVec.toNat_setWidth, BitVec.toNat_ofNat]; omega

end Sys2Proof
end

