-- ==== Sys2Proof/Laws/State.lean ====
section
/-! SUPPORT. What each shared operation over State leaves in each field, one lemma a field, so that no proof unfolds a record update. -/

namespace Sys2Proof.Machine

section memWrite

variable (s : State) (a : Word) (v : Byte)

@[simp] theorem State.memWrite_srcAddr : (s.memWrite a v).srcAddr = s.srcAddr := rfl
@[simp] theorem State.memWrite_srcLen : (s.memWrite a v).srcLen = s.srcLen := rfl
@[simp] theorem State.memWrite_dstAddr : (s.memWrite a v).dstAddr = s.dstAddr := rfl
@[simp] theorem State.memWrite_dstCap : (s.memWrite a v).dstCap = s.dstCap := rfl
@[simp] theorem State.memWrite_status : (s.memWrite a v).status = s.status := rfl
@[simp] theorem State.memWrite_result : (s.memWrite a v).result = s.result := rfl
@[simp] theorem State.memWrite_ctrl : (s.memWrite a v).ctrl = s.ctrl := rfl
@[simp] theorem State.memWrite_phase : (s.memWrite a v).phase = s.phase := rfl
@[simp] theorem State.memWrite_enc : (s.memWrite a v).enc = s.enc := rfl
@[simp] theorem State.memWrite_wr : (s.memWrite a v).wr = s.wr := rfl
@[simp] theorem State.memWrite_dec : (s.memWrite a v).dec = s.dec := rfl
@[simp] theorem State.memWrite_ht : (s.memWrite a v).ht = s.ht := rfl
@[simp] theorem State.memWrite_mem : (s.memWrite a v).mem = Store.set s.mem a.toNat v := rfl
@[simp] theorem State.memWrite_host : (s.memWrite a v).host = s.host := rfl
@[simp] theorem State.memWrite_portData : (s.memWrite a v).portData = s.portData := rfl
@[simp] theorem State.memWrite_memData : (s.memWrite a v).memData = s.memData := rfl
@[simp] theorem State.memWrite_draws : (s.memWrite a v).draws = s.draws := rfl

end memWrite

section dstPut

variable (s : State) (j : Nat) (v : Byte)

@[simp] theorem State.dstPut_srcAddr : (s.dstPut j v).srcAddr = s.srcAddr := rfl
@[simp] theorem State.dstPut_srcLen : (s.dstPut j v).srcLen = s.srcLen := rfl
@[simp] theorem State.dstPut_dstAddr : (s.dstPut j v).dstAddr = s.dstAddr := rfl
@[simp] theorem State.dstPut_dstCap : (s.dstPut j v).dstCap = s.dstCap := rfl
@[simp] theorem State.dstPut_status : (s.dstPut j v).status = s.status := rfl
@[simp] theorem State.dstPut_result : (s.dstPut j v).result = s.result := rfl
@[simp] theorem State.dstPut_ctrl : (s.dstPut j v).ctrl = s.ctrl := rfl
@[simp] theorem State.dstPut_phase : (s.dstPut j v).phase = s.phase := rfl
@[simp] theorem State.dstPut_enc : (s.dstPut j v).enc = s.enc := rfl
@[simp] theorem State.dstPut_wr : (s.dstPut j v).wr = s.wr := rfl
@[simp] theorem State.dstPut_dec : (s.dstPut j v).dec = s.dec := rfl
@[simp] theorem State.dstPut_ht : (s.dstPut j v).ht = s.ht := rfl
@[simp] theorem State.dstPut_mem : (s.dstPut j v).mem = Store.set s.mem (s.dstAt j).toNat v := rfl
@[simp] theorem State.dstPut_host : (s.dstPut j v).host = s.host := rfl
@[simp] theorem State.dstPut_portData : (s.dstPut j v).portData = s.portData := rfl
@[simp] theorem State.dstPut_memData : (s.dstPut j v).memData = s.memData := rfl
@[simp] theorem State.dstPut_draws : (s.dstPut j v).draws = s.draws := rfl

end dstPut

section htPut

variable (s : State) (h : BitVec 14) (v : BitVec 32)

@[simp] theorem State.htPut_srcAddr : (s.htPut h v).srcAddr = s.srcAddr := rfl
@[simp] theorem State.htPut_srcLen : (s.htPut h v).srcLen = s.srcLen := rfl
@[simp] theorem State.htPut_dstAddr : (s.htPut h v).dstAddr = s.dstAddr := rfl
@[simp] theorem State.htPut_dstCap : (s.htPut h v).dstCap = s.dstCap := rfl
@[simp] theorem State.htPut_status : (s.htPut h v).status = s.status := rfl
@[simp] theorem State.htPut_result : (s.htPut h v).result = s.result := rfl
@[simp] theorem State.htPut_ctrl : (s.htPut h v).ctrl = s.ctrl := rfl
@[simp] theorem State.htPut_phase : (s.htPut h v).phase = s.phase := rfl
@[simp] theorem State.htPut_enc : (s.htPut h v).enc = s.enc := rfl
@[simp] theorem State.htPut_wr : (s.htPut h v).wr = s.wr := rfl
@[simp] theorem State.htPut_dec : (s.htPut h v).dec = s.dec := rfl
@[simp] theorem State.htPut_ht : (s.htPut h v).ht = Store.set s.ht h.toNat v := rfl
@[simp] theorem State.htPut_mem : (s.htPut h v).mem = s.mem := rfl
@[simp] theorem State.htPut_host : (s.htPut h v).host = s.host := rfl
@[simp] theorem State.htPut_portData : (s.htPut h v).portData = s.portData := rfl
@[simp] theorem State.htPut_memData : (s.htPut h v).memData = s.memData := rfl
@[simp] theorem State.htPut_draws : (s.htPut h v).draws = s.draws := rfl

end htPut

section freeWork

variable (s : State)

@[simp] theorem State.freeWork_srcAddr : (s.freeWork).srcAddr = s.srcAddr := rfl
@[simp] theorem State.freeWork_srcLen : (s.freeWork).srcLen = s.srcLen := rfl
@[simp] theorem State.freeWork_dstAddr : (s.freeWork).dstAddr = s.dstAddr := rfl
@[simp] theorem State.freeWork_dstCap : (s.freeWork).dstCap = s.dstCap := rfl
@[simp] theorem State.freeWork_status : (s.freeWork).status = s.status := rfl
@[simp] theorem State.freeWork_result : (s.freeWork).result = s.result := rfl
@[simp] theorem State.freeWork_ctrl : (s.freeWork).ctrl = s.ctrl := rfl
@[simp] theorem State.freeWork_phase : (s.freeWork).phase = s.phase := rfl
@[simp] theorem State.freeWork_enc : (s.freeWork).enc = freeEnc s.draws := rfl
@[simp] theorem State.freeWork_wr : (s.freeWork).wr = freeWriter s.draws := rfl
@[simp] theorem State.freeWork_dec : (s.freeWork).dec = freeDec s.draws := rfl
@[simp] theorem State.freeWork_ht : (s.freeWork).ht = freeTable s.draws := rfl
@[simp] theorem State.freeWork_mem : (s.freeWork).mem = s.mem := rfl
@[simp] theorem State.freeWork_host : (s.freeWork).host = s.host := rfl
@[simp] theorem State.freeWork_portData : (s.freeWork).portData = s.portData := rfl
@[simp] theorem State.freeWork_memData : (s.freeWork).memData = s.memData := rfl
@[simp] theorem State.freeWork_draws : (s.freeWork).draws = s.draws + 1 := rfl

end freeWork

section raise

variable (s : State) (c : Cause)

@[simp] theorem State.raise_srcAddr : (s.raise c).srcAddr = s.srcAddr := rfl
@[simp] theorem State.raise_srcLen : (s.raise c).srcLen = s.srcLen := rfl
@[simp] theorem State.raise_dstAddr : (s.raise c).dstAddr = s.dstAddr := rfl
@[simp] theorem State.raise_dstCap : (s.raise c).dstCap = s.dstCap := rfl
@[simp] theorem State.raise_status : (s.raise c).status = statusError c := rfl
@[simp] theorem State.raise_result : (s.raise c).result = 0#32 := rfl
@[simp] theorem State.raise_ctrl : (s.raise c).ctrl = .idle := rfl
@[simp] theorem State.raise_phase : (s.raise c).phase = .begin := rfl
@[simp] theorem State.raise_enc : (s.raise c).enc = freeEnc s.draws := rfl
@[simp] theorem State.raise_wr : (s.raise c).wr = freeWriter s.draws := rfl
@[simp] theorem State.raise_dec : (s.raise c).dec = freeDec s.draws := rfl
@[simp] theorem State.raise_ht : (s.raise c).ht = freeTable s.draws := rfl
@[simp] theorem State.raise_mem : (s.raise c).mem = s.mem := rfl
@[simp] theorem State.raise_host : (s.raise c).host = s.host := rfl
@[simp] theorem State.raise_portData : (s.raise c).portData = s.portData := rfl
@[simp] theorem State.raise_memData : (s.raise c).memData = s.memData := rfl
@[simp] theorem State.raise_draws : (s.raise c).draws = s.draws + 1 := rfl

end raise

section complete

variable (s : State) (r : Word)

@[simp] theorem State.complete_srcAddr : (s.complete r).srcAddr = s.srcAddr := rfl
@[simp] theorem State.complete_srcLen : (s.complete r).srcLen = s.srcLen := rfl
@[simp] theorem State.complete_dstAddr : (s.complete r).dstAddr = s.dstAddr := rfl
@[simp] theorem State.complete_dstCap : (s.complete r).dstCap = s.dstCap := rfl
@[simp] theorem State.complete_status : (s.complete r).status = statusDoneOk := rfl
@[simp] theorem State.complete_result : (s.complete r).result = r := rfl
@[simp] theorem State.complete_ctrl : (s.complete r).ctrl = .idle := rfl
@[simp] theorem State.complete_phase : (s.complete r).phase = .begin := rfl
@[simp] theorem State.complete_enc : (s.complete r).enc = s.enc := rfl
@[simp] theorem State.complete_wr : (s.complete r).wr = s.wr := rfl
@[simp] theorem State.complete_dec : (s.complete r).dec = s.dec := rfl
@[simp] theorem State.complete_ht : (s.complete r).ht = s.ht := rfl
@[simp] theorem State.complete_mem : (s.complete r).mem = s.mem := rfl
@[simp] theorem State.complete_host : (s.complete r).host = s.host := rfl
@[simp] theorem State.complete_portData : (s.complete r).portData = s.portData := rfl
@[simp] theorem State.complete_memData : (s.complete r).memData = s.memData := rfl
@[simp] theorem State.complete_draws : (s.complete r).draws = s.draws := rfl

end complete

section accept

variable (s : State) (op : Op)

@[simp] theorem State.accept_srcAddr : (s.accept op).srcAddr = s.srcAddr := rfl
@[simp] theorem State.accept_srcLen : (s.accept op).srcLen = s.srcLen := rfl
@[simp] theorem State.accept_dstAddr : (s.accept op).dstAddr = s.dstAddr := rfl
@[simp] theorem State.accept_dstCap : (s.accept op).dstCap = s.dstCap := rfl
@[simp] theorem State.accept_status : (s.accept op).status = statusRunning := rfl
@[simp] theorem State.accept_result : (s.accept op).result = 0#32 := rfl
@[simp] theorem State.accept_ctrl : (s.accept op).ctrl = .busy op := rfl
@[simp] theorem State.accept_phase : (s.accept op).phase = .begin := rfl
@[simp] theorem State.accept_enc : (s.accept op).enc = (if op = .encode then { s.enc with n := s.srcLen } else s.enc) := rfl
@[simp] theorem State.accept_wr : (s.accept op).wr = s.wr := rfl
@[simp] theorem State.accept_dec : (s.accept op).dec = (if op = .decode then { s.dec with n := s.srcLen, cap := s.dstCap } else s.dec) := rfl
@[simp] theorem State.accept_ht : (s.accept op).ht = s.ht := rfl
@[simp] theorem State.accept_mem : (s.accept op).mem = s.mem := rfl
@[simp] theorem State.accept_host : (s.accept op).host = s.host := rfl
@[simp] theorem State.accept_portData : (s.accept op).portData = s.portData := rfl
@[simp] theorem State.accept_memData : (s.accept op).memData = s.memData := rfl
@[simp] theorem State.accept_draws : (s.accept op).draws = s.draws := rfl

end accept

section withHost

variable (s : State) (q : List HostAction) (v : Word)

@[simp] theorem State.withHost_srcAddr : (s.withHost q v).srcAddr = s.srcAddr := rfl
@[simp] theorem State.withHost_srcLen : (s.withHost q v).srcLen = s.srcLen := rfl
@[simp] theorem State.withHost_dstAddr : (s.withHost q v).dstAddr = s.dstAddr := rfl
@[simp] theorem State.withHost_dstCap : (s.withHost q v).dstCap = s.dstCap := rfl
@[simp] theorem State.withHost_status : (s.withHost q v).status = s.status := rfl
@[simp] theorem State.withHost_result : (s.withHost q v).result = s.result := rfl
@[simp] theorem State.withHost_ctrl : (s.withHost q v).ctrl = s.ctrl := rfl
@[simp] theorem State.withHost_phase : (s.withHost q v).phase = s.phase := rfl
@[simp] theorem State.withHost_enc : (s.withHost q v).enc = s.enc := rfl
@[simp] theorem State.withHost_wr : (s.withHost q v).wr = s.wr := rfl
@[simp] theorem State.withHost_dec : (s.withHost q v).dec = s.dec := rfl
@[simp] theorem State.withHost_ht : (s.withHost q v).ht = s.ht := rfl
@[simp] theorem State.withHost_mem : (s.withHost q v).mem = s.mem := rfl
@[simp] theorem State.withHost_host : (s.withHost q v).host = q := rfl
@[simp] theorem State.withHost_portData : (s.withHost q v).portData = v := rfl
@[simp] theorem State.withHost_memData : (s.withHost q v).memData = s.memData := rfl
@[simp] theorem State.withHost_draws : (s.withHost q v).draws = s.draws := rfl

end withHost

section nextFlagBit

variable (s : State)

@[simp] theorem nextFlagBit_srcAddr : (nextFlagBit s).srcAddr = s.srcAddr := rfl
@[simp] theorem nextFlagBit_srcLen : (nextFlagBit s).srcLen = s.srcLen := rfl
@[simp] theorem nextFlagBit_dstAddr : (nextFlagBit s).dstAddr = s.dstAddr := rfl
@[simp] theorem nextFlagBit_dstCap : (nextFlagBit s).dstCap = s.dstCap := rfl
@[simp] theorem nextFlagBit_status : (nextFlagBit s).status = s.status := rfl
@[simp] theorem nextFlagBit_result : (nextFlagBit s).result = s.result := rfl
@[simp] theorem nextFlagBit_ctrl : (nextFlagBit s).ctrl = s.ctrl := rfl
@[simp] theorem nextFlagBit_phase : (nextFlagBit s).phase = s.phase := rfl
@[simp] theorem nextFlagBit_enc : (nextFlagBit s).enc = s.enc := rfl
@[simp] theorem nextFlagBit_wr : (nextFlagBit s).wr = s.wr := rfl
@[simp] theorem nextFlagBit_dec : (nextFlagBit s).dec = { s.dec with flag := shiftFlag s.dec.flag, bits := s.dec.bits - 1#4 } := rfl
@[simp] theorem nextFlagBit_ht : (nextFlagBit s).ht = s.ht := rfl
@[simp] theorem nextFlagBit_mem : (nextFlagBit s).mem = s.mem := rfl
@[simp] theorem nextFlagBit_host : (nextFlagBit s).host = s.host := rfl
@[simp] theorem nextFlagBit_portData : (nextFlagBit s).portData = s.portData := rfl
@[simp] theorem nextFlagBit_memData : (nextFlagBit s).memData = s.memData := rfl
@[simp] theorem nextFlagBit_draws : (nextFlagBit s).draws = s.draws := rfl

end nextFlagBit

end Sys2Proof.Machine
end

