-- ==== Sys2Proof/Laws/Store.lean ====
section
/-! SUPPORT. The sparse stores: reading after writing, and the canonical form kept by every operation. -/

namespace Sys2Proof.Machine

section Store

variable {w : Nat}

@[simp] theorem Store.get_nil (a : Nat) : Store.get ([] : List (Nat × BitVec w)) a = 0#w := rfl

theorem Store.get_eq_unlisted {m : List (Nat × BitVec w)} {a : Nat} (h : ∀ c ∈ m, c.1 ≠ a) : Store.get m a = 0#w := by
  induction m with
  | nil => rfl
  | cons c t ih => simp_all [Store.get]

/-- Writing a key leaves every other key as it was, in any list. -/
theorem Store.get_set_ne (m : List (Nat × BitVec w)) {a b : Nat} (v : BitVec w) (h : a ≠ b) :
    Store.get (Store.set m a v) b = Store.get m b := by
  induction m with
  | nil => simp only [Store.set]; split <;> simp [Store.get, h, Store.unlisted]
  | cons c t ih =>
    obtain ⟨k, x⟩ := c
    simp only [Store.set]
    split
    · split <;> simp [Store.get, h]
    · split
      · rename_i hk; subst hk
        split <;> simp [Store.get, h]
      · simp [Store.get, ih]

/-- A written key reads as what was written. -/
theorem Store.get_set_self {n : Nat} {m : List (Nat × BitVec w)} (hm : Store.wf n m) (a : Nat) (v : BitVec w) :
    Store.get (Store.set m a v) a = v := by
  obtain ⟨hp, -⟩ := hm
  induction m with
  | nil => simp only [Store.set]; split <;> simp_all [Store.get, Store.unlisted]
  | cons c t ih =>
    obtain ⟨k, x⟩ := c
    rw [List.pairwise_cons] at hp
    simp only [Store.set]
    split
    · rename_i hak
      split
      · rename_i hv
        rw [hv]
        refine Store.get_eq_unlisted fun c hc => ?_
        rcases List.mem_cons.mp hc with rfl | hc
        · simp; omega
        · have := hp.1 c hc; simp at this; omega
      · simp [Store.get]
    · split
      · rename_i hk; subst hk
        split
        · rename_i hv
          rw [hv]
          exact Store.get_eq_unlisted fun c hc => by have := hp.1 c hc; simp at this; omega
        · simp [Store.get]
      · rename_i hk
        simp only [Store.get, Ne.symm hk, ↓reduceIte]
        exact ih hp.2

theorem Store.mem_set {m : List (Nat × BitVec w)} {a : Nat} {v : BitVec w} {c : Nat × BitVec w}
    (h : c ∈ Store.set m a v) : c ∈ m ∨ (c = (a, v) ∧ v ≠ Store.unlisted) := by
  induction m with
  | nil => simp only [Store.set] at h; split at h <;> simp_all
  | cons d t ih =>
    obtain ⟨k, x⟩ := d
    simp only [Store.set] at h
    split at h
    · split at h
      · exact .inl h
      · rcases List.mem_cons.mp h with rfl | h
        · exact .inr ⟨rfl, by assumption⟩
        · exact .inl h
    · split at h
      · split at h
        · exact .inl (List.mem_cons_of_mem _ h)
        · rcases List.mem_cons.mp h with rfl | h
          · exact .inr ⟨rfl, by assumption⟩
          · exact .inl (List.mem_cons_of_mem _ h)
      · rcases List.mem_cons.mp h with rfl | h
        · exact .inl (List.mem_cons_self ..)
        · exact (ih h).imp (List.mem_cons_of_mem _) id

/-- Writing a key below the bound keeps the canonical form. -/
theorem Store.set_wf {n : Nat} {m : List (Nat × BitVec w)} (hm : Store.wf n m) {a : Nat} (ha : a < n) (v : BitVec w) :
    Store.wf n (Store.set m a v) := by
  obtain ⟨hp, hb⟩ := hm
  refine ⟨?_, fun c hc => ?_⟩
  · clear hb
    induction m with
    | nil => simp only [Store.set]; split <;> simp
    | cons d t ih =>
      obtain ⟨k, x⟩ := d
      have hp' := List.pairwise_cons.mp hp
      simp only [Store.set]
      split
      · rename_i hak
        split
        · exact hp
        · refine List.pairwise_cons.mpr ⟨fun c hc => ?_, hp⟩
          rcases List.mem_cons.mp hc with rfl | hc
          · exact hak
          · have := hp'.1 c hc; simp at this ⊢; omega
      · split
        · rename_i hk; subst hk
          split
          · exact hp'.2
          · exact List.pairwise_cons.mpr hp'
        · refine List.pairwise_cons.mpr ⟨fun c hc => ?_, ih hp'.2⟩
          rcases Store.mem_set hc with hc | ⟨rfl, -⟩
          · exact hp'.1 c hc
          · simp; omega
  · rcases Store.mem_set hc with hc | ⟨rfl, hv⟩
    · exact hb c hc
    · exact ⟨ha, hv⟩

theorem Store.nil_wf (n : Nat) : Store.wf n ([] : List (Nat × BitVec w)) := by simp [Store.wf]

theorem Store.ofFn_wf (n : Nat) (f : Nat → BitVec w) : Store.wf n (Store.ofFn n f) := by
  refine ⟨?_, fun c hc => ?_⟩
  · refine List.Pairwise.filterMap _ (S := fun c d : Nat × BitVec w => c.1 < d.1) (R := (· < ·)) ?_ List.pairwise_lt_range
    intro a b hab c hc d hd
    split at hc <;> split at hd <;> simp_all
    subst hc hd; exact hab
  · simp only [Store.ofFn, List.mem_filterMap, List.mem_range] at hc
    obtain ⟨k, hk, hc⟩ := hc
    split at hc
    · cases hc
    · cases hc; exact ⟨hk, by assumption⟩

end Store

theorem freeTable_wf (d : Nat) : HashTable.wf (freeTable d) := by
  unfold freeTable; exact Store.ofFn_wf _ _

end Sys2Proof.Machine
end

