-- ==== Sys2Proof/Laws/Memory.lean ====
section
/-! SUPPORT. The memory port: which address an offset is, what a byte reads as after a write, and what a write leaves alone. -/

namespace Sys2Proof.Machine

section Memory

variable (s : State)

@[simp] theorem State.memRead_memWrite_self (hm : Memory.wf s.mem) (a : Word) (v : Byte) : (s.memWrite a v).memRead a = v :=
  Store.get_set_self hm _ _

theorem State.memRead_memWrite_ne {a b : Word} (v : Byte) (h : a ≠ b) : (s.memWrite a v).memRead b = s.memRead b :=
  Store.get_set_ne _ _ fun e => h (BitVec.eq_of_toNat_eq e)

theorem State.memWrite_wf {s : State} (hm : Memory.wf s.mem) (a : Word) (v : Byte) : Memory.wf (s.memWrite a v).mem :=
  Store.set_wf hm a.isLt v

theorem State.dstPut_wf {s : State} (hm : Memory.wf s.mem) (j : Nat) (v : Byte) : Memory.wf (s.dstPut j v).mem :=
  State.memWrite_wf hm _ _

/-- Distinct 32-bit offsets are distinct addresses. -/
theorem offset_inj (base : Word) {i j : Nat} (hi : i < 2 ^ 32) (hj : j < 2 ^ 32)
    (h : base + BitVec.ofNat 32 i = base + BitVec.ofNat 32 j) : i = j := by
  have h' := (BitVec.add_right_inj base).mp h
  have := congrArg BitVec.toNat h'
  simp only [BitVec.toNat_ofNat] at this
  omega

/-- The address of an offset inside a region that does not wrap. -/
theorem offset_toNat (base : Word) {i : Nat} (h : base.toNat + i < 2 ^ 32) : (base + BitVec.ofNat 32 i).toNat = base.toNat + i := by
  simp only [BitVec.toNat_add, BitVec.toNat_ofNat]; omega

theorem State.memRead_dstPut_ne {a : Word} {j : Nat} (v : Byte) (h : s.dstAt j ≠ a) : (s.dstPut j v).memRead a = s.memRead a :=
  s.memRead_memWrite_ne v h

@[simp] theorem State.dstAt_dstPut (j i : Nat) (v : Byte) : (s.dstPut j v).dstAt i = s.dstAt i := rfl

@[simp] theorem State.srcAt_dstPut (j i : Nat) (v : Byte) : (s.dstPut j v).srcAt i = s.srcAt i := rfl

theorem State.dstByte_dstPut_self {s : State} (hm : Memory.wf s.mem) (j : Nat) (v : Byte) : (s.dstPut j v).dstByte j = v :=
  s.memRead_memWrite_self hm _ _

theorem State.dstByte_dstPut_ne {i j : Nat} (v : Byte) (hi : i < 2 ^ 32) (hj : j < 2 ^ 32) (h : i ≠ j) :
    (s.dstPut j v).dstByte i = s.dstByte i :=
  s.memRead_dstPut_ne v fun e => h (offset_inj _ hj hi e).symm

/-- A run of destination writes changes memory and nothing else. -/
theorem State.dstPuts_frame (s : State) (j : Nat) (bs : List Byte) : s.dstPuts j bs = { s with mem := (s.dstPuts j bs).mem } := by
  induction bs generalizing s j with
  | nil => rfl
  | cons b t ih => rw [State.dstPuts, ih]; rfl

theorem State.dstPuts_wf {s : State} (hm : Memory.wf s.mem) (j : Nat) (bs : List Byte) : Memory.wf (s.dstPuts j bs).mem := by
  induction bs generalizing s j with
  | nil => exact hm
  | cons b t ih => exact ih (State.dstPut_wf hm j b) _

theorem State.dstPuts_dstAt (s : State) (j i : Nat) (bs : List Byte) : (s.dstPuts j bs).dstAt i = s.dstAt i := by
  rw [State.dstPuts_frame]; rfl

/-- A run of destination writes leaves every address alone that is none of its own. -/
theorem State.memRead_dstPuts_ne (s : State) (j : Nat) (bs : List Byte) {a : Word} (h : ∀ k, k < bs.length → s.dstAt (j + k) ≠ a) :
    (s.dstPuts j bs).memRead a = s.memRead a := by
  induction bs generalizing s j with
  | nil => rfl
  | cons b t ih =>
    rw [State.dstPuts, ih, State.memRead_dstPut_ne]
    · simpa using h 0 (by simp)
    · intro k hk
      have := h (k + 1) (by simp; omega)
      rwa [Nat.add_comm k 1, ← Nat.add_assoc] at this

theorem State.dstByte_dstPuts_ne (s : State) (j : Nat) (bs : List Byte) {i : Nat} (hi : i < 2 ^ 32) (hj : j + bs.length ≤ 2 ^ 32)
    (h : i < j ∨ j + bs.length ≤ i) : (s.dstPuts j bs).dstByte i = s.dstByte i := by
  unfold State.dstByte
  rw [State.dstPuts_dstAt]
  refine State.memRead_dstPuts_ne s j bs fun k hk e => ?_
  have := offset_inj _ (by omega) hi e
  omega

/-- The bytes of a run of destination writes read back. -/
theorem State.dstByte_dstPuts {s : State} (hm : Memory.wf s.mem) (j : Nat) (bs : List Byte) (hj : j + bs.length ≤ 2 ^ 32) {k : Nat}
    (hk : k < bs.length) : (s.dstPuts j bs).dstByte (j + k) = bs.getD k 0#8 := by
  induction bs generalizing s j k with
  | nil => simp at hk
  | cons b t ih =>
    simp only [List.length_cons] at hj hk
    rw [State.dstPuts]
    cases k with
    | zero =>
      rw [State.dstByte_dstPuts_ne _ _ _ (by omega) (by omega) (by omega)]
      simpa using State.dstByte_dstPut_self hm j b
    | succ k =>
      rw [show j + (k + 1) = j + 1 + k by omega, ih (State.dstPut_wf hm j b) _ (by omega) (by omega)]
      simp

@[simp] theorem State.srcBytes_length (i k : Nat) : (s.srcBytes i k).length = k := by
  induction k generalizing i with
  | zero => rfl
  | succ k ih => simp [State.srcBytes, ih]

theorem State.freeDst_wf {s : State} (hm : Memory.wf s.mem) (d k : Nat) : Memory.wf (s.freeDst d k).mem := by
  induction k with
  | zero => exact hm
  | succ k ih => exact State.dstPut_wf ih _ _

theorem State.abortDst_wf {s : State} (hm : Memory.wf s.mem) : Memory.wf s.abortDst.mem := by
  unfold State.abortDst
  split
  · split
    · exact State.freeDst_wf hm _ _
    · exact hm
  · exact hm

theorem State.memPuts_wf {s : State} (hm : Memory.wf s.mem) (a : Word) (bs : List Byte) : Memory.wf (s.memPuts a bs).mem := by
  induction bs generalizing s a with
  | nil => exact hm
  | cons b t ih => exact ih (State.memWrite_wf hm a b) _

theorem State.reset_mem_wf : Memory.wf State.reset.mem := Store.nil_wf _

end Memory

/-! ### The regions of a running command -/

/-- The start checks of a command that uses both regions, in numbers (40_command_interface R113, R114). -/
theorem startCheck_regions {s : State} {op : Op} (hu : op.usesDst = true) (h : startCheck op s = none) :
    s.srcAddr.toNat + s.srcLen.toNat ≤ 2 ^ 32 ∧ s.dstAddr.toNat + s.dstCap.toNat ≤ 2 ^ 32 ∧
    ∀ a, InSrc s a → ¬ InDst s a := by
  unfold startCheck at h
  split at h; · cases h
  split at h; · cases h
  split at h; · cases h
  split at h; · cases h
  rename_i h1 h2 h3
  simp only [hu, regionWraps, regionsOverlap, Bool.true_and, decide_eq_true_eq] at h1 h2 h3
  simp only [Config.addrSpace] at h1 h2
  refine ⟨by omega, by omega, fun a ha hb => ?_⟩
  unfold InSrc at ha; unfold InDst at hb
  omega

/-- ENCODE's start checks, in numbers (44_encoder R181). -/
theorem startCheck_encode {s : State} (h : startCheck .encode s = none) :
    s.srcLen.toNat < 2 ^ 31 ∧ Config.bound s.srcLen.toNat ≤ s.dstCap.toNat := by
  unfold startCheck at h
  split at h; · cases h
  split at h; · cases h
  split at h; · cases h
  split at h; · cases h
  simp only [↓reduceIte, encodeCheck] at h
  split at h; · cases h
  split at h; · cases h
  simp_all only [Config.maxInLen]
  omega

end Sys2Proof.Machine
end

