-- ==== Sys2Proof/Laws/Decoder.lean ====
section
/-! SUPPORT. The back-reference copy: what it changes, and which byte each written byte repeats (45_decoder R208). -/

namespace Sys2Proof.Machine

/-- A copy changes memory and `written`, and nothing else. -/
theorem copyBytes_frame (s : State) (dist len : Nat) :
    copyBytes s dist len =
      { s with
        mem := (copyBytes s dist len).mem, dec := { s.dec with written := s.dec.written + BitVec.ofNat 32 len } } := by
  induction len generalizing s with
  | zero => simp [copyBytes]
  | succ k ih =>
    rw [copyBytes, ih]
    simp only [copyByte, State.dstPut, State.memWrite, State.mk.injEq, DecRegs.mk.injEq, true_and, and_true]
    apply BitVec.eq_of_toNat_eq
    simp only [BitVec.toNat_add, BitVec.toNat_ofNat]
    omega

theorem copyBytes_wf {s : State} (hm : Memory.wf s.mem) (dist len : Nat) : Memory.wf (copyBytes s dist len).mem := by
  induction len generalizing s with
  | zero => exact hm
  | succ k ih => exact ih (State.dstPut_wf hm _ _)

theorem copyBytes_dstAt (s : State) (dist len j : Nat) : (copyBytes s dist len).dstAt j = s.dstAt j := by
  rw [copyBytes_frame]; rfl

theorem copyByte_written {s : State} (h : s.dec.written.toNat + 1 < 2 ^ 32) (dist : Nat) :
    (copyByte s dist).dec.written.toNat = s.dec.written.toNat + 1 := by
  simp only [copyByte, BitVec.toNat_add, BitVec.toNat_ofNat]; omega

/-- A copy writes only the offsets from `written` on. -/
theorem copyBytes_outside (s : State) (dist len : Nat) {a : Word} (hw : s.dec.written.toNat + len < 2 ^ 32)
    (h : ∀ k, k < len → s.dstAt (s.dec.written.toNat + k) ≠ a) : (copyBytes s dist len).memRead a = s.memRead a := by
  induction len generalizing s with
  | zero => rfl
  | succ k ih =>
    have h1 := copyByte_written (s := s) (by omega) dist
    rw [copyBytes, ih (copyByte s dist) (by omega)]
    · exact State.memRead_dstPut_ne s _ (by simpa using h 0 (by omega))
    · intro j hj
      rw [h1, Nat.add_assoc]
      exact h (1 + j) (by omega)

theorem copyBytes_below (s : State) (dist len : Nat) {j : Nat} (hw : s.dec.written.toNat + len < 2 ^ 32)
    (h : j < s.dec.written.toNat) : (copyBytes s dist len).dstByte j = s.dstByte j := by
  unfold State.dstByte
  rw [copyBytes_dstAt]
  exact copyBytes_outside s dist len hw fun k hk he => by have := offset_inj _ (by omega) (by omega) he; omega

/-- Each copied byte equals the byte `dist` before it, as the copy leaves it (45_decoder R208, 20_memory R68). -/
theorem copyBytes_repeats {s : State} (hm : Memory.wf s.mem) {dist len : Nat} (hd : 1 ≤ dist) (hdw : dist ≤ s.dec.written.toNat)
    (hw : s.dec.written.toNat + len < 2 ^ 32) {j : Nat} (hj : s.dec.written.toNat ≤ j) (hj' : j < s.dec.written.toNat + len) :
    (copyBytes s dist len).dstByte j = (copyBytes s dist len).dstByte (j - dist) := by
  induction len generalizing s with
  | zero => omega
  | succ k ih =>
    have h1 := copyByte_written (s := s) (by omega) dist
    rw [copyBytes]
    by_cases he : j = s.dec.written.toNat
    · subst he
      rw [copyBytes_below _ _ _ (by omega) (by omega), copyBytes_below _ _ _ (by omega) (by omega)]
      have h2 : (copyByte s dist).dstByte s.dec.written.toNat = s.dstByte (s.dec.written.toNat - dist) :=
        State.dstByte_dstPut_self hm _ _
      have h3 : (copyByte s dist).dstByte (s.dec.written.toNat - dist) = s.dstByte (s.dec.written.toNat - dist) :=
        State.dstByte_dstPut_ne s _ (by omega) (by omega) (by omega)
      rw [h2, h3]
    · exact ih (s := copyByte s dist) (State.dstPut_wf hm _ _) (by omega) (by omega) (by omega) (by omega)

end Sys2Proof.Machine
end

