-- ==== Sys2Proof/Laws/Writer.lean ====
section
/-! SUPPORT. The flag-group writer: every operation changes memory and the writer cursor only, keeps the writer's promises, and writes
nowhere but above the header and below where `op` then stands (43_flag_group_writer). -/

namespace Sys2Proof.Machine

/-- What emitting tokens does: `t` is `s` with `e` input bytes in tokens so far, `op` has not gone back, and only offsets from 16 below
`op` have been written since. -/
structure Emitted (s t : State) (e : Nat) : Prop where
  frame : t = { s with mem := t.mem, wr := t.wr }
  wf : Memory.wf t.mem
  ok : WriterOk t e
  grows : s.wr.op.toNat ≤ t.wr.op.toNat
  outside : ∀ a, (∀ k, 16 ≤ k → k < t.wr.op.toNat → s.dstAt k ≠ a) → t.memRead a = s.memRead a

section frames

variable {s t u : State} {e e' : Nat}

theorem Emitted.refl (hm : Memory.wf s.mem) (h : WriterOk s e) : Emitted s s e := ⟨rfl, hm, h, Nat.le_refl _, fun _ _ => rfl⟩

theorem Emitted.dstAt (h : Emitted s t e) (k : Nat) : t.dstAt k = s.dstAt k := by rw [h.frame]; rfl

theorem Emitted.srcAt (h : Emitted s t e) (k : Nat) : t.srcAt k = s.srcAt k := by rw [h.frame]; rfl

theorem Emitted.trans (h : Emitted s t e) (h' : Emitted t u e') : Emitted s u e' where
  frame := by rw [h'.frame, h.frame]
  wf := h'.wf
  ok := h'.ok
  grows := Nat.le_trans h.grows h'.grows
  outside a ha := by
    have := h'.grows
    rw [h'.outside a fun k h1 h2 => by rw [h.dstAt]; exact ha k h1 h2, h.outside a fun k h1 h2 => ha k h1 (by omega)]

/-- The output position is within the bound for the input bytes in tokens so far (44_encoder R189). -/
theorem Emitted.op_le (h : Emitted s t e) : t.wr.op.toNat ≤ 17 + e + e / 8 := by
  obtain ⟨t0, ht, -, hop⟩ := h.ok.1
  omega

/-- Emitting leaves the first sixteen destination bytes, the header, alone. -/
theorem Emitted.header (h : Emitted s t e) {k : Nat} (hk : k < 16) : t.dstByte k = s.dstByte k := by
  unfold State.dstByte
  rw [h.dstAt]
  exact h.outside _ fun j h1 h2 he => by
    have := t.wr.op.isLt
    have := offset_inj _ (by omega) (by omega) he
    omega

end frames

/-! ### The mask and FLAGV -/

theorem mask_next (t : Nat) :
    (t % 8 = 7 ∧ nextMask (firstMask >>> (t % 8)) = 0#8 ∧ (t + 1) % 8 = 0) ∨
    (t % 8 ≠ 7 ∧ nextMask (firstMask >>> (t % 8)) ≠ 0#8 ∧ nextMask (firstMask >>> (t % 8)) = firstMask >>> ((t + 1) % 8)) := by
  have h : t % 8 = 0 ∨ t % 8 = 1 ∨ t % 8 = 2 ∨ t % 8 = 3 ∨ t % 8 = 4 ∨ t % 8 = 5 ∨ t % 8 = 6 ∨ t % 8 = 7 := by omega
  rcases h with h | h | h | h | h | h | h | h <;> rw [h] <;>
    first
    | exact .inl ⟨rfl, by decide, by omega⟩
    | exact .inr ⟨by decide, by decide, by rw [show (t + 1) % 8 = t % 8 + 1 by omega, h]; decide⟩

theorem maskOk_of_shift (t : Nat) : MaskOk (firstMask >>> (t % 8)) := by
  have h : t % 8 = 0 ∨ t % 8 = 1 ∨ t % 8 = 2 ∨ t % 8 = 3 ∨ t % 8 = 4 ∨ t % 8 = 5 ∨ t % 8 = 6 ∨ t % 8 = 7 := by omega
  rcases h with h | h | h | h | h | h | h | h <;> rw [h] <;> unfold MaskOk firstMask <;> decide

/-- Setting the current flag bit leaves the bits below it 0. -/
theorem unused_after_literal (t : Nat) (f : Byte) (h : f &&& (firstMask >>> (t % 8) ||| (firstMask >>> (t % 8) - 1#8)) = 0#8)
    (h7 : t % 8 ≠ 7) :
    (f ||| firstMask >>> (t % 8)) &&& (nextMask (firstMask >>> (t % 8)) ||| (nextMask (firstMask >>> (t % 8)) - 1#8)) = 0#8 := by
  have hk : ∀ k, k < 7 → ∀ g : Byte, g &&& (firstMask >>> k ||| (firstMask >>> k - 1#8)) = 0#8 →
      (g ||| firstMask >>> k) &&& (nextMask (firstMask >>> k) ||| (nextMask (firstMask >>> k) - 1#8)) = 0#8 := by decide
  exact hk _ (by omega) f h

/-- Leaving the current flag bit 0 leaves the bits below it 0. -/
theorem unused_after_match (t : Nat) (f : Byte) (h : f &&& (firstMask >>> (t % 8) ||| (firstMask >>> (t % 8) - 1#8)) = 0#8)
    (h7 : t % 8 ≠ 7) :
    f &&& (nextMask (firstMask >>> (t % 8)) ||| (nextMask (firstMask >>> (t % 8)) - 1#8)) = 0#8 := by
  have hk : ∀ k, k < 7 → ∀ g : Byte, g &&& (firstMask >>> k ||| (firstMask >>> k - 1#8)) = 0#8 →
      g &&& (nextMask (firstMask >>> k) ||| (nextMask (firstMask >>> k) - 1#8)) = 0#8 := by decide
  exact hk _ (by omega) f h

/-! ### One token -/

/-- A token's state just before its mask moves on: its bytes are written, and its flag bit is settled. -/
structure TokenPut (s t : State) (e t0 : Nat) : Prop where
  frame : t = { s with mem := t.mem, wr := t.wr }
  wf : Memory.wf t.mem
  tokens : t0 < e
  mask : t.wr.mask = firstMask >>> (t0 % 8)
  op : t.wr.op.toNat ≤ 17 + e + t0 / 8
  unused : t0 % 8 ≠ 7 → t.wr.flagv &&& (nextMask t.wr.mask ||| (nextMask t.wr.mask - 1#8)) = 0#8
  fp : 16 ≤ t.wr.fp.toNat ∧ t.wr.fp.toNat < t.wr.op.toNat
  flag : t.dstByte t.wr.fp.toNat = t.wr.flagv
  grows : s.wr.op.toNat ≤ t.wr.op.toNat
  outside : ∀ a, (∀ k, 16 ≤ k → k < t.wr.op.toNat → s.dstAt k ≠ a) → t.memRead a = s.memRead a

theorem openGroup_wf {s : State} (hm : Memory.wf s.mem) : Memory.wf (openGroup s).mem := State.dstPut_wf hm _ _

/-- After any token the mask moves on, opening a group when the last is full (43_flag_group_writer R160). -/
theorem advanceMask_emitted {s t : State} {e t0 : Nat} (h : TokenPut s t e t0) (he : 18 + e + e / 8 < 2 ^ 32) :
    Emitted s (advanceMask t) e := by
  have h0 := h.op
  have h1 := h.tokens
  have h2 := h.fp
  have h3 := h.grows
  rcases mask_next t0 with ⟨h7, hz, hm0⟩ | ⟨h7, hz, hm0⟩
  · have hz' : nextMask t.wr.mask = 0#8 := by rw [h.mask]; exact hz
    have hA : advanceMask t = openGroup { t with wr := { t.wr with mask := nextMask t.wr.mask } } := by
      simp only [advanceMask, hz', ↓reduceIte]
    have hop : (t.wr.op + 1#32).toNat = t.wr.op.toNat + 1 := by
      simp only [BitVec.toNat_add, BitVec.toNat_ofNat]; omega
    rw [hA]
    refine ⟨?_, State.dstPut_wf (s := { t with wr := { t.wr with mask := nextMask t.wr.mask } }) h.wf _ _,
      ⟨⟨t0 + 1, by omega, ?_, ?_⟩, ?_, ?_, ?_, ?_⟩, ?_, ?_⟩
    · rw [openGroup, State.dstPut, State.memWrite, h.frame]
    · simp [openGroup, hm0, firstMask]
    · simp only [openGroup, hop]; omega
    · simp [UnusedFlagsZero, openGroup]
    · simp only [openGroup]; omega
    · simp only [openGroup, hop]; omega
    · exact State.dstByte_dstPut_self (s := { t with wr := { t.wr with mask := nextMask t.wr.mask } }) h.wf _ _
    · simp only [openGroup, hop]; omega
    · intro a ha
      simp only [openGroup, hop] at ha
      refine (State.memRead_dstPut_ne { t with wr := { t.wr with mask := nextMask t.wr.mask } } _ ?_).trans
        (h.outside a fun k h4 h5 => ha k h4 (by omega))
      have := ha t.wr.op.toNat (by omega) (by omega)
      have hd : t.dstAt t.wr.op.toNat = s.dstAt t.wr.op.toNat := by rw [h.frame]; rfl
      exact fun hh => this (hd ▸ hh)
  · have hz' : nextMask t.wr.mask ≠ 0#8 := by rw [h.mask]; exact hz
    have hA : advanceMask t = { t with wr := { t.wr with mask := nextMask t.wr.mask } } := by
      simp only [advanceMask, hz', ↓reduceIte]
    rw [hA]
    refine ⟨by rw [h.frame], h.wf, ⟨⟨t0 + 1, by omega, ?_, ?_⟩, ?_, h2.1, h2.2, h.flag⟩, h3, h.outside⟩
    · simp only [h.mask, hm0]
    · simp only; omega
    · exact h.unused h7

/-- Writing a token's bytes, when its flag bit is already settled. -/
theorem putToken_tokenPut {s u : State} {e c t0 : Nat} {i : Instr} (hL : (encode i).length ≤ c) (hc : 1 ≤ c) (ht : t0 ≤ e)
    (hframe : u = { s with mem := u.mem, wr := u.wr }) (hwf : Memory.wf u.mem)
    (hmask : u.wr.mask = firstMask >>> (t0 % 8)) (hop : u.wr.op.toNat ≤ 17 + e + t0 / 8)
    (hun : t0 % 8 ≠ 7 → u.wr.flagv &&& (nextMask u.wr.mask ||| (nextMask u.wr.mask - 1#8)) = 0#8)
    (hfp : 16 ≤ u.wr.fp.toNat ∧ u.wr.fp.toNat < u.wr.op.toNat) (hflag : u.dstByte u.wr.fp.toNat = u.wr.flagv)
    (hgrow : s.wr.op.toNat ≤ u.wr.op.toNat)
    (hout : ∀ a, (∀ k, 16 ≤ k → k < u.wr.op.toNat → s.dstAt k ≠ a) → u.memRead a = s.memRead a)
    (he : 18 + (e + c) + (e + c) / 8 < 2 ^ 32) : TokenPut s (putToken u i) (e + c) t0 := by
  have hop' : (u.wr.op + BitVec.ofNat 32 (encode i).length).toNat = u.wr.op.toNat + (encode i).length := by
    simp only [BitVec.toNat_add, BitVec.toNat_ofNat]; omega
  have hd : ∀ k, u.dstAt k = s.dstAt k := fun k => by rw [hframe]; rfl
  refine ⟨?_, State.dstPuts_wf hwf _ _, by omega, hmask, ?_, hun, ⟨hfp.1, ?_⟩, ?_, ?_, ?_⟩
  · rw [putToken, State.dstPuts_frame, hframe]
  · simp only [putToken, hop']; omega
  · simp only [putToken, hop']; omega
  · refine (State.dstByte_dstPuts_ne u _ _ (by omega) (by omega) (.inl hfp.2)).trans hflag
  · simp only [putToken, hop']; omega
  · intro a ha
    simp only [putToken, hop'] at ha
    refine (State.memRead_dstPuts_ne u _ _ fun k hk => ?_).trans (hout a fun k h1 h2 => ha k h1 (by omega))
    rw [hd]
    exact ha _ (by omega) (by omega)

/-- A literal token covers one input byte (43_flag_group_writer R161). -/
theorem emitLiteral_emitted {s : State} {e : Nat} (hm : Memory.wf s.mem) (h : WriterOk s e) (b : Byte)
    (he : 18 + (e + 1) + (e + 1) / 8 < 2 ^ 32) : Emitted s (emitLiteral s b) (e + 1) := by
  obtain ⟨⟨t0, ht, hmask, hop⟩, hun, hfp1, hfp2, hflag⟩ := h
  refine advanceMask_emitted (t0 := t0) (putToken_tokenPut (c := 1) (i := .lit b) (by simp [encode]) (by omega) ht ?_ ?_ ?_ ?_ ?_ ?_ ?_
    (Nat.le_refl _) ?_ he) he
  · rfl
  · exact State.dstPut_wf hm _ _
  · exact hmask
  · exact hop
  · intro h7
    simp only [markLiteral, hmask]
    exact unused_after_literal t0 _ (by rw [← hmask]; exact hun) h7
  · exact ⟨hfp1, hfp2⟩
  · exact State.dstByte_dstPut_self hm _ _
  · intro a ha
    exact State.memRead_dstPut_ne s _ (ha _ hfp1 hfp2)

/-- The bytes of a match token: two or three (30_encoding R89, R90). -/
theorem encode_matchInstr_length (len dist : Nat) : (encode (matchInstr len dist)).length ≤ 3 := by
  unfold matchInstr; split <;> simp [encode]

/-- A match token covers its length, at least three input bytes (43_flag_group_writer R163, R164, R168). -/
theorem emitMatchToken_emitted {s : State} {e : Nat} (hm : Memory.wf s.mem) (h : WriterOk s e) {len : Nat} (dist : Nat) (hl : 3 ≤ len)
    (he : 18 + (e + len) + (e + len) / 8 < 2 ^ 32) : Emitted s (emitMatchToken s len dist) (e + len) := by
  obtain ⟨⟨t0, ht, hmask, hop⟩, hun, hfp1, hfp2, hflag⟩ := h
  have := encode_matchInstr_length len dist
  refine advanceMask_emitted (t0 := t0)
    (putToken_tokenPut (c := len) (i := matchInstr len dist) (by omega) (by omega) ht rfl hm hmask hop ?_ ⟨hfp1, hfp2⟩ hflag
      (Nat.le_refl _) (fun _ _ => rfl) he) he
  intro h7
  rw [hmask]
  exact unused_after_match t0 _ (by rw [← hmask]; exact hun) h7

/-! ### Runs of tokens -/

/-- A run of literals covers as many input bytes (43_flag_group_writer R162). -/
theorem emitLiterals_emitted {s : State} {e : Nat} (hm : Memory.wf s.mem) (h : WriterOk s e) (src k : Nat)
    (he : 18 + (e + k) + (e + k) / 8 < 2 ^ 32) : Emitted s (emitLiterals s src k) (e + k) := by
  induction k generalizing s e src with
  | zero => exact .refl hm h
  | succ k ih =>
    have h1 := emitLiteral_emitted hm h (s.srcByte src) (by omega)
    have h2 := ih h1.wf h1.ok (src + 1) (by omega)
    rw [Nat.add_assoc, Nat.add_comm 1] at h2
    exact h1.trans h2

theorem emitTokens_emitted {s : State} {e : Nat} (hm : Memory.wf s.mem) (h : WriterOk s e) (dist : Nat) (l : List Nat)
    (hl : ∀ n ∈ l, 3 ≤ n) (he : 18 + (e + l.sum) + (e + l.sum) / 8 < 2 ^ 32) : Emitted s (emitTokens s dist l) (e + l.sum) := by
  induction l generalizing s e with
  | nil => exact .refl hm h
  | cons n t ih =>
    simp only [List.sum_cons] at he ⊢
    have h1 := emitMatchToken_emitted hm h dist (hl n (by simp)) (by omega)
    have h2 := ih h1.wf h1.ok (fun m hm => hl m (by simp [hm])) (by omega)
    rw [Nat.add_assoc] at h2
    exact h1.trans h2

/-- The chunks of a match: they add up to it, and each has a token (43_flag_group_writer R165, R167). -/
theorem chunks_spec {len fuel : Nat} (h3 : 3 ≤ len) (hf : len ≤ fuel) :
    (chunks len fuel).sum = len ∧ ∀ c ∈ chunks len fuel, 3 ≤ c ∧ c ≤ 273 := by
  induction fuel generalizing len with
  | zero => omega
  | succ f ih =>
    unfold chunks chunkOf Config.splitChunk Config.splitAlt
    split
    · split
      · have := ih (len := len - 271) (by omega) (by omega)
        refine ⟨by rw [List.sum_cons, this.1]; omega, fun c hc => ?_⟩
        rcases List.mem_cons.mp hc with rfl | hc
        · omega
        · exact this.2 c hc
      · have := ih (len := len - 273) (by omega) (by omega)
        refine ⟨by rw [List.sum_cons, this.1]; omega, fun c hc => ?_⟩
        rcases List.mem_cons.mp hc with rfl | hc
        · omega
        · exact this.2 c hc
    · simp; omega

/-- A match covers its length, however it is split (43_flag_group_writer R165). -/
theorem emitMatch_emitted {s : State} {e : Nat} (hm : Memory.wf s.mem) (h : WriterOk s e) {len : Nat} (dist : Nat) (hl : 3 ≤ len)
    (he : 18 + (e + len) + (e + len) / 8 < 2 ^ 32) : Emitted s (emitMatch s len dist) (e + len) := by
  obtain ⟨hs, hc⟩ := chunks_spec hl (Nat.le_refl len)
  have := emitTokens_emitted hm h dist (chunks len len) (fun n hn => (hc n hn).1) (by rw [hs]; exact he)
  rwa [hs] at this

end Sys2Proof.Machine
end

