-- ==== Sys2Proof/Laws/Encoder.lean ====
section
/-! SUPPORT. ENCODE's steps: what each changes, and that each keeps the writer's promises and the header (42_match_finder,
44_encoder). -/

namespace Sys2Proof.Machine

/-! ### The match finder -/

theorem commonPrefix_le (s : State) (a b fuel : Nat) : commonPrefix s a b fuel ≤ fuel := by
  induction fuel generalizing a b with
  | zero => exact Nat.le_refl 0
  | succ f ih =>
    simp only [commonPrefix]
    split
    · have := ih (a + 1) (b + 1); omega
    · omega

/-- The extension stops before the limit (41_primitives R134). -/
theorem comparePrefix_le (s : State) (a b limit : Nat) : comparePrefix s a b limit ≤ limit - b := commonPrefix_le ..

theorem mayProbe_iff (s : State) : mayProbe s = true ↔ s.enc.ip.toNat + 13 < s.enc.n.toNat := by
  unfold mayProbe Config.limitTail; exact decide_eq_true_iff

/-- A match is at least three bytes long and leaves the last four input bytes alone (42_match_finder R145). -/
theorem matchLength_bounds {s : State} (h : mayProbe s = true) :
    3 ≤ matchLength s ∧ s.enc.ip.toNat + matchLength s ≤ s.enc.n.toNat - 4 := by
  rw [mayProbe_iff] at h
  have := comparePrefix_le s (s.enc.ref.toNat + 3) (s.enc.ip.toNat + 3) (s.enc.n.toNat - Config.boundTail)
  unfold matchLength
  simp only [Config.boundTail] at this ⊢
  omega

/-- A probe changes the hash table, the working registers and the phase, and nothing else (42_match_finder R140 to R142). -/
theorem probe_frame (s : State) : probe s = { s with ht := (probe s).ht, enc := (probe s).enc, phase := (probe s).phase } := by
  unfold probe; dsimp only; split <;> rfl

/-- The two outcomes of a probe (42_match_finder R142, R143). -/
theorem probe_cases (s : State) :
    ((probe s).phase = .accepted ∧ (probe s).enc.ip = s.enc.ip ∧ accepts s (probe s).enc.ref.toNat s.enc.ip.toNat = true) ∨
    ((probe s).phase = s.phase ∧ (probe s).enc.ip = s.enc.ip + 1#32) := by
  unfold probe; dsimp only
  split
  · exact .inl ⟨rfl, rfl, by assumption⟩
  · exact .inr ⟨rfl, rfl⟩

@[simp] theorem probe_anchor (s : State) : (probe s).enc.anchor = s.enc.anchor := by
  unfold probe; dsimp only; split <;> rfl

@[simp] theorem probe_n (s : State) : (probe s).enc.n = s.enc.n := by
  unfold probe; dsimp only; split <;> rfl

/-- The probed bucket holds the probed position afterwards (42_match_finder R140). -/
theorem probe_ht (s : State) : (probe s).ht = Store.set s.ht (hashAt s s.enc.ip.toNat).toNat s.enc.ip := by
  unfold probe; dsimp only; split <;> rfl

theorem htPut_wf {s : State} (h : HashTable.wf s.ht) (i : BitVec 14) (v : BitVec 32) : HashTable.wf (s.htPut i v).ht :=
  Store.set_wf h (by have := i.isLt; unfold Config.htSize; omega) v

theorem probe_ht_wf {s : State} (h : HashTable.wf s.ht) : HashTable.wf (probe s).ht := by
  rw [probe_ht]
  exact Store.set_wf h (by have := (hashAt s s.enc.ip.toNat).isLt; unfold Config.htSize; omega) _

/-! ### The match step and the tail flush -/

theorem insertPair_frame (s : State) (p : Nat) : insertPair s p = { s with ht := (insertPair s p).ht } := rfl

theorem insertPair_ht_wf {s : State} (h : HashTable.wf s.ht) (p : Nat) : HashTable.wf (insertPair s p).ht :=
  htPut_wf (s := s.htPut _ _) (htPut_wf h _ _) _ _

/-- The tokens of a match step, between ENCODE's state before it and the state its registers and insertions are added to. -/
theorem matchStep_tokens {s : State} {e : Nat} (hm : Memory.wf s.mem) (hw : WriterOk s e) (he : e = s.enc.anchor.toNat)
    (ha : s.enc.anchor.toNat ≤ s.enc.ip.toNat) (hp : mayProbe s = true) (hn : s.enc.n.toNat < 2 ^ 31) :
    Emitted s (emitMatch (emitLiterals s s.enc.anchor.toNat (s.enc.ip.toNat - s.enc.anchor.toNat)) (matchLength s)
      (s.enc.ip.toNat - s.enc.ref.toNat)) (s.enc.ip.toNat + matchLength s) := by
  obtain ⟨h3, hl⟩ := matchLength_bounds hp
  have h1 := emitLiterals_emitted hm hw s.enc.anchor.toNat (s.enc.ip.toNat - s.enc.anchor.toNat) (by omega)
  have h2 := emitMatch_emitted h1.wf h1.ok (s.enc.ip.toNat - s.enc.ref.toNat) h3 (by omega)
  rw [show e + (s.enc.ip.toNat - s.enc.anchor.toNat) + matchLength s = s.enc.ip.toNat + matchLength s by omega] at h2
  exact h1.trans h2

/-- What a match step leaves, given the state `t` its tokens leave (44_encoder R184). -/
theorem matchStep_eq (s : State) :
    ∃ ht, matchStep s =
      { emitMatch (emitLiterals s s.enc.anchor.toNat (s.enc.ip.toNat - s.enc.anchor.toNat)) (matchLength s)
          (s.enc.ip.toNat - s.enc.ref.toNat) with
        enc := { s.enc with
          len := BitVec.ofNat 32 (matchLength s), ip := BitVec.ofNat 32 (s.enc.ip.toNat + matchLength s),
          anchor := BitVec.ofNat 32 (s.enc.ip.toNat + matchLength s) },
        phase := .search, ht := ht } := ⟨_, rfl⟩

/-- The tail flush turns every byte from `anchor` on into a literal (44_encoder R186). -/
theorem tailFlush_tokens {s : State} {e : Nat} (hm : Memory.wf s.mem) (hw : WriterOk s e) (he : e = s.enc.anchor.toNat)
    (ha : s.enc.anchor.toNat ≤ s.enc.n.toNat) (hn : s.enc.n.toNat < 2 ^ 31) :
    Emitted s (emitLiterals s s.enc.anchor.toNat (s.enc.n.toNat - s.enc.anchor.toNat)) s.enc.n.toNat := by
  have h1 := emitLiterals_emitted hm hw s.enc.anchor.toNat (s.enc.n.toNat - s.enc.anchor.toNat) (by omega)
  rwa [show e + (s.enc.n.toNat - s.enc.anchor.toNat) = s.enc.n.toNat by omega] at h1

/-! ### Initialisation -/

theorem hdrBytes_length (n : Word) : (hdrBytes n).length = 16 := rfl

/-- The state whose first group initialisation opens. -/
def headerWritten (s : State) : State := (initRegs s).dstPuts 0 (hdrBytes s.enc.n)

theorem headerWritten_frame (s : State) : headerWritten s = { initRegs s with mem := (headerWritten s).mem } :=
  State.dstPuts_frame _ _ _

theorem headerWritten_op (s : State) : (headerWritten s).wr.op = 16#32 := by rw [headerWritten_frame]; rfl

theorem headerWritten_dstAt (s : State) (k : Nat) : (headerWritten s).dstAt k = s.dstAt k := by rw [headerWritten_frame]; rfl

theorem headerWritten_wf {s : State} (hm : Memory.wf s.mem) : Memory.wf (headerWritten s).mem :=
  State.dstPuts_wf (s := initRegs s) hm _ _

theorem initEncode_openGroup (s : State) : initEncode s = openGroup (headerWritten s) := rfl

theorem openGroup_memRead (s : State) (a : Word) : (openGroup s).memRead a = (s.dstPut s.wr.op.toNat 0#8).memRead a := rfl

/-- The first group, opened over any memory (43_flag_group_writer R160). -/
theorem openGroup_initRegs (s : State) {u : State} (m : List Host.Cell) (hu : u = { initRegs s with mem := m }) :
    openGroup u =
      { s with
        mem := (openGroup u).mem, ht := [], wr := ⟨17#32, 16#32, firstMask, 0#8⟩,
        enc := { s.enc with anchor := 0#32, ip := 2#32 }, phase := .search } := by
  subst hu; rfl

/-- What initialisation sets beside memory (44_encoder R182). -/
theorem initEncode_frame (s : State) :
    initEncode s =
      { s with
        mem := (initEncode s).mem, ht := [], wr := ⟨17#32, 16#32, firstMask, 0#8⟩,
        enc := { s.enc with anchor := 0#32, ip := 2#32 }, phase := .search } :=
  openGroup_initRegs s _ (headerWritten_frame s)

theorem initEncode_memRead (s : State) (a : Word) : (initEncode s).memRead a = ((headerWritten s).dstPut 16 0#8).memRead a := by
  rw [initEncode_openGroup, openGroup_memRead, headerWritten_op]; congr 1

theorem initEncode_dstByte (s : State) (k : Nat) : (initEncode s).dstByte k = ((headerWritten s).dstPut 16 0#8).dstByte k := by
  have : (initEncode s).dstAt k = s.dstAt k := by rw [initEncode_frame]; rfl
  rw [State.dstByte, this, initEncode_memRead, State.dstByte, State.dstAt_dstPut, headerWritten_dstAt]

/-- Initialisation writes the header, and offset 16 as an empty flag byte (44_encoder R182, R193). -/
theorem initEncode_bytes {s : State} (hm : Memory.wf s.mem) :
    HeaderOk (initEncode s) s.enc.n ∧ (initEncode s).dstByte 16 = 0#8 := by
  have hw := headerWritten_wf hm
  refine ⟨fun k hk => ?_, by rw [initEncode_dstByte]; exact State.dstByte_dstPut_self hw _ _⟩
  rw [initEncode_dstByte, State.dstByte_dstPut_ne _ _ (by omega) (by omega) (by omega)]
  have := State.dstByte_dstPuts (s := initRegs s) hm 0 (hdrBytes s.enc.n) (by rw [hdrBytes_length]; omega)
    (k := k) (by rw [hdrBytes_length]; omega)
  rwa [Nat.zero_add] at this

theorem initEncode_wf {s : State} (hm : Memory.wf s.mem) : Memory.wf (initEncode s).mem := openGroup_wf (headerWritten_wf hm)

/-- After initialisation no token has been written (43_flag_group_writer R160). -/
theorem initEncode_writerOk {s : State} (hm : Memory.wf s.mem) : WriterOk (initEncode s) 0 := by
  have hb := (initEncode_bytes hm).2
  have hw : (initEncode s).wr = ⟨17#32, 16#32, firstMask, 0#8⟩ := by rw [initEncode_frame]
  unfold WriterOk UnusedFlagsZero
  rw [hw]
  exact ⟨⟨0, by omega, rfl, by decide⟩, by decide, by decide, by decide, hb⟩

/-- Initialisation writes only the first seventeen destination bytes (44_encoder R182). -/
theorem initEncode_outside (s : State) {a : Word} (h : ∀ k, k < 17 → s.dstAt k ≠ a) : (initEncode s).memRead a = s.memRead a := by
  rw [initEncode_memRead, State.memRead_dstPut_ne _ _ (by rw [headerWritten_dstAt]; exact h 16 (by omega))]
  exact State.memRead_dstPuts_ne (initRegs s) 0 _ fun k hk => by
    rw [hdrBytes_length] at hk
    rw [Nat.zero_add]
    exact h k (by omega)

end Sys2Proof.Machine
end

