-- ==== Sys2Proof/Laws/Turn.lean ====
section
/-! SUPPORT. What one step can do, said once: every next state is one of the moves listed here. Claims about every step go through
`step_cases` and `block_cases` instead of unfolding the step. -/

namespace Sys2Proof.Machine

@[simp] theorem perform_run (i : Instr) (s : State) : perform (.run i s) = exec i s := rfl
@[simp] theorem perform_move (s : State) : perform (.move s) = .next s := rfl
@[simp] theorem perform_stop (f : Fault) : perform (.stop f) = .fault f := rfl
@[simp] theorem perform_refuse (r : Refusal) : perform (.refuse r) = .refused r := rfl

/-! ### The stream's items -/

/-- The next states of a running DECODE or PEEK_SIZE (45_decoder R200, 46_header_utilities R230). -/
inductive StreamMove (s : State) : State → Prop where
  /-- The stream is too short for a header, or its magic is wrong. -/
  | badHeader (c : Cause) (hc : c = .shortInput ∨ c = .badMagic) (hw : want s = .header) : StreamMove s (s.raise c)
  /-- PEEK_SIZE completes with the declared size. -/
  | peeked (size : Word) (hc : s.ctrl = .busy .peekSize) : StreamMove s (s.complete size)
  /-- DECODE rejects the declared size. -/
  | badSize (c : Cause) (hc : c = .zeroSize ∨ c = .sizeGtCap) (hd : s.ctrl = .busy .decode) : StreamMove s (s.raise c)
  /-- DECODE accepts the header and starts its loop. -/
  | headerDone (size : Word) (hd : s.ctrl = .busy .decode) (hp : s.phase = .begin) (hn : 16 ≤ s.dec.n.toNat)
      (h0 : 0 < size.toNat) (hcap : size.toNat ≤ s.dec.cap.toNat) :
      StreamMove s
        { s with
          dec := { s.dec with size := size, pos := 16#32, written := 0#32, flag := 0#8, bits := 0#4 }, phase := .tokens }
  /-- The stream ends within an item. -/
  | truncated (c : Cause) (hc : c = .truncFlag ∨ c = .truncLiteral ∨ c = .truncMatch) (hd : s.ctrl = .busy .decode) :
      StreamMove s (s.raise c)
  /-- A flag byte. -/
  | flag (f : Byte) (hd : s.ctrl = .busy .decode) (hp : s.phase ≠ .begin) (hw : want s = .flag) (hl : 0 < streamLeft s) :
      StreamMove s { s with dec := { s.dec with flag := f, pos := s.dec.pos + 1#32, bits := 8#4 } }
  /-- A literal at full capacity. -/
  | literalFull (hd : s.ctrl = .busy .decode) (hp : s.phase ≠ .begin) (hw : want s = .literal) (hcap : s.dec.written = s.dec.cap) :
      StreamMove s (s.raise .litCap)
  /-- A literal. -/
  | literal (b : Byte) (hd : s.ctrl = .busy .decode) (hp : s.phase ≠ .begin) (hw : want s = .literal) (hl : 0 < streamLeft s)
      (hcap : s.dec.written ≠ s.dec.cap) :
      StreamMove s
        (nextFlagBit
          { s.dstPut s.dec.written.toNat b with
            dec := { s.dec with pos := s.dec.pos + 1#32, written := s.dec.written + 1#32 } })
  /-- A match that fails its checks. -/
  | badMatch (b0 b1 b2 : Byte) (k : Nat) (dist : BitVec 13) (len : BitVec 9) (c : Cause)
      (hc : c = .badDistance ∨ c = .capOverrun ∨ c = .sizeOverrun) (hd : s.ctrl = .busy .decode) :
      StreamMove s ((readMatch s b0 b1 b2 k dist len).raise c)
  /-- A match. -/
  | copied (b0 b1 b2 : Byte) (k : Nat) (dist : BitVec 13) (len : BitVec 9) (hd : s.ctrl = .busy .decode) (hp : s.phase ≠ .begin)
      (hw : want s = .matchCode) (hk : k = 2 ∨ k = 3) (hl : k ≤ streamLeft s) (h1 : 1 ≤ dist.toNat)
      (hdist : dist.toNat ≤ s.dec.written.toNat) (h3 : 3 ≤ len.toNat) (hcap : s.dec.written.toNat + len.toNat ≤ s.dec.cap.toNat)
      (hsize : s.dec.written.toNat + len.toNat ≤ s.dec.size.toNat) :
      StreamMove s (nextFlagBit (copyBytes (readMatch s b0 b1 b2 k dist len) dist.toNat len.toNat))
  /-- The declared size is written. -/
  | done (hd : s.ctrl = .busy .decode) (hp : s.phase ≠ .begin) (hw : s.dec.written = s.dec.size) :
      StreamMove s (s.complete s.dec.written)

/-- When the running command reads a token, DECODE is in its loop. -/
theorem want_decode {s : State} (h : want s ≠ .nothing) (h' : want s ≠ .header) : s.ctrl = .busy .decode ∧ s.phase ≠ .begin := by
  unfold want at h h'
  split at h <;> simp_all

theorem want_header {s : State} (h : want s = .header) :
    s.ctrl = .busy .peekSize ∨ (s.ctrl = .busy .decode ∧ s.phase = .begin) := by
  unfold want at h
  split at h
  · split at h
    · exact .inr ⟨by assumption, by assumption⟩
    · unfold wantToken at h; split at h <;> (try split at h) <;> (try split at h) <;> cases h
  · exact .inl (by assumption)
  all_goals cases h

theorem matchDistance_pos (d : BitVec 12) : 1 ≤ (matchDistance d).toNat := by
  have := d.isLt
  simp only [matchDistance, BitVec.toNat_add, BitVec.toNat_setWidth, BitVec.toNat_ofNat]
  omega

theorem shortLength_ge {l : BitVec 4} (h : l ≠ 0#4) : 3 ≤ (shortLength l).toNat := by
  have h1 := l.isLt
  have h2 : l.toNat ≠ 0 := fun e => h (BitVec.eq_of_toNat_eq e)
  simp only [shortLength, BitVec.toNat_add, BitVec.toNat_setWidth, BitVec.toNat_ofNat]
  omega

theorem longLength_ge (n : Byte) : 18 ≤ (longLength n).toNat := by
  have h1 := n.isLt
  simp only [longLength, BitVec.toNat_add, BitVec.toNat_setWidth, BitVec.toNat_ofNat]
  omega

/-- A match token's next states. -/
theorem matchToken_move {s : State} (b0 b1 b2 : Byte) {k : Nat} (dist : BitVec 13) (len : BitVec 9) (hw : want s = .matchCode)
    (hk : k = 2 ∨ k = 3) (h1 : 1 ≤ dist.toNat) (h3 : 3 ≤ len.toNat) : StreamMove s (matchToken s b0 b1 b2 k dist len) := by
  obtain ⟨hd, hp⟩ := want_decode (s := s) (by simp [hw]) (by simp [hw])
  unfold matchToken
  split
  · exact .truncated _ (.inr (.inr rfl)) hd
  · unfold validateAndCopy
    split
    · exact .badMatch _ _ _ _ _ _ _ (.inl rfl) hd
    · split
      · exact .badMatch _ _ _ _ _ _ _ (.inr (.inl rfl)) hd
      · split
        · exact .badMatch _ _ _ _ _ _ _ (.inr (.inr rfl)) hd
        · rename_i ha hb hc hd'
          simp only [readMatch] at hb hc hd'
          exact .copied _ _ _ _ _ _ hd hp hw hk (by omega) h1 (by omega) h3 (by omega) (by omega)

/-- What a match code decodes to: a match instruction, well formed. -/
theorem decodeMatch_ok {bs rest : List Byte} {i : Instr} (h : decodeMatch bs = .ok (i, rest)) :
    (∃ l d, i = .sm l d ∧ l ≠ 0#4) ∨ ∃ d n, i = .lm d n := by
  unfold decodeMatch at h
  split at h
  · split at h
    · split at h
      · cases h; exact .inr ⟨_, _, rfl⟩
      · cases h
    · cases h; exact .inl ⟨_, _, rfl, by assumption⟩
  · cases h

theorem decodeHdr_ok {bs rest : List Byte} {i : Instr} (h : decodeHdr bs = .ok (i, rest)) : ∃ size, i = .hdr size := by
  unfold decodeHdr at h
  split at h
  · split at h
    · cases h; exact ⟨_, rfl⟩
    · cases h
  · cases h

/-- HDR's next states. -/
theorem execHdr_move {s t : State} {size : Word} (h : execHdr size s = .next t) : StreamMove s t := by
  unfold execHdr at h
  split at h; · cases h
  rename_i hw
  have hw := Decidable.not_not.mp hw
  split at h
  · cases h; exact .badHeader _ (.inl rfl) hw
  · split at h
    · cases h; exact .peeked _ (by assumption)
    · rename_i hn hc
      have hd := (want_header hw).resolve_left hc
      simp only [headerHave, headerNeed, hc, ↓reduceIte, Config.hdrLen] at hn
      unfold checkHeader at h
      split at h
      · cases h; exact .badSize _ (.inl rfl) hd.1
      · split at h
        · cases h; exact .badSize _ (.inr rfl) hd.1
        · rename_i h0 hcap
          cases h
          refine .headerDone size hd.1 hd.2 (by omega) ?_ (by omega)
          have : size.toNat ≠ 0 := fun e => h0 (BitVec.eq_of_toNat_eq e)
          omega

/-- FLAG's next states. -/
theorem execFlag_move {s t : State} {f : Byte} (h : execFlag f s = .next t) : StreamMove s t := by
  unfold execFlag at h
  split at h; · cases h
  rename_i hw
  have hw := Decidable.not_not.mp hw
  obtain ⟨hd, hp⟩ := want_decode (s := s) (by simp [hw]) (by simp [hw])
  split at h
  · cases h; exact .truncated _ (.inl rfl) hd
  · cases h; exact .flag f hd hp hw (by omega)

/-- LIT's next states. -/
theorem execLit_move {s t : State} {b : Byte} (h : execLit b s = .next t) : StreamMove s t := by
  unfold execLit at h
  split at h; · cases h
  rename_i hw
  have hw := Decidable.not_not.mp hw
  obtain ⟨hd, hp⟩ := want_decode (s := s) (by simp [hw]) (by simp [hw])
  split at h
  · cases h; exact .truncated _ (.inr (.inl rfl)) hd
  · split at h
    · cases h; exact .literalFull hd hp hw (by assumption)
    · cases h; exact .literal b hd hp hw (by omega) (by assumption)

/-- SM's next states. -/
theorem execSm_move {s t : State} {l : BitVec 4} {d : BitVec 12} (hl : l ≠ 0#4) (h : execSm l d s = .next t) : StreamMove s t := by
  unfold execSm at h
  split at h; · cases h
  rename_i hw
  cases h
  exact matchToken_move _ _ _ _ _ (Decidable.not_not.mp hw) (.inl rfl) (matchDistance_pos d) (shortLength_ge hl)

/-- LM's next states. -/
theorem execLm_move {s t : State} {d : BitVec 12} {n : Byte} (h : execLm d n s = .next t) : StreamMove s t := by
  unfold execLm at h
  split at h; · cases h
  rename_i hw
  cases h
  exact matchToken_move _ _ _ _ _ (Decidable.not_not.mp hw) (.inr rfl) (matchDistance_pos d)
    (Nat.le_trans (by omega) (longLength_ge n))

/-- The fetch of an item that decodes, or that the stream is too short for. -/
theorem runItem_cases {s : State} {sel : Select} {need : Nat} {c : Cause} :
    (∃ i bs rest, decode sel bs = .ok (i, rest) ∧ runItem s sel need c = .run i s) ∨ runItem s sel need c = .move (s.raise c) := by
  unfold runItem
  split
  · rename_i i rest h; exact .inl ⟨i, _, rest, h, rfl⟩
  · exact .inr rfl

/-- The header fetch runs an HDR, or takes an error. -/
theorem runHeader_cases (s : State) :
    (∃ size, runHeader s = .run (.hdr size) s) ∨ ∃ c, (c = .shortInput ∨ c = .badMagic) ∧ runHeader s = .move (s.raise c) := by
  unfold runHeader
  split
  · exact .inr ⟨_, .inl rfl, rfl⟩
  · split
    · rename_i i rest h
      obtain ⟨size, rfl⟩ := decodeHdr_ok (bs := s.srcBytes 0 Config.peekLen) h
      exact .inl ⟨size, rfl⟩
    · exact .inr ⟨_, .inr rfl, rfl⟩

/-! ### The block -/

/-- The next states of the block's own step (10_state R31). -/
inductive BlockMove (s : State) : State → Prop where
  /-- Idle, the block takes no step (60_exceptions R257). -/
  | idle (hc : s.ctrl = .idle) : BlockMove s s
  | reserved (hc : s.ctrl = .busy .reserved) : BlockMove s (s.raise .illegalCmd)
  | encode (hc : s.ctrl = .busy .encode) : BlockMove s (encodeMove s)
  | isYaz0 (v : Word) (hc : s.ctrl = .busy .isYaz0) : BlockMove s (s.complete v)
  | stream {t : State} (hc : s.ctrl = .busy .decode ∨ s.ctrl = .busy .peekSize) (h : StreamMove s t) : BlockMove s t

/-- A command that reads a stream always wants something of it. -/
theorem want_ne_nothing {s : State} (h : s.ctrl = .busy .decode ∨ s.ctrl = .busy .peekSize) : want s ≠ .nothing := by
  intro hw
  rcases h with h | h <;> simp only [want, h] at hw
  · split at hw
    · cases hw
    · unfold wantToken at hw; split at hw <;> (try split at hw) <;> (try split at hw) <;> cases hw
  · cases hw

theorem want_done {s : State} (h : want s = .done) : s.ctrl = .busy .decode ∧ s.phase ≠ .begin ∧ s.dec.written = s.dec.size := by
  obtain ⟨hd, hp⟩ := want_decode (s := s) (by simp [h]) (by simp [h])
  refine ⟨hd, hp, ?_⟩
  simp only [want, hd, hp, ↓reduceIte, wantToken] at h
  split at h
  · assumption
  · split at h <;> (try split at h) <;> cases h

/-- Every next state of a stream's turn is one of its moves. -/
theorem stream_cases {s t : State} (hc : s.ctrl = .busy .decode ∨ s.ctrl = .busy .peekSize) (h : perform (streamTurn s) = .next t) :
    StreamMove s t := by
  unfold streamTurn at h
  have hn := want_ne_nothing hc
  cases hw : want s <;> simp only [hw] at h
  case nothing => exact absurd hw hn
  case header =>
    rcases runHeader_cases s with ⟨size, he⟩ | ⟨c, hcc, he⟩ <;> rw [he] at h
    · exact execHdr_move h
    · cases h; exact .badHeader _ hcc hw
  case flag =>
    rcases runItem_cases (s := s) (sel := .flag) (need := 1) (c := .truncFlag) with ⟨i, bs, rest, hi, he⟩ | he <;> rw [he] at h
    · cases bs <;> cases hi
      exact execFlag_move h
    · cases h; exact .truncated _ (.inl rfl) (want_decode (by simp [hw]) (by simp [hw])).1
  case literal =>
    rcases runItem_cases (s := s) (sel := .lit) (need := 1) (c := .truncLiteral) with ⟨i, bs, rest, hi, he⟩ | he <;> rw [he] at h
    · cases bs <;> cases hi
      exact execLit_move h
    · cases h; exact .truncated _ (.inr (.inl rfl)) (want_decode (by simp [hw]) (by simp [hw])).1
  case matchCode =>
    rcases runItem_cases (s := s) (sel := .mtch) (need := matchNeed s) (c := .truncMatch) with ⟨i, bs, rest, hi, he⟩ | he <;>
      rw [he] at h
    · rcases decodeMatch_ok (bs := bs) hi with ⟨l, d, rfl, hl⟩ | ⟨d, n, rfl⟩
      · exact execSm_move hl h
      · exact execLm_move h
    · cases h; exact .truncated _ (.inr (.inr rfl)) (want_decode (by simp [hw]) (by simp [hw])).1
  case done =>
    obtain ⟨hd, hp, hs⟩ := want_done hw
    cases h
    exact .done hd hp hs

/-- Every next state of a block step is one of its moves. -/
theorem block_cases {s t : State} (h : perform (blockTurn s) = .next t) : BlockMove s t := by
  unfold blockTurn at h
  cases hc : s.ctrl with
  | idle => simp only [hc] at h; cases h; exact .idle hc
  | busy op =>
    cases op <;> simp only [hc] at h
    case reserved => cases h; exact .reserved hc
    case encode => cases h; exact .encode hc
    case isYaz0 =>
      cases h
      unfold isYaz0Move
      split
      · exact .isYaz0 _ hc
      · split <;> exact .isYaz0 _ hc
    case decode => exact .stream (.inl hc) (stream_cases (.inl hc) h)
    case peekSize => exact .stream (.inr hc) (stream_cases (.inr hc) h)

/-! ### The host and the block -/

/-- What a command word of the host does: nothing, or the start of one of the five commands (40_command_interface R110). -/
theorem execCmd_cases (v : Word) (s : State) :
    exec (decodeCmd v) s = .next s ∨ ∃ op, exec (decodeCmd v) s = .next (start op s) := by
  unfold decodeCmd
  dsimp only
  split
  · exact .inl rfl
  · split
    · exact .inr ⟨.encode, rfl⟩
    · split
      · exact .inr ⟨.decode, rfl⟩
      · split
        · exact .inr ⟨.peekSize, rfl⟩
        · split
          · exact .inr ⟨.isYaz0, rfl⟩
          · split
            · exact .inr ⟨.reserved, rfl⟩
            · split
              · exact .inr ⟨.reserved, rfl⟩
              · exact .inr ⟨.reserved, rfl⟩

/-- The next states of a step: the block's, or one of the host's (10_state R20 to R22, 20_memory R70, R71, 70_reset_and_hazards R270). -/
inductive StepMove (s : State) : State → Prop where
  | block {t : State} (h : BlockMove s t) : StepMove s t
  | command (op : Op) : StepMove s (start op s)
  | nothing : StepMove s s
  | regWrite (off v : Word) : StepMove s (s.regWrite off v)
  | memWrite (a : Word) (b : Byte) (hs : s.inBusySrc a = false) (hd : s.inBusyDst a = false) : StepMove s (s.memWrite a b)
  | memRead (a : Word) : StepMove s (s.hostMemRead a)
  | reset : StepMove s s.resetInput

/-- A host register write's next states. -/
theorem writeTurn_cases {s t : State} {width : Width} {off v : Word} (h : perform (writeTurn s width off v) = .next t) :
    StepMove s t := by
  unfold writeTurn at h
  split at h; · cases h
  split at h; · cases h
  split at h
  · rw [perform_run] at h
    rcases execCmd_cases v s with he | ⟨op, he⟩ <;> rw [he] at h <;> cases h
    · exact .nothing
    · exact .command op
  · cases h; exact .regWrite off v

/-- A host action's next states, from the state with the action taken off the list, or polled. -/
theorem hostTurn_cases {s t : State} {a : HostAction} (h : perform (hostTurn s a) = .next t) :
    ∃ q v, StepMove (s.withHost q v) t := by
  cases a with
  | wr width off v => exact ⟨s.host, s.portData, writeTurn_cases h⟩
  | rd width off =>
    simp only [hostTurn, readTurn] at h
    split at h; · cases h
    split at h
    · cases h
    · cases h; exact ⟨_, _, .nothing⟩
  | memWr addr b =>
    simp only [hostTurn] at h
    split at h
    · cases h
    · rename_i hb
      simp only [Bool.or_eq_true, not_or, Bool.not_eq_true] at hb
      cases h
      exact ⟨s.host, s.portData, .memWrite addr b hb.1 hb.2⟩
  | memRd addr => cases h; exact ⟨s.host, s.portData, .memRead addr⟩
  | wait =>
    simp only [hostTurn] at h
    split at h
    · exact ⟨_, _, .block (block_cases h)⟩
    · cases h; exact ⟨_, _, .nothing⟩
  | pass => exact ⟨s.host, s.portData, .block (block_cases h)⟩
  | reset => cases h; exact ⟨s.host, s.portData, .reset⟩

/-- Every next state of the machine is a move from the state with the host's action taken (or polled). -/
theorem step_cases {s t : State} (h : step s = .next t) : ∃ q v, StepMove (s.withHost q v) t := by
  unfold step turn at h
  cases hq : s.host with
  | nil => rw [hq] at h; exact ⟨s.host, s.portData, .block (block_cases h)⟩
  | cons a rest => rw [hq] at h; exact hostTurn_cases (s := s.withHost rest s.portData) h

end Sys2Proof.Machine
end

