-- ==== Sys2Proof/Laws/Host.lean ====
section
/-! SUPPORT. The block does not see the host's pending actions or the data the host has read: each of its operations gives the same
result whatever they are, and leaves them as they are (10_state R31). `block_withHost` says it of the block's whole step. -/

namespace Sys2Proof.Machine

variable (s : State) (q : List HostAction) (v : Word)

/-! ### What the block reads -/

@[simp] theorem State.srcByte_withHost (i : Nat) : (s.withHost q v).srcByte i = s.srcByte i := rfl
@[simp] theorem State.dstByte_withHost (i : Nat) : (s.withHost q v).dstByte i = s.dstByte i := rfl
@[simp] theorem State.htGet_withHost (h : BitVec 14) : (s.withHost q v).htGet h = s.htGet h := rfl
@[simp] theorem hashAt_withHost (p : Nat) : hashAt (s.withHost q v) p = hashAt s p := rfl
@[simp] theorem accepts_withHost (a b : Nat) : accepts (s.withHost q v) a b = accepts s a b := rfl
@[simp] theorem mayProbe_withHost : mayProbe (s.withHost q v) = mayProbe s := rfl
@[simp] theorem want_withHost : want (s.withHost q v) = want s := rfl
@[simp] theorem streamLeft_withHost : streamLeft (s.withHost q v) = streamLeft s := rfl
@[simp] theorem matchNeed_withHost : matchNeed (s.withHost q v) = matchNeed s := rfl
@[simp] theorem headerHave_withHost : headerHave (s.withHost q v) = headerHave s := rfl
@[simp] theorem headerNeed_withHost : headerNeed (s.withHost q v) = headerNeed s := rfl

@[simp] theorem State.srcBytes_withHost (i k : Nat) : (s.withHost q v).srcBytes i k = s.srcBytes i k := by
  induction k generalizing i with
  | zero => rfl
  | succ k ih => rw [State.srcBytes, ih]; rfl

theorem commonPrefix_withHost (a b fuel : Nat) : commonPrefix (s.withHost q v) a b fuel = commonPrefix s a b fuel := by
  induction fuel generalizing a b with
  | zero => rfl
  | succ f ih => rw [commonPrefix, ih]; rfl

@[simp] theorem matchLength_withHost : matchLength (s.withHost q v) = matchLength s := by
  unfold matchLength comparePrefix; rw [commonPrefix_withHost]; rfl

/-! ### What the block does -/

@[simp] theorem State.raise_withHost (c : Cause) : (s.withHost q v).raise c = (s.raise c).withHost q v := rfl
@[simp] theorem State.complete_withHost (r : Word) : (s.withHost q v).complete r = (s.complete r).withHost q v := rfl
@[simp] theorem emitLiteral_withHost (b : Byte) : emitLiteral (s.withHost q v) b = (emitLiteral s b).withHost q v := by
  simp only [emitLiteral, putToken, encode, State.dstPuts, advanceMask]
  show (if nextMask s.wr.mask = 0#8 then _ else _) = State.withHost (if nextMask s.wr.mask = 0#8 then _ else _) q v
  split <;> rfl

theorem State.dstPuts_withHost (i : Nat) (bs : List Byte) : (s.withHost q v).dstPuts i bs = (s.dstPuts i bs).withHost q v := by
  induction bs generalizing s i with
  | nil => rfl
  | cons b t ih => exact ih (s.dstPut i b) (i + 1)

theorem putToken_withHost (i : Instr) : putToken (s.withHost q v) i = (putToken s i).withHost q v := by
  unfold putToken
  rw [show (s.withHost q v).wr = s.wr from rfl, State.dstPuts_withHost]
  rfl

theorem advanceMask_withHost : advanceMask (s.withHost q v) = (advanceMask s).withHost q v := by
  show (if nextMask s.wr.mask = 0#8 then _ else _) = State.withHost (if nextMask s.wr.mask = 0#8 then _ else _) q v
  split <;> rfl

theorem emitMatchToken_withHost (len dist : Nat) : emitMatchToken (s.withHost q v) len dist = (emitMatchToken s len dist).withHost q v := by
  rw [emitMatchToken, putToken_withHost, advanceMask_withHost]; rfl

theorem emitLiterals_withHost (a k : Nat) : emitLiterals (s.withHost q v) a k = (emitLiterals s a k).withHost q v := by
  induction k generalizing s a with
  | zero => rfl
  | succ k ih => rw [emitLiterals, emitLiteral_withHost, ih]; rfl

theorem emitTokens_withHost (dist : Nat) (l : List Nat) : emitTokens (s.withHost q v) dist l = (emitTokens s dist l).withHost q v := by
  induction l generalizing s with
  | nil => rfl
  | cons n t ih => rw [emitTokens, emitMatchToken_withHost, ih]; rfl

theorem openGroup_withHost : openGroup (s.withHost q v) = (openGroup s).withHost q v := rfl

theorem initEncode_withHost : initEncode (s.withHost q v) = (initEncode s).withHost q v := by
  unfold initEncode
  rw [show initRegs (s.withHost q v) = (initRegs s).withHost q v from rfl, State.dstPuts_withHost, openGroup_withHost]
  rfl

theorem probe_withHost : probe (s.withHost q v) = (probe s).withHost q v := by
  show (if accepts s (s.htGet (hashAt s s.enc.ip.toNat)).toNat s.enc.ip.toNat then _ else _) =
    State.withHost (if accepts s (s.htGet (hashAt s s.enc.ip.toNat)).toNat s.enc.ip.toNat then _ else _) q v
  split <;> rfl

theorem matchStep_withHost : matchStep (s.withHost q v) = (matchStep s).withHost q v := by
  simp only [matchStep, matchLength_withHost, emitMatch]
  rw [show (s.withHost q v).enc = s.enc from rfl, emitLiterals_withHost, emitTokens_withHost]
  rfl

theorem encodeMove_withHost : encodeMove (s.withHost q v) = (encodeMove s).withHost q v := by
  unfold encodeMove
  rw [show (s.withHost q v).phase = s.phase from rfl]
  cases s.phase with
  | begin => exact initEncode_withHost ..
  | tokens => exact initEncode_withHost ..
  | search =>
    simp only [mayProbe_withHost]
    by_cases h : mayProbe s = true
    · simp only [h, ↓reduceIte]; exact probe_withHost ..
    · simp only [h, Bool.false_eq_true, ↓reduceIte, tailFlush]; rw [show (s.withHost q v).enc = s.enc from rfl, emitLiterals_withHost]; rfl
  | accepted => exact matchStep_withHost ..
  | flushed => rfl

theorem isYaz0Move_withHost : isYaz0Move (s.withHost q v) = (isYaz0Move s).withHost q v := by
  unfold isYaz0Move
  rw [State.srcBytes_withHost, show (s.withHost q v).srcLen = s.srcLen from rfl]
  split
  · rfl
  · split <;> rfl

theorem copyBytes_withHost (dist len : Nat) : copyBytes (s.withHost q v) dist len = (copyBytes s dist len).withHost q v := by
  induction len generalizing s with
  | zero => rfl
  | succ n ih => exact ih (copyByte s dist)

theorem matchToken_withHost (b0 b1 b2 : Byte) (k : Nat) (dist : BitVec 13) (len : BitVec 9) :
    matchToken (s.withHost q v) b0 b1 b2 k dist len = (matchToken s b0 b1 b2 k dist len).withHost q v := by
  unfold matchToken validateAndCopy
  rw [show readMatch (s.withHost q v) b0 b1 b2 k dist len = (readMatch s b0 b1 b2 k dist len).withHost q v from rfl,
    copyBytes_withHost, streamLeft_withHost]
  repeat' split
  all_goals first | rfl | (exfalso; simp_all [State.withHost])

theorem checkHeader_withHost (size : Word) : checkHeader (s.withHost q v) size = (checkHeader s size).withHost q v := by
  unfold checkHeader
  rw [show (s.withHost q v).dec = s.dec from rfl]
  split
  · rfl
  · split <;> rfl

/-! ### The block's step -/

/-- An outcome whose next state has these actions pending and this word read. -/
def outWithHost (o : Host.Outcome State Fault Refusal) (q : List HostAction) (v : Word) : Host.Outcome State Fault Refusal :=
  match o with
  | .next t => .next (t.withHost q v)
  | .fault f => .fault f
  | .refused r => .refused r

/-- The stream's items leave the host's side alone. -/
theorem exec_item_withHost {i : Instr} (h : selectOf i ≠ .cmd) : exec i (s.withHost q v) = outWithHost (exec i s) q v := by
  cases i <;> first | exact absurd rfl h | skip
  · simp only [exec, execHdr, want_withHost, headerHave_withHost, headerNeed_withHost, checkHeader_withHost,
      show (s.withHost q v).ctrl = s.ctrl from rfl]
    repeat' split
    all_goals rfl
  · show (if want s ≠ .flag then _ else if streamLeft s = 0 then _ else _) =
      outWithHost (if want s ≠ .flag then _ else if streamLeft s = 0 then _ else _) q v
    repeat' split
    all_goals rfl
  · simp only [exec, execLit, want_withHost, streamLeft_withHost, show (s.withHost q v).dec = s.dec from rfl]
    repeat' split
    all_goals rfl
  · simp only [exec, execSm, want_withHost, show (s.withHost q v).dec = s.dec from rfl, matchToken_withHost]
    split <;> rfl
  · simp only [exec, execLm, want_withHost, matchToken_withHost]
    split <;> rfl

theorem decode_select {sel : Select} {bs rest : List Byte} {i : Instr} (h : decode sel bs = .ok (i, rest)) : selectOf i = sel := by
  cases sel with
  | cmd =>
    unfold decode at h
    split at h
    case h_1 => cases h; unfold decodeCmd; dsimp only; repeat' split
                all_goals rfl
    all_goals simp_all
  | hdr => obtain ⟨n, rfl⟩ := decodeHdr_ok (bs := bs) h; rfl
  | flag => cases bs <;> cases h; rfl
  | lit => cases bs <;> cases h; rfl
  | mtch => rcases decodeMatch_ok (bs := bs) h with ⟨l, d, rfl, -⟩ | ⟨d, n, rfl⟩ <;> rfl

theorem runItem_withHost {sel : Select} (hs : sel ≠ .cmd) (need : Nat) (c : Cause) :
    perform (runItem (s.withHost q v) sel need c) = outWithHost (perform (runItem s sel need c)) q v := by
  unfold runItem
  rw [State.srcBytes_withHost, streamLeft_withHost, show (s.withHost q v).dec = s.dec from rfl]
  split
  · rename_i h; exact exec_item_withHost s q v (by rw [decode_select h]; exact hs)
  · rfl

/-- The block takes the same step whatever the host's side holds, and leaves it. -/
theorem block_withHost : perform (blockTurn (s.withHost q v)) = outWithHost (perform (blockTurn s)) q v := by
  have hst : perform (streamTurn (s.withHost q v)) = outWithHost (perform (streamTurn s)) q v := by
    unfold streamTurn
    rw [want_withHost, matchNeed_withHost]
    cases want s with
    | nothing => rfl
    | header =>
      simp only [runHeader, headerHave_withHost, headerNeed_withHost, State.srcBytes_withHost]
      split
      · rfl
      · split
        · rename_i h; exact exec_item_withHost s q v (by rw [decode_select h]; simp)
        · rfl
    | flag => exact runItem_withHost s q v (by simp) _ _
    | literal => exact runItem_withHost s q v (by simp) _ _
    | matchCode => exact runItem_withHost s q v (by simp) _ _
    | done => rfl
  unfold blockTurn
  rw [show (s.withHost q v).ctrl = s.ctrl from rfl, encodeMove_withHost, isYaz0Move_withHost]
  cases s.ctrl with
  | idle => rfl
  | busy op =>
    cases op with
    | encode => rfl
    | decode => exact hst
    | peekSize => exact hst
    | isYaz0 => rfl
    | reserved => rfl

end Sys2Proof.Machine
end

