-- ==== Sys2Proof/Laws/PerInstr.lean ====
section
/-! SUPPORT. Facts about every instruction as syntax, one lemma per constructor. -/

namespace Sys2Proof.Laws.EncodeLength

/-- How many bytes the format of an instruction has (30_encoding R80). -/
def formatLength : Instr → Nat
  | .nop | .encode | .decode | .peekSize | .isYaz0 | .reserved5 | .reserved6 | .reserved7 => 4
  | .hdr _ => 16
  | .flag _ => 1
  | .lit _ => 1
  | .sm _ _ => 2
  | .lm _ _ => 3

/-- The encoding has the length of its format, and where the instruction is well-formed and is a match, its first byte tells that
length (30_encoding R80, R94). -/
def Statement (i : Instr) : Prop :=
  (encode i).length = formatLength i ∧
    (wellFormed i = true → selectOf i = .mtch → ∃ b rest, encode i = b :: rest ∧ matchLen b = formatLength i)

theorem nop : Statement .nop := ⟨rfl, fun _ h => nomatch h⟩

theorem encode : Statement .encode := ⟨rfl, fun _ h => nomatch h⟩

theorem decode : Statement .decode := ⟨rfl, fun _ h => nomatch h⟩

theorem peekSize : Statement .peekSize := ⟨rfl, fun _ h => nomatch h⟩

theorem isYaz0 : Statement .isYaz0 := ⟨rfl, fun _ h => nomatch h⟩

theorem reserved5 : Statement .reserved5 := ⟨rfl, fun _ h => nomatch h⟩

theorem reserved6 : Statement .reserved6 := ⟨rfl, fun _ h => nomatch h⟩

theorem reserved7 : Statement .reserved7 := ⟨rfl, fun _ h => nomatch h⟩

theorem hdr (size : Word) : Statement (.hdr size) := ⟨rfl, fun _ h => nomatch h⟩

theorem flag (f : Byte) : Statement (.flag f) := ⟨rfl, fun _ h => nomatch h⟩

theorem lit (b : Byte) : Statement (.lit b) := ⟨rfl, fun _ h => nomatch h⟩

theorem sm (l : BitVec 4) (d : BitVec 12) : Statement (.sm l d) := by
  refine ⟨rfl, fun hl _ => ⟨_, _, rfl, ?_⟩⟩
  have h : highNibble (l ++ d.extractLsb' 8 4) = l := by
    apply BitVec.eq_of_toNat_eq
    rw [highNibble_toNat, matchByte0_toNat]
    omega
  rw [matchLen, h, if_neg (by simpa [wellFormed] using hl)]
  rfl

theorem lm (d : BitVec 12) (n : Byte) : Statement (.lm d n) := by
  refine ⟨rfl, fun _ _ => ⟨_, _, rfl, ?_⟩⟩
  have h : highNibble (0#4 ++ d.extractLsb' 8 4) = 0#4 := by
    apply BitVec.eq_of_toNat_eq
    rw [highNibble_toNat, matchByte0_toNat]
    simp
    omega
  rw [matchLen, h, if_pos rfl]
  rfl

end Sys2Proof.Laws.EncodeLength
end

