-- ==== Sys2Proof/Laws/Stream.lean ====
section
/-! SUPPORT. A stream's tokens as a relation, for claims that go through ENCODE's output and DECODE's input at once: `Reads f x T fp op
w` says that the stream `f` holds, from offset 17 to `op`, `T` tokens that stand for the first `w` bytes of `x`, and that the current
flag byte is at `fp`. ENCODE's moves keep it with `f` the destination; DECODE follows it with `f` the source. -/

namespace Sys2Proof.Machine

/-- The flag bit of the `T`-th token of the stream, in its flag byte (30_encoding R86). -/
def flagBit (b : Byte) (T : Nat) : Bool := b.getLsbD (7 - T % 8)

/-- Where the flag byte is after token `T`, whose bytes end at `op`: an eighth token opens the next group at once
(43_flag_group_writer R160). -/
def nextFp (T fp op : Nat) : Nat := if T % 8 = 7 then op else fp

/-- Where the next token's bytes go after token `T`, whose bytes end at `op` (43_flag_group_writer R160). -/
def nextOp (T op : Nat) : Nat := if T % 8 = 7 then op + 1 else op

/-- The tokens of a stream and the bytes they stand for. -/
inductive Reads (f x : Nat → Byte) : Nat → Nat → Nat → Nat → Prop
  /-- After the header and the first flag byte. -/
  | start : Reads f x 0 16 17 0
  /-- One more literal. -/
  | lit {T fp op w : Nat} (h : Reads f x T fp op w) (hb : flagBit (f fp) T = true) (hx : f op = x w) :
      Reads f x (T + 1) (nextFp T fp (op + 1)) (nextOp T (op + 1)) (w + 1)
  /-- One more match, of length `len` and distance `dist`. -/
  | mat {T fp op w len dist : Nat} (h : Reads f x T fp op w) (hb : flagBit (f fp) T = false) (h3 : 3 ≤ len) (h273 : len ≤ 273)
      (hd1 : 1 ≤ dist) (hd : dist ≤ 4096) (hdw : dist ≤ w)
      (he : ∀ j, j < (encode (matchInstr len dist)).length → some (f (op + j)) = (encode (matchInstr len dist))[j]?)
      (hx : ∀ i, i < len → x (w + i) = x (w + i - dist)) :
      Reads f x (T + 1) (nextFp T fp (op + (encode (matchInstr len dist)).length))
        (nextOp T (op + (encode (matchInstr len dist)).length)) (w + len)

theorem Reads.pos {f x : Nat → Byte} {T fp op w : Nat} (h : Reads f x T fp op w) : 16 ≤ fp ∧ fp < op ∧ (T % 8 = 0 → op = fp + 1) := by
  induction h with
  | start => omega
  | lit h _ _ ih => unfold nextFp nextOp; split <;> omega
  | mat h _ _ _ _ _ _ _ _ ih => unfold nextFp nextOp; split <;> omega

/-- Reading survives a change of the stream that touches nothing before `op` but flag bits of tokens not read yet. -/
theorem Reads.mono {f g x : Nat → Byte} {T fp op w : Nat} (h : Reads f x T fp op w)
    (h1 : ∀ j, 16 ≤ j → j < op → j ≠ fp → g j = f j) (h2 : ∀ t, t % 8 < T % 8 → flagBit (g fp) t = flagBit (f fp) t) :
    Reads g x T fp op w := by
  induction h with
  | start => exact .start
  | @lit T fp op w h hb hx ih =>
    obtain ⟨p1, p2, p3⟩ := h.pos
    unfold nextFp nextOp at h1
    unfold nextFp at h2
    by_cases h7 : T % 8 = 7
    · simp only [h7, ↓reduceIte] at h1
      have e1 : g fp = f fp := h1 fp (by omega) (by omega) (by omega)
      exact .lit (ih (fun j a b _ => h1 j a (by omega) (by omega)) (fun t _ => by rw [e1])) (by rw [e1]; exact hb)
        (by rw [h1 op (by omega) (by omega) (by omega)]; exact hx)
    · simp only [h7, ↓reduceIte] at h1 h2
      exact .lit (ih (fun j a b c => h1 j a (by omega) c) (fun t ht => h2 t (by omega))) (by rw [h2 T (by omega)]; exact hb)
        (by rw [h1 op (by omega) (by omega) (by omega)]; exact hx)
  | @mat T fp op w len dist h hb h3 h273 hd1 hd hdw he hx ih =>
    obtain ⟨p1, p2, p3⟩ := h.pos
    unfold nextFp nextOp at h1
    unfold nextFp at h2
    by_cases h7 : T % 8 = 7
    · simp only [h7, ↓reduceIte] at h1
      have e1 : g fp = f fp := h1 fp (by omega) (by omega) (by omega)
      exact .mat (ih (fun j a b _ => h1 j a (by omega) (by omega)) (fun t _ => by rw [e1])) (by rw [e1]; exact hb) h3 h273 hd1 hd
        hdw (fun j hj => by rw [h1 (op + j) (by omega) (by omega) (by omega)]; exact he j hj) hx
    · simp only [h7, ↓reduceIte] at h1 h2
      exact .mat (ih (fun j a b c => h1 j a (by omega) c) (fun t ht => h2 t (by omega))) (by rw [h2 T (by omega)]; exact hb) h3 h273
        hd1 hd hdw (fun j hj => by rw [h1 (op + j) (by omega) (by omega) (by omega)]; exact he j hj) hx

/-- Setting the flag bit of token `t` makes it 1 and keeps those of the tokens before it. -/
theorem flag_set : ∀ t, t < 8 → ∀ b : Byte,
    (b ||| firstMask >>> t).getLsbD (7 - t) = true ∧ ∀ t', t' < t → (b ||| firstMask >>> t).getLsbD (7 - t') = b.getLsbD (7 - t') := by
  decide

/-- Where the flag bits not taken yet are 0, token `t`'s bit is 0. -/
theorem flag_clear : ∀ t, t < 8 → ∀ b : Byte,
    b &&& (firstMask >>> t ||| (firstMask >>> t - 1#8)) = 0#8 → b.getLsbD (7 - t) = false := by decide

/-- DECODE tests bit 7 of the shifted flag byte: token `t`'s bit. -/
theorem flag_top : ∀ t : Nat, t < 8 → ∀ b : Byte, (b <<< t).getLsbD 7 = b.getLsbD (7 - t) := by decide

end Sys2Proof.Machine
end

