-- ==== Sys2Proof/Tests/Slice0.lean ====
section
/-! SUPPORT. Tests: the ill-formed term, words written out from the spec's encodings, one-step tests with results from
95_test_vectors and the rules, and for each obligation with hypotheses a state and operands that meet them together. -/

namespace Sys2Proof.Tests

open Sys2Proof Sys2Proof.Machine

/-! ### States -/

/-- Idle after reset, with these source bytes at 0x1000 and a destination of 64 bytes at 0x8000. -/
def ready (bs : List Byte) : State :=
  { State.reset.memPuts 0x1000#32 bs with
    srcAddr := 0x1000#32, srcLen := BitVec.ofNat 32 bs.length, dstAddr := 0x8000#32, dstCap := 64#32 }

/-- `ready` with one host action pending. -/
def withAct (bs : List Byte) (a : HostAction) : State := { ready bs with host := [a] }

/-- `ready` with `op` just accepted. -/
def running (op : Op) (bs : List Byte) : State := (ready bs).accept op

/-- DECODE in its token loop: declared size 40, `w` bytes written, the cursor at `p`. -/
def inLoop (bs : List Byte) (p w : Word) (flag : Byte) (bits : BitVec 4) : State :=
  let s := running .decode bs
  { s with phase := .tokens, dec := { s.dec with size := 40#32, pos := p, written := w, flag := flag, bits := bits } }

/-- `inLoop` with the destination bytes 61 62 63 64 written ("abcd"), before a match. -/
def afterAbcd (bs : List Byte) : State := (inLoop bs 0#32 4#32 0x00#8 8#4).dstPuts 0 [0x61#8, 0x62#8, 0x63#8, 0x64#8]

/-- The header of declared size `n`, below 256. -/
def header (n : Byte) : List Byte := [0x59#8, 0x61#8, 0x7A#8, 0x30#8, 0#8, 0#8, 0#8, n] ++ List.replicate 8 0#8

/-- Sixteen equal bytes. -/
def sixteen : List Byte := List.replicate 16 0x41#8

/-- ENCODE of `sixteen` after its initialisation. -/
def searching : State := initEncode (running .encode sixteen)

/-- ENCODE of `sixteen` after the probe at `ip = 2`, which accepts position 0. -/
def accepted : State := probe searching

/-- ENCODE of a one-byte source, accepted at `s`, run to its end. -/
def encoded (s : State) : State :=
  let t := tailFlush (initEncode (s.accept .encode))
  t.complete t.wr.op

/-- ENCODE of one byte, run to its end. -/
def encodedOne : State := encoded (ready [0x41#8])

/-- The same byte to encode, with another destination and other leftovers in the table and the writer cursor. -/
def readyElsewhere : State := { ready [0x41#8] with dstAddr := 0x9000#32, ht := [(5, 7#32)], wr := ⟨9#32, 8#32, 3#8, 0xFF#8⟩ }

/-! ### Syntax, decoder and encoder -/

/-- A short match with length field 0 is no instruction; the neighbours are (30_encoding R89). -/
theorem test_wellFormed : wellFormed (.sm 0#4 5#12) = false ∧ wellFormed (.sm 1#4 5#12) = true ∧ wellFormed (.lm 5#12 0#8) = true := by
  decide

/-- CMD words by their bits 2:0, the rest ignored (30_encoding R81). -/
theorem test_decode_commands :
    decode .cmd [0xF8#8, 0xFF#8, 0xFF#8, 0xFF#8] = .ok (.nop, []) ∧ decode .cmd [0x01#8, 0#8, 0#8, 0#8] = .ok (.encode, []) ∧
      decode .cmd [0xFA#8, 0#8, 0#8, 0x80#8] = .ok (.decode, []) ∧ decode .cmd [0x03#8, 0#8, 0#8, 0#8] = .ok (.peekSize, []) ∧
      decode .cmd [0x0C#8, 0#8, 0#8, 0#8] = .ok (.isYaz0, []) :=
  ⟨rfl, rfl, rfl, rfl, rfl⟩

/-- The reserved codes (30_encoding R82). -/
theorem test_decode_reserved :
    decode .cmd [0x05#8, 0#8, 0#8, 0#8] = .ok (.reserved5, []) ∧ decode .cmd [0x06#8, 0#8, 0#8, 0#8] = .ok (.reserved6, []) ∧
      decode .cmd [0x07#8, 0#8, 0#8, 0#8] = .ok (.reserved7, []) :=
  ⟨rfl, rfl, rfl⟩

/-- The stream's items: H(16), FLAG 0xFF, LIT 'A', SM l=6 d=4, LM l=255 d=1 (30_encoding R83 to R90; 95_test_vectors 1.1). -/
theorem test_decode_stream :
    decode .hdr (header 16#8) = .ok (.hdr 16#32, []) ∧ decode .flag [0xFF#8] = .ok (.flag 0xFF#8, []) ∧
      decode .lit [0x41#8] = .ok (.lit 0x41#8, []) ∧ decode .mtch [0x40#8, 0x03#8] = .ok (.sm 4#4 3#12, []) ∧
      decode .mtch [0x00#8, 0x00#8, 0xED#8] = .ok (.lm 0#12 0xED#8, []) :=
  ⟨rfl, rfl, rfl, rfl, rfl⟩

/-- Header bytes 8-15 do not matter, another magic is no header, and a match cut short is none (30_encoding R84, R83, R94). -/
theorem test_decode_rejects :
    decode .hdr ([0x59#8, 0x61#8, 0x7A#8, 0x30#8, 0#8, 0#8, 1#8, 2#8] ++ List.replicate 8 0xEE#8) = .ok (.hdr 0x102#32, []) ∧
      decode .hdr ([0x59#8, 0x61#8, 0x7A#8, 0x31#8, 0#8, 0#8, 1#8, 2#8] ++ List.replicate 8 0#8) = .error .badMagic ∧
      decode .mtch [0x0F#8, 0xFF#8] = .error .truncated ∧ decode .mtch [0x1F#8] = .error .truncated :=
  ⟨rfl, rfl, rfl, rfl⟩

/-- length 3, distance 1; length 17, distance 4096; length 18 and 273 (95_test_vectors 1.3). -/
theorem test_encode_matches :
    encode (matchInstr 3 1) = [0x10#8, 0x00#8] ∧ encode (matchInstr 17 4096) = [0xFF#8, 0xFF#8] ∧
      encode (matchInstr 18 1) = [0x00#8, 0x00#8, 0x00#8] ∧ encode (matchInstr 273 4096) = [0x0F#8, 0xFF#8, 0xFF#8] := by decide

/-- Words of the table's rows: CMD 4, byte 0 of LM alone, and `00 00 ED` and `40 03` with byte 0 as bits 7:0 (log 15). -/
theorem test_table_words :
    decodeTableWord 32 4 = some .isYaz0 ∧ decodeTableWord 8 0 = some (.lm 0#12 0#8) ∧
      decodeTableWord 24 0xED0000 = some (.lm 0#12 0xED#8) ∧ decodeTableWord 16 0x0340 = some (.sm 4#4 3#12) := by decide

/-- The state with a table word placed runs it in its next step: LM copies 18 bytes (log 16). -/
theorem test_withFetchWord :
    step (State.reset.withFetchWord 8 0) = exec (.lm 0#12 0#8) (State.reset.withFetchWord 8 0) ∧
      step (State.reset.withFetchWord 32 4) = exec .isYaz0 State.reset := ⟨rfl, rfl⟩

/-! ### Primitives and the writer -/

/-- `hash3(0x434241) = 5432` (41_primitives R132). -/
theorem test_hash : hash3 0x434241#24 = 5432#14 := by decide

/-- Over "ABCABCABCX", `compare_prefix(0, 3, 9) = 6` and `compare_prefix(0, 3, 10) = 6` (41_primitives R134). -/
theorem test_comparePrefix :
    let s := ready [0x41#8, 0x42#8, 0x43#8, 0x41#8, 0x42#8, 0x43#8, 0x41#8, 0x42#8, 0x43#8, 0x58#8]
    comparePrefix s 0 3 9 = 6 ∧ comparePrefix s 0 3 10 = 6 := by decide

/-- The chunks of 274, 276, 290 and 547 (43_flag_group_writer R167). -/
theorem test_chunks :
    chunks 274 3 = [271, 3] ∧ chunks 276 3 = [273, 3] ∧ chunks 290 3 = [273, 17] ∧ chunks 547 4 = [273, 271, 3] := by decide

/-- At `fp = 16`, `op = 17`, `mask = 0x80`, emitting 0x41 writes 0x80 and 0x41 (43_flag_group_writer R161). -/
theorem test_emitLiteral :
    let t := emitLiteral searching 0x41#8
    t.dstByte 16 = 0x80#8 ∧ t.dstByte 17 = 0x41#8 ∧ t.wr.op = 18#32 ∧ t.wr.mask = 0x40#8 := by decide

/-! ### One step of each instruction -/

/-- After reset, IS_YAZ0 of "Yaz1" answers 0 and of "Yaz0" 1 (46_header_utilities R232). -/
theorem test_isYaz0 :
    (isYaz0Move (running .isYaz0 [0x59#8, 0x61#8, 0x7A#8, 0x31#8])).result = 0#32 ∧
      (isYaz0Move (running .isYaz0 [0x59#8, 0x61#8, 0x7A#8, 0x30#8])).result = 1#32 := by decide

/-- The outcome's state, or the given one. -/
def stateOf (o : Host.Outcome State Fault Refusal) (s : State) : State :=
  match o with
  | .next t => t
  | .fault _ => s
  | .refused _ => s

/-- The state one step later. -/
def stepped (s : State) : State := stateOf (step s) s

/-- PEEK_SIZE of a 16-byte stream answers its size; STATUS 0x2 (46_header_utilities R230). -/
theorem test_peekSize :
    (stepped (running .peekSize (header 16#8))).result = 16#32 ∧ (stepped (running .peekSize (header 16#8))).status = 0x2#32 := by decide

/-- PEEK_SIZE below eight bytes: SHORT_INPUT, 0x606 (46_header_utilities R230). -/
theorem test_peekSize_short : (stepped (running .peekSize [0x59#8, 0x61#8, 0x7A#8, 0x30#8, 0#8, 0#8, 0#8])).status = 0x606#32 := by decide

/-- A write of CMD starts IS_YAZ0, and a second one while BUSY is ignored (40_command_interface R110, 10_state R22). -/
theorem test_start :
    (stepped (withAct sixteen (.wr .word 0#32 4#32))).ctrl = .busy .isYaz0 ∧
      (stepped { running .decode sixteen with host := [.wr .word 0#32 4#32] }).ctrl = .busy .decode := by decide

/-- NOP leaves STATUS as it is; `WR CMD, 5` gives STATUS 0x106 (40_command_interface R115, R116). -/
theorem test_nop_reserved :
    (stepped { encodedOne with host := [.wr .word 0#32 0xFFFFFFF8#32] }).status = 0x2#32 ∧
      (stepped (withAct [] (.wr .word 0#32 5#32))).status = 0x106#32 ∧ (stepped (withAct [] (.wr .word 0#32 6#32))).status = 0x106#32 ∧
      (stepped (withAct [] (.wr .word 0#32 7#32))).status = 0x106#32 := by decide

/-- ENCODE needs BOUND(n): 18 of one byte's 19 fail with ENC_DST_SMALL, 0x506; 19 are accepted (44_encoder R181). -/
theorem test_encode_start :
    (start .encode { ready [0x41#8] with dstCap := 18#32 }).status = 0x506#32 ∧
      (start .encode { ready [0x41#8] with dstCap := 19#32 }).status = 0x1#32 := by decide

/-- Regions: one ending at 2^32 passes, one byte more is REGION_WRAP, 0x206; touching regions pass, a shared byte is
REGION_OVERLAP, 0x306 (40_command_interface R113, R114). -/
theorem test_regions :
    (start .decode { ready sixteen with srcAddr := 0xFFFFFFF0#32 }).status = 0x1#32 ∧
      (start .decode { ready sixteen with srcAddr := 0xFFFFFFF1#32 }).status = 0x206#32 ∧
      (start .decode { ready sixteen with dstAddr := 0x1010#32 }).status = 0x1#32 ∧
      (start .decode { ready sixteen with dstAddr := 0x100F#32 }).status = 0x306#32 := by decide

/-- ENCODE of one byte: RESULT 18, STATUS 0x2, flag byte 0x80 and the byte itself (44_encoder R188, R187). -/
theorem test_encode_one :
    encodedOne.result = 18#32 ∧ encodedOne.status = 0x2#32 ∧ encodedOne.dstByte 16 = 0x80#8 ∧ encodedOne.dstByte 17 = 0x41#8 := by decide

/-- The probe at `ip = 2` over equal bytes reads the cleared slot as position 0 and accepts; the match ends at `n - 4`
(42_match_finder R148, R144, R145). -/
theorem test_probe : accepted.phase = .accepted ∧ accepted.enc.distance = 2#33 ∧ matchLength accepted = 10 := by decide

/-- A header starts the loop; one of size 0 is ZERO_SIZE, 0x806; one above the capacity is SIZE_GT_CAP, 0x906 (45_decoder R202). -/
theorem test_header :
    (stepped (running .decode (header 16#8))).phase = .tokens ∧ (stepped (running .decode (header 0#8))).status = 0x806#32 ∧
      (stepped (running .decode (header 65#8))).status = 0x906#32 := by decide

/-- The fetch of FLAG 0xFF (45_decoder R204); at the stream's end it is TRUNC_FLAG, 0xA06. -/
theorem test_flag :
    (stepped (inLoop [0xFF#8] 0#32 0#32 0#8 0#4)).dec.flag = 0xFF#8 ∧ (stepped (inLoop [0xFF#8] 0#32 0#32 0#8 0#4)).dec.bits = 8#4 ∧
      (stepped (inLoop [0xFF#8] 1#32 0#32 0#8 0#4)).status = 0xA06#32 := by decide

/-- `LIT 0x41` at `written = 0` (45_decoder R206); at the stream's end it is TRUNC_LITERAL, 0xB06. -/
theorem test_lit :
    (stepped (inLoop [0x41#8] 0#32 0#32 0x80#8 8#4)).dstByte 0 = 0x41#8 ∧
      (stepped (inLoop [0x41#8] 1#32 0#32 0x80#8 8#4)).status = 0xB06#32 := by decide

/-- After "abcd", `40 03` appends "abcdab" (45_decoder R211). -/
theorem test_sm :
    let t := stepped (afterAbcd [0x40#8, 0x03#8])
    [t.dstByte 4, t.dstByte 7, t.dstByte 8, t.dstByte 9] = [0x61#8, 0x64#8, 0x61#8, 0x62#8] ∧ t.dec.written = 10#32 := by decide

/-- After "abcd", `00 00 00` appends eighteen 0x64; `00 04 00` is BAD_DISTANCE, 0xE06 (45_decoder R212, R208, R219). -/
theorem test_lm :
    (stepped (afterAbcd [0x00#8, 0x00#8, 0x00#8])).dstByte 21 = 0x64#8 ∧ (stepped (afterAbcd [0x00#8, 0x00#8, 0x00#8])).dec.written = 22#32 ∧
      (stepped (afterAbcd [0x00#8, 0x04#8, 0x00#8])).status = 0xE06#32 := by decide

/-- A long match without its third byte is TRUNC_MATCH, 0xD06; one past the size is SIZE_OVERRUN, 0x1006; past the capacity
CAP_OVERRUN, 0xF06 (45_decoder R207, R208). -/
theorem test_match_errors :
    (stepped (afterAbcd [0x00#8, 0x00#8])).status = 0xD06#32 ∧ (stepped (afterAbcd [0x00#8, 0x00#8, 19#8])).status = 0x1006#32 ∧
      (stepped (afterAbcd [0x00#8, 0x00#8, 43#8])).status = 0xF06#32 := by decide

/-! ### The host -/

/-- WAIT stays pending while the block runs, and ends with STATUS read (30_encoding R97). -/
theorem test_wait :
    (stepped { running .isYaz0 [] with host := [.wait] }).host = [.wait] ∧ (stepped { running .isYaz0 [] with host := [.wait] }).ctrl = .idle ∧
      (stepped { encodedOne with host := [.wait] }).portData = 0x2#32 ∧ (stepped { encodedOne with host := [.wait] }).host = [] := by decide

/-- Writes to read-only and reserved offsets are ignored; CMD reads 0 (10_state R21). -/
theorem test_port :
    (stepped { encodedOne with host := [.wr .word 0x18#32 9#32] }).result = 18#32 ∧
      (stepped { encodedOne with host := [.rd .word 0x18#32] }).portData = 18#32 ∧
      (stepped { encodedOne with host := [.rd .word 0x00#32] }).portData = 0#32 := by decide

/-- Reset while idle: RESULT and the parameters are lost, memory is not (70_reset_and_hazards R272). -/
theorem test_reset :
    let t := stepped { encodedOne with host := [.reset] }
    t.result = 0#32 ∧ t.dstAddr = 0#32 ∧ t.memRead 0x8000#32 = 0x59#8 := by decide

/-! ### Witnesses: states and operands that meet the hypotheses of the obligations

A theorem witness_<Name> names the obligation it is for. Where a statement has several clauses, there is a witness for each. -/

theorem step_encode {s : State} (hh : s.host = []) (hc : s.ctrl = .busy .encode) : step s = .next (encodeMove s) := by
  simp [step, turn, blockTurn, hh, hc, perform]

theorem step_searching : step searching = .next (encodeMove searching) := step_encode rfl rfl

theorem step_accepted : step accepted = .next (encodeMove accepted) := step_encode rfl rfl

theorem searching_params : ParamsOk searching := by intro op h; cases h; decide

theorem searching_stores : StoresOk searching := ⟨by decide, by decide⟩

theorem searching_encodeOk : EncodeOk searching := by
  intro _
  exact ⟨rfl, by decide, fun _ => ⟨⟨⟨0, by decide, rfl, by decide⟩, rfl, by decide, by decide, rfl⟩, by unfold HeaderOk; decide, by decide, by decide,
    by decide⟩, fun h => (by cases h)⟩

theorem searching_inv : Inv searching :=
  ⟨⟨rfl, rfl⟩, searching_stores, searching_params, fun h => (by cases h), searching_encodeOk⟩

theorem accepted_params : ParamsOk accepted := by intro op h; cases h; decide

theorem accepted_stores : StoresOk accepted := ⟨by decide, by decide⟩

theorem accepted_encodeOk : EncodeOk accepted := by
  intro _
  exact ⟨rfl, by decide, fun _ => ⟨⟨⟨0, by decide, rfl, by decide⟩, rfl, by decide, by decide, rfl⟩, by unfold HeaderOk; decide, by decide, by decide,
    by decide⟩, fun _ => by decide⟩

/-- DECODE before its second literal of an eight-byte stream's tail. -/
def looping : State := inLoop (List.replicate 20 0x41#8) 18#32 1#32 0xC0#8 7#4

theorem looping_params : ParamsOk looping := by intro op h; cases h; decide

theorem looping_decodeOk : DecodeOk looping := fun _ => by decide

theorem looping_inv : Inv looping :=
  ⟨⟨rfl, rfl⟩, ⟨by decide, by decide⟩, looping_params, looping_decodeOk, fun h => (by cases h)⟩

theorem ready_inv : Inv (ready sixteen) :=
  ⟨.inl ⟨rfl, rfl⟩, ⟨by decide, by decide⟩, fun _ h => (by cases h), fun h => (by cases h), fun h => (by cases h)⟩

theorem witness_DecodeOfEncode : wellFormed (.sm 1#4 0xFFF#12) = true ∧ wellFormed (.lm 0#12 0xFF#8) = true ∧ wellFormed .nop = true := by
  decide

theorem witness_EncodeOfDecodedMatch :
    decode .mtch [0x1F#8, 0xFF#8, 7#8] = .ok (.sm 1#4 0xFFF#12, [7#8]) ∧ decode .mtch [0x0F#8, 0xFF#8, 7#8] = .ok (.lm 0xFFF#12 7#8, []) :=
  ⟨rfl, rfl⟩

theorem witness_MatchOperandAssembly : (0x10#8).toNat / 16 ≠ 0 ∧ (0x0F#8).toNat / 16 = 0 := by decide

/-- Length 17 takes the first clause, 18 the second. -/
theorem witness_MatchTokenBytes : 3 ≤ 17 ∧ 17 ≤ 17 ∧ 18 ≤ 18 ∧ 18 ≤ 273 ∧ 1 ≤ 4096 ∧ 4096 ≤ 4096 := by decide

theorem witness_OneEncodingPerMatch :
    wellFormed (.sm 15#4 0xFFF#12) = true ∧ matchOperands (.sm 15#4 0xFFF#12) = some (17, 4096) ∧
      wellFormed (.lm 0#12 0#8) = true ∧ matchOperands (.lm 0#12 0#8) = some (18, 1) := by decide

theorem witness_HeaderDecodes :
    (List.replicate 8 0xEE#8).length = 8 ∧ 8 ≤ [0x59#8, 0x61#8, 0x7A#8, 0x31#8, 0#8, 0#8, 0#8, 0#8].length ∧
      [0x59#8, 0x61#8, 0x7A#8, 0x31#8, 0#8, 0#8, 0#8, 0#8].take 4 ≠ [0x59#8, 0x61#8, 0x7A#8, 0x30#8] := by decide

theorem witness_CommandWriteRuns : (withAct sixteen (.wr .word 0#32 1#32)).host = [.wr .word 0#32 1#32] := rfl

/-- DECODE's header and PEEK_SIZE's. -/
theorem witness_StreamItemRuns_header :
    let s := running .decode (header 16#8)
    let p := running .peekSize (header 16#8)
    s.host = [] ∧ s.ctrl = .busy .decode ∧ s.phase = .begin ∧ 16 ≤ s.dec.n.toNat ∧ p.host = [] ∧ p.ctrl = .busy .peekSize ∧
      8 ≤ p.srcLen.toNat ∧ decode .hdr (s.srcBytes 0 8) = .ok (.hdr 16#32, []) ∧ decode .hdr (p.srcBytes 0 8) = .ok (.hdr 16#32, []) :=
  ⟨rfl, rfl, rfl, by decide, rfl, rfl, by decide, rfl, rfl⟩

/-- The loop's four items, each the last bytes of its stream. -/
theorem witness_StreamItemRuns_items :
    (InLoop (inLoop [0xFF#8] 0#32 0#32 0#8 0#4) ∧ (0#32).toNat < (1#32).toNat) ∧ AtLiteral (inLoop [0x41#8] 0#32 0#32 0x80#8 8#4) ∧
      AtMatch (afterAbcd [0x40#8, 0x03#8]) ∧ AtMatch (afterAbcd [0x00#8, 0x00#8, 0x00#8]) ∧
      decode .mtch ((afterAbcd [0x40#8, 0x03#8]).srcBytes 0 2) = .ok (.sm 4#4 3#12, []) ∧
      decode .mtch ((afterAbcd [0x00#8, 0x00#8, 0x00#8]).srcBytes 0 3) = .ok (.lm 0#12 0#8, []) :=
  ⟨by decide, by decide, by decide, by decide, rfl, rfl⟩

theorem witness_BlockNeverStops : (ready sixteen).host = [] ∧ (ready sixteen).ctrl = .idle ∧ searching.host = [] ∧ searching.ctrl ≠ .idle := by
  decide

theorem witness_ItemsOutOfPlaceRefused :
    (ready []).ctrl ≠ .busy .peekSize ∧ ¬ ((ready []).ctrl = .busy .decode ∧ (ready []).phase = .begin) ∧
      ¬ (InLoop (ready []) ∧ (ready []).dec.bits = 0#4) ∧ ¬ AtLiteral (ready []) ∧ selectOf (.sm 1#4 0#12) = .mtch ∧ ¬ AtMatch (ready []) := by
  decide

/-- Idle and busy reads and an idle write at the window's last word, a byte access, and the first offset past the window. -/
theorem witness_RegisterPort :
    (ready []).ctrl = .idle ∧ (withAct [] (.rd .word 0xFC#32)).host = [.rd .word 0xFC#32] ∧ (0xFC#32).toNat % 4 = 0 ∧
      (0xFC#32).toNat < 0x100 ∧ (let s := { running .decode [] with host := [.rd .word 0xFC#32] }; s.host = [.rd .word 0xFC#32]) ∧
      (withAct [] (.wr .word 0x14#32 7#32)).host = [.wr .word 0x14#32 7#32] ∧
      (withAct [] (.wr .byte 0x14#32 7#32)).host = [.wr .byte 0x14#32 7#32] ∧ (Width.byte ≠ .word) ∧
      (withAct [] (.rd .word 0x100#32)).host = [.rd .word 0x100#32] ∧ (0x100#32).toNat % 4 = 0 ∧ 0x100 ≤ (0x100#32).toNat := by decide

theorem witness_BusyPort :
    let s := { running .decode sixteen with host := [.wr .word 0#32 1#32] }
    s.ctrl = .busy .decode ∧ StatusOk s ∧ (0#32).toNat % 4 = 0 ∧ (0#32).toNat < 0x100 ∧ s.host = [.wr .word 0#32 1#32] :=
  ⟨rfl, ⟨rfl, rfl⟩, by decide, by decide, rfl⟩

/-- RESULT, CMD and the first reserved offset. -/
theorem witness_BusyPort_read :
    let s := { running .decode sixteen with host := [.rd .word 0x18#32] }
    let c := { running .decode sixteen with host := [.rd .word 0x00#32] }
    let r := { running .decode sixteen with host := [.rd .word 0x1C#32] }
    s.ctrl = .busy .decode ∧ StatusOk s ∧ (0x18#32).toNat % 4 = 0 ∧ (0x18#32).toNat < 0x100 ∧ s.host = [.rd .word 0x18#32] ∧
      c.ctrl = .busy .decode ∧ StatusOk c ∧ c.host = [.rd .word 0x00#32] ∧ r.ctrl = .busy .decode ∧ StatusOk r ∧
      r.host = [.rd .word 0x1C#32] ∧ (0x1C#32).toNat % 4 = 0 ∧ 0x1C ≤ (0x1C#32).toNat :=
  ⟨rfl, ⟨rfl, rfl⟩, by decide, by decide, rfl, rfl, ⟨rfl, rfl⟩, rfl, rfl, ⟨rfl, rfl⟩, rfl, by decide, by decide⟩

/-- A byte access, an offset that is no multiple of 4, and the first offset past the window. -/
theorem witness_BusyPort_refused :
    let s := { running .decode sixteen with host := [.wr .byte 0x14#32 7#32] }
    let m := { running .decode sixteen with host := [.rd .word 0x16#32] }
    let p := { running .decode sixteen with host := [.rd .word 0x100#32] }
    s.ctrl = .busy .decode ∧ StatusOk s ∧ s.host = [.wr .byte 0x14#32 7#32] ∧ Width.byte ≠ .word ∧
      m.ctrl = .busy .decode ∧ StatusOk m ∧ m.host = [.rd .word 0x16#32] ∧ (0x16#32).toNat % 4 ≠ 0 ∧
      p.ctrl = .busy .decode ∧ StatusOk p ∧ p.host = [.rd .word 0x100#32] ∧ (0x100#32).toNat % 4 = 0 ∧ 0x100 ≤ (0x100#32).toNat :=
  ⟨rfl, ⟨rfl, rfl⟩, rfl, by decide, rfl, ⟨rfl, rfl⟩, rfl, by decide, rfl, ⟨rfl, rfl⟩, rfl, by decide, by decide⟩

/-- Running, and after an error: ERR clear and ERR set. -/
theorem witness_StatusLayout :
    StatusOk searching ∧ searching.status.getLsbD 2 = false ∧
      StatusOk ((running .decode []).raise .shortInput) ∧ ((running .decode []).raise .shortInput).status.getLsbD 2 = true :=
  ⟨⟨rfl, rfl⟩, by decide, .inr (.inr ⟨.shortInput, rfl, rfl⟩), by decide⟩

theorem witness_StatusKept : StatusOk searching ∧ step searching = .next (encodeMove searching) := ⟨⟨rfl, rfl⟩, step_searching⟩

theorem witness_StoresKept : StoresOk searching ∧ step searching = .next (encodeMove searching) :=
  ⟨searching_stores, step_searching⟩

theorem witness_ParametersKept :
    (∀ w off v rest, searching.host ≠ .wr w off v :: rest) ∧ (∀ rest, searching.host ≠ .reset :: rest) ∧ step searching = .next (encodeMove searching) :=
  ⟨fun _ _ _ _ h => (by cases h), fun _ h => (by cases h), step_searching⟩

theorem witness_BlockWritesOnlyItsDestination :
    looping.host = [] ∧ Inv looping ∧ step looping = .next (stepped looping) ∧ ¬ InDst looping 0x8040#32 ∧ looping.ctrl ≠ .idle ∧
      InSrc looping 0x1000#32 ∧ looping.ctrl = .busy .decode :=
  ⟨rfl, looping_inv, rfl, by unfold InDst; decide, by decide, by unfold InSrc; decide, rfl⟩

/-- PEEK_SIZE and IS_YAZ0 write nothing. -/
theorem witness_BlockWritesOnlyItsDestination_utilities :
    let s := running .isYaz0 sixteen
    s.host = [] ∧ Inv s ∧ step s = .next (stepped s) ∧ s.ctrl ≠ .busy .encode ∧ s.ctrl ≠ .busy .decode :=
  ⟨rfl, ⟨⟨rfl, rfl⟩, ⟨by decide, by decide⟩, fun op h => (by cases h; decide), fun h => (by cases h), fun h => (by cases h)⟩, rfl, by decide,
    by decide⟩

/-- The first destination byte, the last source byte, and the first byte after each region, while DECODE runs. -/
theorem witness_HostMemoryAccess :
    let s := running .decode sixteen
    s.ctrl = .busy .decode ∧ InDst s 0x8000#32 ∧ ¬ InDst s 0x8040#32 ∧ InSrc s 0x100F#32 ∧ ¬ InSrc s 0x1010#32 ∧
      ¬ InSrc s 0x8040#32 ∧ { s with host := [.memWr 0x8000#32 1#8] }.host = [.memWr 0x8000#32 1#8] ∧
      { s with host := [.memRd 0x8040#32] }.host = [.memRd 0x8040#32] := by
  unfold InDst InSrc; decide

theorem witness_ResetInput : (withAct sixteen .reset).host = [.reset] ∧ (withAct sixteen .reset).ctrl = .idle := by decide

theorem witness_ResetWhileBusy :
    let s := { looping with host := [.reset] }
    s.host = [.reset] ∧ s.ctrl = .busy .decode ∧ ParamsOk s ∧ Memory.wf s.mem ∧ ¬ InDst s 0x1000#32 ∧ 0 < s.dstCap.toNat :=
  ⟨rfl, rfl, fun op h => (by cases h; decide), by decide, by unfold InDst; decide, by decide⟩

theorem witness_ResetWhileBusy_utilities :
    let s := { running .isYaz0 sixteen with host := [.reset] }
    s.host = [.reset] ∧ s.ctrl = .busy .isYaz0 ∧ ParamsOk s ∧ Memory.wf s.mem ∧ Op.isYaz0 ≠ .encode ∧ Op.isYaz0 ≠ .decode :=
  ⟨rfl, rfl, fun op h => (by cases h; decide), by decide, by decide, by decide⟩

theorem witness_NopChangesNothing : (0xFFFFFFF8#32).toNat % 8 = 0 := by decide

theorem witness_ReservedCodesAreIllegal : (ready sixteen).ctrl = .idle := rfl

/-- Each region one byte past the end of memory, one shared byte, and a placement that passes. -/
theorem witness_RegionChecks :
    (ready sixteen).ctrl = .idle ∧ SrcWraps { ready sixteen with srcAddr := 0xFFFFFFF1#32 } ∧
      DstWraps { ready sixteen with dstAddr := 0xFFFFFFC1#32 } ∧
      (let s := { ready sixteen with dstAddr := 0x100F#32 }; ¬ SrcWraps s ∧ ¬ DstWraps s ∧ RegionsShare s) ∧
      ¬ SrcWraps { ready sixteen with srcAddr := 0xFFFFFFF0#32 } := by decide

/-- One byte above the longest input, and one byte below the bound. -/
theorem witness_EncodeStartChecks :
    (let s := { ready [] with srcAddr := 0#32, srcLen := 0x80000000#32, dstAddr := 0x80000000#32 };
      s.ctrl = .idle ∧ RegionsFit s ∧ 2 ^ 31 - 1 < s.srcLen.toNat) ∧
      (let s := { ready [0x41#8] with dstCap := 18#32 };
        s.ctrl = .idle ∧ RegionsFit s ∧ s.srcLen.toNat ≤ 2 ^ 31 - 1 ∧
          s.dstCap.toNat < 16 + s.srcLen.toNat + (s.srcLen.toNat + 7) / 8 + 1) := by decide

theorem witness_EncodeAndDecodeAccepted :
    let s := { ready [0x41#8] with dstCap := 19#32 }
    s.ctrl = .idle ∧ RegionsFit s ∧ s.srcLen.toNat ≤ 2 ^ 31 - 1 ∧
      16 + s.srcLen.toNat + (s.srcLen.toNat + 7) / 8 + 1 ≤ s.dstCap.toNat := by decide

/-- Three bytes of the magic are not enough, four are. -/
theorem witness_IsYaz0Answers :
    let s := ready [0x59#8, 0x61#8, 0x7A#8, 0x30#8]
    let u := { s with srcLen := 3#32 }
    s.host = [] ∧ s.ctrl = .idle ∧ ¬ SrcWraps s ∧ 4 ≤ s.srcLen.toNat ∧ SrcMagic s ∧ u.host = [] ∧ u.ctrl = .idle ∧ ¬ SrcWraps u ∧
      ¬ (4 ≤ u.srcLen.toNat ∧ SrcMagic u) := by decide

theorem witness_PeekSizeAnswers :
    let s := ready (header 0#8)
    let u := { s with srcLen := 7#32 }
    let v := ready [0x59#8, 0x61#8, 0x7A#8, 0x31#8, 0#8, 0#8, 0#8, 0#8]
    s.host = [] ∧ s.ctrl = .idle ∧ ¬ SrcWraps s ∧ 8 ≤ s.srcLen.toNat ∧ SrcMagic s ∧ ¬ SrcWraps u ∧ u.srcLen.toNat < 8 ∧
      ¬ SrcWraps v ∧ 8 ≤ v.srcLen.toNat ∧ ¬ SrcMagic v := by decide

theorem witness_MagicTestsAgree :
    let s := ready (header 16#8)
    s.host = [] ∧ s.ctrl = .idle ∧ RegionsFit s ∧ 16 ≤ s.srcLen.toNat ∧
      exec .isYaz0 s = .next (s.accept .isYaz0) ∧ step (s.accept .isYaz0) = .next (stepped (s.accept .isYaz0)) ∧
      exec .peekSize s = .next (s.accept .peekSize) ∧ step (s.accept .peekSize) = .next (stepped (s.accept .peekSize)) ∧
      exec .decode s = .next (s.accept .decode) ∧ step (s.accept .decode) = .next (stepped (s.accept .decode)) :=
  ⟨rfl, rfl, by decide, by decide, rfl, rfl, rfl, rfl, rfl, rfl⟩

/-- A declared size of exactly the capacity. -/
theorem witness_HeaderStartsLoop :
    let s := running .decode (header 64#8)
    s.ctrl = .busy .decode ∧ s.phase = .begin ∧ 16 ≤ s.dec.n.toNat ∧ 64#32 ≠ 0#32 ∧ (64#32).toNat ≤ s.dec.cap.toNat := by decide

theorem witness_HeaderErrors_start :
    let s := running .decode (header 0#8)
    s.host = [] ∧ s.ctrl = .busy .decode ∧ s.phase = .begin ∧ s.dec.n = s.srcLen := by decide

/-- Fifteen bytes; sixteen with another magic; size 0; size 65 of 64; size 64. -/
theorem witness_HeaderErrors :
    (running .decode ((header 1#8).take 15)).srcLen.toNat < 16 ∧
      (16 ≤ (running .decode sixteen).srcLen.toNat ∧ ¬ SrcMagic (running .decode sixteen)) ∧
      (let s := running .decode (header 0#8); 16 ≤ s.srcLen.toNat ∧ SrcMagic s ∧ srcSize s = 0) ∧
      (let s := running .decode (header 65#8); SrcMagic s ∧ srcSize s ≠ 0 ∧ s.dec.cap.toNat < srcSize s) ∧
      (let s := running .decode (header 64#8); SrcMagic s ∧ srcSize s ≠ 0 ∧ srcSize s ≤ s.dec.cap.toNat) := by decide

theorem witness_FlagFetch :
    (let s := inLoop [0xFF#8] 0#32 0#32 0#8 0#4; InLoop s ∧ s.dec.bits = 0#4 ∧ s.dec.pos.toNat < s.dec.n.toNat) ∧
      (let s := inLoop [0xFF#8] 1#32 0#32 0#8 0#4; InLoop s ∧ s.dec.bits = 0#4 ∧ s.dec.n.toNat ≤ s.dec.pos.toNat) := by decide

/-- The last byte of the stream, its end, and a destination that is full. -/
theorem witness_LiteralToken :
    (let s := inLoop [0x41#8] 0#32 0#32 0x80#8 8#4;
      AtLiteral s ∧ Memory.wf s.mem ∧ s.dec.pos.toNat < s.dec.n.toNat ∧ s.dec.written ≠ s.dec.cap) ∧
      (let s := inLoop [0x41#8] 1#32 0#32 0x80#8 8#4; AtLiteral s ∧ s.dec.n.toNat ≤ s.dec.pos.toNat) ∧
      (let s := inLoop [0x41#8] 0#32 64#32 0x80#8 8#4;
        AtLiteral s ∧ s.dec.pos.toNat < s.dec.n.toNat ∧ s.dec.written = s.dec.cap) := by decide

/-- The largest distance that reaches back to offset 0. -/
theorem witness_ShortMatchToken :
    let s := afterAbcd [0x40#8, 0x03#8]
    wellFormed (.sm 4#4 3#12) = true ∧ AtMatch s ∧ Memory.wf s.mem ∧ s.dec.pos.toNat + 2 ≤ s.dec.n.toNat ∧
      (3#12).toNat + 1 ≤ s.dec.written.toNat ∧ s.dec.written.toNat + ((4#4).toNat + 2) ≤ s.dec.cap.toNat ∧
      s.dec.written.toNat + ((4#4).toNat + 2) ≤ s.dec.size.toNat := by decide

/-- A match that ends exactly at the declared size, 40. -/
theorem witness_LongMatchToken :
    let s := afterAbcd [0x00#8, 0x00#8, 18#8]
    AtMatch s ∧ Memory.wf s.mem ∧ s.dec.pos.toNat + 3 ≤ s.dec.n.toNat ∧ (0#12).toNat + 1 ≤ s.dec.written.toNat ∧
      s.dec.written.toNat + ((18#8).toNat + 18) ≤ s.dec.cap.toNat ∧ s.dec.written.toNat + ((18#8).toNat + 18) ≤ s.dec.size.toNat := by
  decide

/-- Two bytes for a long match; distance 5 after four bytes; a length one past the capacity, 64; and one past the size, 40. -/
theorem witness_MatchErrors :
    let s := afterAbcd [0x00#8, 0x00#8]
    let u := afterAbcd [0x00#8, 0x04#8, 0x00#8]
    AtMatch s ∧ wellFormed (.lm 0#12 0#8) = true ∧ matchOperands (.lm 0#12 0#8) = some (18, 1) ∧
      s.dec.n.toNat < s.dec.pos.toNat + (encode (.lm 0#12 0#8)).length ∧
      AtMatch u ∧ ¬ u.dec.n.toNat < u.dec.pos.toNat + (encode (.lm 4#12 0#8)).length ∧
      matchOperands (.lm 4#12 0#8) = some (18, 5) ∧ u.dec.written.toNat < 5 ∧
      matchOperands (.lm 3#12 43#8) = some (61, 4) ∧ 4 ≤ u.dec.written.toNat ∧ u.dec.cap.toNat < u.dec.written.toNat + 61 ∧
      matchOperands (.lm 3#12 19#8) = some (37, 4) ∧ u.dec.written.toNat + 37 ≤ u.dec.cap.toNat ∧
      u.dec.size.toNat < u.dec.written.toNat + 37 := by decide

theorem witness_DecodeCompletes :
    let s := inLoop [0x41#8] 1#32 40#32 0x80#8 8#4
    s.host = [] ∧ s.ctrl = .busy .decode ∧ s.phase = .tokens ∧ s.dec.written = s.dec.size := by decide

theorem witness_DecoderKept : ParamsOk looping ∧ DecodeOk looping ∧ step looping = .next (stepped looping) :=
  ⟨looping_params, looping_decodeOk, rfl⟩

theorem witness_LitCapNeverReported :
    DecodeOk looping ∧ looping.status ≠ 0xC06#32 ∧ step looping = .next (stepped looping) := ⟨looping_decodeOk, by decide, rfl⟩

theorem witness_DecodeEnds :
    (ready sixteen).host = [] ∧ (ready sixteen).ctrl = .idle ∧ RegionsFit (ready sixteen) ∧ ¬ InDst (ready sixteen) 0x7FFF#32 := by
  unfold InDst; decide

theorem witness_EncodeInitialises : Encoding (running .encode sixteen) .begin ∧ Memory.wf (running .encode sixteen).mem := by decide

theorem witness_EncodeForgetsThePast :
    let s := running .encode sixteen
    Encoding s .begin ∧ accepted.enc.n = s.enc.n ∧ step s = .next searching ∧
      step { s with ht := [(5, 7#32)], wr := accepted.wr, enc := accepted.enc } =
        .next (stepped { s with ht := [(5, 7#32)], wr := accepted.wr, enc := accepted.enc }) := ⟨by decide, rfl, rfl, rfl⟩

/-- Two states that are to encode the same byte, and their runs. -/
theorem witness_EncodeForgetsThePast_run :
    let s := ready [0x41#8]
    let s' := readyElsewhere
    (EncodeReady s ∧ EncodeReady s' ∧ s'.srcLen = s.srcLen ∧ ∀ i, i < s.srcLen.toNat → s'.srcByte i = s.srcByte i) ∧
      exec .encode s = .next (s.accept .encode) ∧ Host.Core.run Sys2Proof.core 3 (s.accept .encode) = .next (encoded s) ∧
      (encoded s).ctrl = .idle ∧ exec .encode s' = .next (s'.accept .encode) ∧
      Host.Core.run Sys2Proof.core 3 (s'.accept .encode) = .next (encoded s') ∧ (encoded s').ctrl = .idle :=
  ⟨⟨⟨rfl, rfl, ⟨by decide, by decide⟩, by decide, by decide, by decide⟩, ⟨rfl, rfl, ⟨by decide, by decide⟩, by decide, by decide, by decide⟩,
    rfl, by decide⟩, rfl, rfl, rfl, rfl, rfl, rfl⟩

theorem witness_ProbeStep :
    Encoding searching .search ∧ HashTable.wf searching.ht ∧ searching.enc.ip.toNat + 13 < searching.enc.n.toNat := by decide

/-- The candidate 0 is good here, and not once the third byte differs. -/
theorem witness_ProbeStep_clauses :
    (seq3 searching 0 = seq3 searching 2 ∧ searching.htGet (hash3 (seq3 searching 2)) = 0#32) ∧
      seq3 (searching.memWrite 0x1004#32 0x42#8) 0 ≠ seq3 (searching.memWrite 0x1004#32 0x42#8) 2 := by decide

theorem witness_MatchesAgree : mayProbe accepted = true ∧ accepts accepted accepted.enc.ref.toNat accepted.enc.ip.toNat = true := by decide

theorem witness_GroupOpens : Memory.wf searching.mem := by decide

/-- A mask with bits to go, and the last bit of a group. -/
theorem witness_LiteralEmission :
    let u : State := { searching with wr := { searching.wr with mask := 1#8 } }
    Memory.wf searching.mem ∧ searching.wr.fp.toNat < searching.wr.op.toNat ∧ searching.wr.op.toNat + 2 < 2 ^ 32 ∧
      ¬ searching.wr.mask >>> 1 = 0#8 ∧ u.wr.mask >>> 1 = 0#8 := by decide

/-- Both forms' lengths, with a mask with bits to go and with the last bit of a group. -/
theorem witness_MatchEmission :
    let u : State := { searching with wr := { searching.wr with mask := 1#8 } }
    Memory.wf searching.mem ∧ searching.wr.op.toNat + 4 < 2 ^ 32 ∧ 3 ≤ 17 ∧ 18 ≤ 273 ∧ 1 ≤ 4096 ∧ ¬ searching.wr.mask >>> 1 = 0#8 ∧
      Memory.wf u.mem ∧ u.wr.op.toNat + 4 < 2 ^ 32 ∧ u.wr.mask >>> 1 = 0#8 := by decide

/-- The shortest tail, and both sides of the split. -/
theorem witness_MatchSplitting : 3 ≤ 3 ∧ 3 ≤ 273 ∧ 273 ≤ 275 ∧ 274 ≤ 275 ∧ ¬ 274 ≤ 273 := by decide

theorem witness_MatchStep : Encoding accepted .accepted ∧ ParamsOk accepted ∧ StoresOk accepted ∧ EncodeOk accepted :=
  ⟨by decide, accepted_params, accepted_stores, accepted_encodeOk⟩

/-- The first position past the loop's bound, for an input of fifteen bytes; and the flushed phase. -/
theorem witness_EncodeTail :
    let s := initEncode (running .encode (sixteen.take 15))
    Encoding s .search ∧ s.enc.n.toNat ≤ s.enc.ip.toNat + 13 ∧
      Encoding (tailFlush (initEncode (running .encode [0x41#8]))) .flushed := by decide

theorem witness_EncoderKept : ParamsOk accepted ∧ StoresOk accepted ∧ EncodeOk accepted ∧ step accepted = .next (encodeMove accepted) :=
  ⟨accepted_params, accepted_stores, accepted_encodeOk, step_accepted⟩

theorem witness_MaskAndBound :
    ParamsOk searching ∧ EncodeOk searching ∧ searching.ctrl = .busy .encode ∧ searching.phase ≠ .begin :=
  ⟨searching_params, searching_encodeOk, rfl, by decide⟩

theorem witness_EncodeEnds :
    let s := { ready [0x41#8] with dstCap := 19#32 }
    s.host = [] ∧ s.ctrl = .idle ∧ StoresOk s ∧ RegionsFit s ∧ s.srcLen.toNat ≤ 2 ^ 31 - 1 ∧
      16 + s.srcLen.toNat + (s.srcLen.toNat + 7) / 8 + 1 ≤ s.dstCap.toNat :=
  ⟨rfl, rfl, ⟨by decide, by decide⟩, by decide, by decide, by decide⟩

/-- One byte, encoded in three steps of the block, and DECODE set up on the eighteen bytes it left. -/
theorem witness_RoundTrip :
    let s := ready [0x41#8]
    let v := { encodedOne with srcAddr := 0x8000#32, srcLen := 18#32, dstAddr := 0x9000#32, dstCap := 1#32 }
    (s.host = [] ∧ s.ctrl = .idle ∧ StoresOk s ∧ RegionsFit s ∧ s.srcLen.toNat ≤ 2 ^ 31 - 1 ∧
      16 + s.srcLen.toNat + (s.srcLen.toNat + 7) / 8 + 1 ≤ s.dstCap.toNat ∧ 1 ≤ s.srcLen.toNat) ∧
    (exec .encode s = .next (s.accept .encode) ∧ Host.Core.run Sys2Proof.core 3 (s.accept .encode) = .next encodedOne ∧
      encodedOne.ctrl = .idle) ∧
    v.host = [] ∧ v.ctrl = .idle ∧ StoresOk v ∧ RegionsFit v ∧ v.srcLen = encodedOne.result ∧
      (∀ i, i < encodedOne.result.toNat → v.srcByte i = encodedOne.dstByte i) ∧ s.srcLen.toNat ≤ v.dstCap.toNat :=
  ⟨⟨rfl, rfl, ⟨by decide, by decide⟩, by decide, by decide, by decide, by decide⟩, ⟨rfl, rfl, rfl⟩, rfl, rfl, ⟨by decide, by decide⟩,
    by decide, by decide, by decide, by decide⟩

end Sys2Proof.Tests
end

/-! # The register port, STATUS, and what every step keeps (10_state R20 to R42) -/

namespace Sys2Proof.Machine

/-! ### Register accesses of the host (10_state R20 to R23) -/

section port

variable {s : State} {rest : List HostAction} {off v : Word}

/-- The host's next action is read by `hostTurn`, on the state with it taken off the list. -/
theorem step_hostTurn {a : HostAction} (h : s.host = a :: rest) : step s = perform (hostTurn (s.withHost rest s.portData) a) := by
  rw [step, turn, h]

theorem alignedWord_iff {w : Width} : alignedWord w off = true ↔ w = .word ∧ off.toNat % 4 = 0 := by
  simp [alignedWord]

theorem inWindow_iff : inWindow off = true ↔ off.toNat < 0x100 := by
  simp [inWindow]

/-- An aligned word read inside the window. -/
theorem step_rd (h : s.host = .rd .word off :: rest) (ha : off.toNat % 4 = 0) (hw : off.toNat < 0x100) :
    step s = .next (s.withHost rest (s.regRead off)) := by
  have ha' : alignedWord .word off = true := alignedWord_iff.mpr ⟨rfl, ha⟩
  have hw' : inWindow off = true := inWindow_iff.mpr hw
  rw [step_hostTurn h, hostTurn, readTurn, ha', hw']
  rfl

/-- A write of CMD (10_state R21, R23). -/
theorem step_wr_cmd (h : s.host = .wr .word 0#32 v :: rest) : step s = exec (decodeCmd v) (s.withHost rest s.portData) := by
  rw [step_hostTurn h]
  rfl

/-- An aligned word write inside the window, elsewhere than at CMD. -/
theorem step_wr_reg (h : s.host = .wr .word off v :: rest) (ha : off.toNat % 4 = 0) (hw : off.toNat < 0x100) (h0 : off ≠ 0#32) :
    step s = .next ((s.withHost rest s.portData).regWrite off v) := by
  have ha' : alignedWord .word off = true := alignedWord_iff.mpr ⟨rfl, ha⟩
  have hw' : inWindow off = true := inWindow_iff.mpr hw
  rw [step_hostTurn h, hostTurn, writeTurn, ha', hw']
  simp [h0]

/-- An access of another width or at an unaligned offset is refused (10_state R21; log 11). -/
theorem step_badRegisterAccess {w : Width} (h : s.host = .rd w off :: rest ∨ s.host = .wr w off v :: rest)
    (hbad : w ≠ .word ∨ off.toNat % 4 ≠ 0) : step s = .refused .badRegisterAccess := by
  have ha : alignedWord w off = false := by
    rw [Bool.eq_false_iff, ne_eq, alignedWord_iff]
    exact fun ⟨hw, ha⟩ => hbad.elim (· hw) (· ha)
  rcases h with h | h
  · rw [step_hostTurn h, hostTurn, readTurn, ha]; rfl
  · rw [step_hostTurn h, hostTurn, writeTurn, ha]; rfl

/-- An aligned word access past the window is refused (10_state R20; log 11). -/
theorem step_outsideWindow (h : s.host = .rd .word off :: rest ∨ s.host = .wr .word off v :: rest) (ha : off.toNat % 4 = 0)
    (hw : 0x100 ≤ off.toNat) : step s = .refused .outsideWindow := by
  have ha' : alignedWord .word off = true := alignedWord_iff.mpr ⟨rfl, ha⟩
  have hw' : inWindow off = false := by
    rw [Bool.eq_false_iff, ne_eq, inWindow_iff]; omega
  rcases h with h | h
  · rw [step_hostTurn h, hostTurn, readTurn, ha', hw']; rfl
  · rw [step_hostTurn h, hostTurn, writeTurn, ha', hw']; rfl

end port

/-! ### What an offset reads as, and what a write to it does -/

section registers

variable (s : State) {off : Word} (v : Word)

@[simp] theorem State.regRead_status : s.regRead 0x04#32 = s.status := rfl
@[simp] theorem State.regRead_srcAddr : s.regRead 0x08#32 = s.srcAddr := rfl
@[simp] theorem State.regRead_srcLen : s.regRead 0x0C#32 = s.srcLen := rfl
@[simp] theorem State.regRead_dstAddr : s.regRead 0x10#32 = s.dstAddr := rfl
@[simp] theorem State.regRead_dstCap : s.regRead 0x14#32 = s.dstCap := rfl
@[simp] theorem State.regRead_result : s.regRead 0x18#32 = s.result := rfl

/-- An offset that differs in number from a register's is not that register's. -/
theorem offset_ne {n : Nat} (hn : n < 2 ^ 32) (h : off.toNat ≠ n) : off ≠ BitVec.ofNat 32 n := fun he =>
  h (by rw [he, BitVec.toNat_ofNat, Nat.mod_eq_of_lt hn])

/-- CMD and the reserved offsets read 0 (10_state R20, R21). -/
theorem State.regRead_zero (h : off = 0x00#32 ∨ 0x1C ≤ off.toNat) : s.regRead off = 0#32 := by
  rcases h with rfl | h
  · rfl
  · have hne : ∀ n, n < 0x1C → off ≠ BitVec.ofNat 32 n := fun n hn => offset_ne (by omega) (by omega)
    simp only [State.regRead, hne 0x04 (by decide), hne 0x08 (by decide), hne 0x0C (by decide), hne 0x10 (by decide),
      hne 0x14 (by decide), hne 0x18 (by decide), ↓reduceIte]

theorem State.isBusy_of_idle {s : State} (h : s.ctrl = .idle) : s.isBusy = false := by simp [State.isBusy, h]

theorem State.isBusy_of_busy {s : State} {op : Op} (h : s.ctrl = .busy op) : s.isBusy = true := by simp [State.isBusy, h]

/-- Register writes are ignored while BUSY (10_state R22). -/
theorem State.regWrite_busy {s : State} {op : Op} (h : s.ctrl = .busy op) (off v : Word) : s.regWrite off v = s := by
  rw [State.regWrite, State.isBusy_of_busy h]; rfl

section idle

variable {s} (h : s.ctrl = .idle)
include h

theorem State.regWrite_srcAddr : s.regWrite 0x08#32 v = { s with srcAddr := v } := by
  rw [State.regWrite, State.isBusy_of_idle h]; rfl

theorem State.regWrite_srcLen : s.regWrite 0x0C#32 v = { s with srcLen := v } := by
  rw [State.regWrite, State.isBusy_of_idle h]; rfl

theorem State.regWrite_dstAddr : s.regWrite 0x10#32 v = { s with dstAddr := v } := by
  rw [State.regWrite, State.isBusy_of_idle h]; rfl

theorem State.regWrite_dstCap : s.regWrite 0x14#32 v = { s with dstCap := v } := by
  rw [State.regWrite, State.isBusy_of_idle h]; rfl

/-- Writes of STATUS, RESULT and the reserved offsets are ignored (10_state R21). -/
theorem State.regWrite_readOnly (ho : off = 0x04#32 ∨ 0x18 ≤ off.toNat) : s.regWrite off v = s := by
  have hne : off ≠ 0x08#32 ∧ off ≠ 0x0C#32 ∧ off ≠ 0x10#32 ∧ off ≠ 0x14#32 := by
    rcases ho with rfl | ho
    · decide
    · exact ⟨offset_ne (by omega) (by omega), offset_ne (by omega) (by omega), offset_ne (by omega) (by omega),
        offset_ne (by omega) (by omega)⟩
  obtain ⟨h1, h2, h3, h4⟩ := hne
  simp only [State.regWrite, State.isBusy_of_idle h, h1, h2, h3, h4, Bool.false_eq_true, ↓reduceIte]

end idle

end registers

/-! ### The start of a command (40_command_interface R110 to R112) -/

/-- The start checks read nothing but the parameters. -/
theorem startCheck_congr {s t : State} (h : SameParams s t) (op : Op) : startCheck op t = startCheck op s := by
  obtain ⟨h1, h2, h3, h4⟩ := h
  simp only [startCheck, encodeCheck, h1, h2, h3, h4]

theorem start_busy {s : State} {op : Op} (h : s.ctrl = .busy op) (op' : Op) : start op' s = s := by
  rw [start, State.isBusy_of_busy h]; rfl

/-- An idle block refuses the command with an error, or accepts it. -/
theorem start_idle {s : State} (h : s.ctrl = .idle) (op : Op) :
    (∃ c, start op s = (s.accept op).raise c) ∨ (startCheck op s = none ∧ start op s = s.accept op) := by
  have hc : startCheck op (s.accept op) = startCheck op s := startCheck_congr ⟨rfl, rfl, rfl, rfl⟩ op
  rw [start, State.isBusy_of_idle h, hc]
  cases startCheck op s with
  | some c => exact .inl ⟨c, rfl⟩
  | none => exact .inr ⟨rfl, rfl⟩

/-- A CMD write while BUSY is ignored (10_state R22, 40_command_interface R110). -/
theorem exec_cmd_busy {s : State} {op : Op} (h : s.ctrl = .busy op) (v : Word) : exec (decodeCmd v) s = .next s := by
  rcases execCmd_cases v s with he | ⟨op', he⟩
  · exact he
  · rw [he, start_busy h]

/-! ### The obligations on the port -/

/-- Settles O9: a CMD write is an aligned word write inside the window, at offset 0. -/
theorem commandWriteRuns : Obligations.CommandWriteRuns := fun _ _ _ h => step_wr_cmd h

/-- Settles O23: each field of the reset state as it is written. -/
theorem resetValues : Obligations.ResetValues := ⟨rfl, rfl, rfl, rfl, rfl, rfl, rfl, rfl⟩

/-- Settles O13: reads by `step_rd`, an idle block's writes by `step_wr_reg`, and the refused accesses. -/
theorem registerPort : Obligations.RegisterPort := by
  intro s w off v rest
  refine ⟨?_, ?_, fun h hbad => step_badRegisterAccess h hbad, fun h hw ha hoff => step_outsideWindow (hw ▸ h) ha hoff⟩
  · rintro h rfl ha hoff
    refine ⟨s.regRead off, step_rd h ha hoff, ?_, ?_, ?_, ?_, ?_, ?_, s.regRead_zero⟩ <;> rintro rfl <;> simp
  · rintro hc h rfl ha hoff
    have hstep := step_wr_reg h ha hoff
    have hu : (s.withHost rest s.portData).ctrl = .idle := hc
    refine ⟨?_, ?_, ?_, ?_, fun ho => ?_⟩
    · rintro rfl; rw [hstep (by decide), State.regWrite_srcAddr v hu]
    · rintro rfl; rw [hstep (by decide), State.regWrite_srcLen v hu]
    · rintro rfl; rw [hstep (by decide), State.regWrite_dstAddr v hu]
    · rintro rfl; rw [hstep (by decide), State.regWrite_dstCap v hu]
    · have h0 : off ≠ 0#32 := by rintro rfl; simp at ho
      rw [hstep h0, State.regWrite_readOnly v hu ho]

/-- Settles O14: `exec_cmd_busy` for CMD, `State.regWrite_busy` for the other writes, and StatusOk for RESULT. -/
theorem busyPort : Obligations.BusyPort := by
  intro s op w off v rest hc hs
  have hresult : s.result = 0#32 := by
    unfold StatusOk at hs; rw [hc] at hs; exact hs.2
  have hu : (s.withHost rest s.portData).ctrl = .busy op := hc
  refine ⟨?_, fun h => ⟨step_badRegisterAccess h, fun hw ha hoff => step_outsideWindow (hw ▸ h) ha hoff⟩⟩
  rintro rfl ha hoff
  constructor
  · intro h
    by_cases h0 : off = 0#32
    · subst h0
      rw [step_wr_cmd h, exec_cmd_busy hu]
    · rw [step_wr_reg h ha hoff h0, State.regWrite_busy hu]
  · intro h
    refine ⟨s.regRead off, step_rd h ha hoff, ?_, ?result, ?_, ?_, ?_, ?_, s.regRead_zero⟩
    case result => rintro rfl; rw [State.regRead_result, hresult]
    all_goals rintro rfl; simp

/-! ### The fields of STATUS (10_state R24, 60_exceptions R240) -/

section statusWord

variable (busy done err : Bool) (cause : BitVec 5)

/-- The four fields of a STATUS word read back, and its reserved bits are 0 (10_state R24). -/
theorem statusWord_fields :
    (statusWord busy done err cause).extractLsb' 3 5 = 0#5 ∧ (statusWord busy done err cause).extractLsb' 13 19 = 0#19 ∧
    (statusWord busy done err cause).getLsbD 0 = busy ∧ (statusWord busy done err cause).getLsbD 1 = done ∧
    (statusWord busy done err cause).getLsbD 2 = err ∧ (statusWord busy done err cause).extractLsb' 8 5 = cause := by
  revert busy done err cause
  decide

end statusWord

/-- The cause codes are 0x01 to 0x10 (60_exceptions R240). -/
theorem Cause.code_bounds (c : Cause) : 1 ≤ c.code.toNat ∧ c.code.toNat ≤ 0x10 := by
  cases c <;> decide

/-- A state that keeps StatusOk has a STATUS of four fields that agree with the control state and RESULT. -/
theorem StatusOk.fields {s : State} (h : StatusOk s) :
    ∃ busy done err cause, s.status = statusWord busy done err cause ∧ (busy = true ↔ s.ctrl ≠ .idle) ∧
      ¬ (busy = true ∧ done = true) ∧ (err = false → cause = 0#5) ∧
      (err = true → done = true ∧ s.result = 0#32 ∧ 1 ≤ cause.toNat) ∧ cause.toNat ≤ 0x10 := by
  unfold StatusOk at h
  cases hc : s.ctrl with
  | busy op =>
    rw [hc] at h
    exact ⟨true, false, false, 0#5, h.1, by simp, by simp, by simp, by simp, by simp⟩
  | idle =>
    rw [hc] at h
    rcases h with ⟨h, -⟩ | h | ⟨c, h, hr⟩
    · exact ⟨false, false, false, 0#5, h, by simp, by simp, by simp, by simp, by simp⟩
    · exact ⟨false, true, false, 0#5, h, by simp, by simp, by simp, by simp, by simp⟩
    · obtain ⟨h1, h2⟩ := c.code_bounds
      exact ⟨false, true, true, c.code, h, by simp, by simp, by simp, fun _ => ⟨rfl, hr, h1⟩, h2⟩

/-- Settles O15: the fields that StatusOk gives, read back from the word. -/
theorem statusLayout : Obligations.StatusLayout := by
  intro s h
  obtain ⟨busy, done, err, cause, hw, hbusy, hbd, herr0, herr1, hmax⟩ := h.fields
  obtain ⟨hlow, hhigh, h0, h1, h2, h8⟩ := statusWord_fields busy done err cause
  rw [hw, hlow, hhigh, h0, h1, h2, h8]
  exact ⟨rfl, rfl, hbusy, hbd, herr0, herr1, hmax⟩

/-! ### The writer's operations change memory and the writer cursor, in any state -/

section frames

variable (s : State)

theorem advanceMask_frame : advanceMask s = { s with mem := (advanceMask s).mem, wr := (advanceMask s).wr } := by
  unfold advanceMask; split <;> rfl

theorem putToken_frame (i : Instr) : putToken s i = { s with mem := (putToken s i).mem, wr := (putToken s i).wr } := by
  rw [putToken, State.dstPuts_frame]

theorem emitLiteral_frame (b : Byte) : emitLiteral s b = { s with mem := (emitLiteral s b).mem, wr := (emitLiteral s b).wr } := by
  rw [emitLiteral, advanceMask_frame, putToken_frame]; rfl

theorem emitMatchToken_frame (len dist : Nat) :
    emitMatchToken s len dist = { s with mem := (emitMatchToken s len dist).mem, wr := (emitMatchToken s len dist).wr } := by
  rw [emitMatchToken, advanceMask_frame, putToken_frame]

theorem emitLiterals_frame (src count : Nat) :
    emitLiterals s src count = { s with mem := (emitLiterals s src count).mem, wr := (emitLiterals s src count).wr } := by
  induction count generalizing s src with
  | zero => rfl
  | succ k ih => rw [emitLiterals, ih, emitLiteral_frame]

theorem emitTokens_frame (dist : Nat) (l : List Nat) :
    emitTokens s dist l = { s with mem := (emitTokens s dist l).mem, wr := (emitTokens s dist l).wr } := by
  induction l generalizing s with
  | nil => rfl
  | cons n t ih => rw [emitTokens, ih, emitMatchToken_frame]

theorem emitMatch_frame (len dist : Nat) :
    emitMatch s len dist = { s with mem := (emitMatch s len dist).mem, wr := (emitMatch s len dist).wr } :=
  emitTokens_frame s dist _

end frames

/-! ### How a step leaves the control state, STATUS, RESULT and the parameters -/

/-- The command of `s`, if any, still runs in `t`, under the same STATUS, RESULT and parameters. -/
structure Continues (s t : State) : Prop where
  ctrl : t.ctrl = s.ctrl
  status : t.status = s.status
  result : t.result = s.result
  params : SameParams s t

theorem Continues.refl (s : State) : Continues s s := ⟨rfl, rfl, rfl, rfl, rfl, rfl, rfl⟩

theorem Continues.update (s : State) (p : Phase) (e : EncRegs) (w : WriterRegs) (d : DecRegs) (ht : List (Nat × BitVec 32))
    (m : List Host.Cell) : Continues s { s with phase := p, enc := e, wr := w, dec := d, ht := ht, mem := m } :=
  ⟨rfl, rfl, rfl, rfl, rfl, rfl, rfl⟩

section encodeMove

variable {s : State}

theorem encodeMove_begin (h : s.phase = .begin) : encodeMove s = initEncode s := by rw [encodeMove, h]

theorem encodeMove_tokens (h : s.phase = .tokens) : encodeMove s = initEncode s := by rw [encodeMove, h]

theorem encodeMove_search (h : s.phase = .search) : encodeMove s = if mayProbe s then probe s else tailFlush s := by
  rw [encodeMove, h]

theorem encodeMove_accepted (h : s.phase = .accepted) : encodeMove s = matchStep s := by rw [encodeMove, h]

theorem encodeMove_flushed (h : s.phase = .flushed) : encodeMove s = s.complete s.wr.op := by rw [encodeMove, h]

theorem tailFlush_frame (s : State) :
    tailFlush s = { s with mem := (tailFlush s).mem, wr := (tailFlush s).wr, phase := .flushed } := by
  rw [tailFlush, emitLiterals_frame]

/-- ENCODE goes on until its tail is flushed (44_encoder R183, R187). -/
theorem encodeMove_continues (hp : s.phase ≠ .flushed) : Continues s (encodeMove s) := by
  cases h : s.phase with
  | begin => rw [encodeMove_begin h, initEncode_frame]; exact .update ..
  | tokens => rw [encodeMove_tokens h, initEncode_frame]; exact .update ..
  | search =>
    rw [encodeMove_search h]
    split
    · rw [probe_frame]; exact .update ..
    · rw [tailFlush_frame]; exact .update ..
  | accepted =>
    obtain ⟨ht, he⟩ := matchStep_eq s
    rw [encodeMove_accepted h, he, emitMatch_frame, emitLiterals_frame]; exact .update ..
  | flushed => exact absurd h hp

end encodeMove

/-- A move of the stream ends the command, by an error or with a result, or lets it go on. -/
theorem StreamMove.outcome {s t : State} (h : StreamMove s t) :
    (∃ u c, t = State.raise u c) ∨ (∃ r, t = s.complete r) ∨ Continues s t := by
  cases h with
  | badHeader | badSize | truncated | literalFull | badMatch => exact .inl ⟨_, _, rfl⟩
  | peeked | done => exact .inr (.inl ⟨_, rfl⟩)
  | headerDone | flag | literal => exact .inr (.inr (.update ..))
  | copied => rw [copyBytes_frame]; exact .inr (.inr (.update ..))

/-- A move of the block ends the command, by an error or with a result, or lets it go on. -/
theorem BlockMove.outcome {s t : State} (h : BlockMove s t) :
    (∃ u c, t = State.raise u c) ∨ (∃ r, t = s.complete r) ∨ Continues s t := by
  cases h with
  | idle => exact .inr (.inr (.refl s))
  | reserved => exact .inl ⟨_, _, rfl⟩
  | isYaz0 => exact .inr (.inl ⟨_, rfl⟩)
  | stream _ h => exact h.outcome
  | encode =>
    by_cases hp : s.phase = .flushed
    · exact .inr (.inl ⟨_, encodeMove_flushed hp⟩)
    · exact .inr (.inr (encodeMove_continues hp))

/-- A register write leaves the block as it is, parameters aside (10_state R21, R22). -/
theorem State.regWrite_frame (s : State) (off v : Word) :
    s.regWrite off v =
      { s with
        srcAddr := (s.regWrite off v).srcAddr, srcLen := (s.regWrite off v).srcLen, dstAddr := (s.regWrite off v).dstAddr,
        dstCap := (s.regWrite off v).dstCap } := by
  unfold State.regWrite; repeat' split
  all_goals rfl

/-- A host read of memory changes what the host has read, and a draw (20_memory R71). -/
theorem State.hostMemRead_frame (s : State) (a : Word) :
    s.hostMemRead a = { s with memData := (s.hostMemRead a).memData, draws := (s.hostMemRead a).draws } := by
  unfold State.hostMemRead; split <;> rfl

/-! ### STATUS and RESULT agree with the control state -/

theorem statusOk_raise (s : State) (c : Cause) : StatusOk (s.raise c) := .inr (.inr ⟨c, rfl, rfl⟩)

theorem statusOk_complete (s : State) (r : Word) : StatusOk (s.complete r) := .inr (.inl rfl)

theorem statusOk_accept (s : State) (op : Op) : StatusOk (s.accept op) := ⟨rfl, rfl⟩

theorem statusOk_resetInput (s : State) : StatusOk s.resetInput := .inl ⟨rfl, rfl⟩

/-- StatusOk speaks of three fields only. -/
theorem StatusOk.congr {s t : State} (h : StatusOk s) (hc : t.ctrl = s.ctrl) (hs : t.status = s.status) (hr : t.result = s.result) :
    StatusOk t := by
  unfold StatusOk
  rw [hc, hs, hr]
  exact h

theorem BlockMove.statusOk {s t : State} (h : BlockMove s t) (hs : StatusOk s) : StatusOk t := by
  rcases h.outcome with ⟨u, c, rfl⟩ | ⟨r, rfl⟩ | hk
  · exact statusOk_raise u c
  · exact statusOk_complete s r
  · exact hs.congr hk.ctrl hk.status hk.result

theorem start_statusOk {s : State} (h : StatusOk s) (op : Op) : StatusOk (start op s) := by
  cases hc : s.ctrl with
  | busy op' => rw [start_busy hc]; exact h
  | idle =>
    rcases start_idle hc op with ⟨c, he⟩ | ⟨-, he⟩ <;> rw [he]
    · exact statusOk_raise _ c
    · exact statusOk_accept s op

theorem StepMove.statusOk {s t : State} (h : StepMove s t) (hs : StatusOk s) : StatusOk t := by
  cases h with
  | block h => exact h.statusOk hs
  | command op => exact start_statusOk hs op
  | nothing => exact hs
  | regWrite off v => rw [State.regWrite_frame]; exact hs
  | memWrite a b => exact hs
  | memRead a => rw [State.hostMemRead_frame]; exact hs
  | reset => exact statusOk_resetInput s

/-- Settles O16: every move of `step_cases` keeps it, whatever the host has pending. -/
theorem statusKept : Obligations.StatusKept := by
  intro s t hs h
  obtain ⟨q, v, hm⟩ := step_cases h
  exact hm.statusOk (s := s.withHost q v) hs

/-! ### How a command comes to run, and goes on running -/

theorem State.busy_of_ne_idle {s : State} (h : s.ctrl ≠ .idle) : ∃ op, s.ctrl = .busy op := by
  cases hc : s.ctrl with
  | idle => exact absurd hc h
  | busy op => exact ⟨op, rfl⟩

/-- An address in a region of the running command, which no host write reaches (20_memory R70). -/
def State.Shielded (s : State) (a : Word) : Prop := s.inBusySrc a = true ∨ s.inBusyDst a = true

/-- The ways a command can be running after a move: it was just accepted, the block went on with it, or the host reached memory outside
its regions. -/
theorem StepMove.busy_cases {s t : State} {op : Op} (h : StepMove s t) (ht : t.ctrl = .busy op) :
    (startCheck op s = none ∧ t = s.accept op) ∨
    (BlockMove s t ∧ Continues s t) ∨
    (∃ m b n, t = { s with mem := m, memData := b, draws := n } ∧ ∀ a, s.Shielded a → t.memRead a = s.memRead a) := by
  have same : ∀ {u : State}, u = s →
      ∃ m b n, u = { s with mem := m, memData := b, draws := n } ∧ ∀ a, s.Shielded a → u.memRead a = s.memRead a := by
    rintro u rfl; exact ⟨_, _, _, rfl, fun _ _ => rfl⟩
  cases h with
  | block h =>
    rcases h.outcome with ⟨u, c, rfl⟩ | ⟨r, rfl⟩ | hk
    · cases ht
    · cases ht
    · exact .inr (.inl ⟨h, hk⟩)
  | command op' =>
    by_cases hc : s.ctrl = .idle
    · rcases start_idle hc op' with ⟨c, he⟩ | ⟨hn, he⟩ <;> rw [he] at ht ⊢
      · cases ht
      · cases ht; exact .inl ⟨hn, rfl⟩
    · obtain ⟨op'', hc⟩ := State.busy_of_ne_idle hc
      exact .inr (.inr (same (start_busy hc op')))
  | nothing => exact .inr (.inr (same rfl))
  | regWrite off v =>
    have hs : s.ctrl = .busy op := by rwa [State.regWrite_frame] at ht
    exact .inr (.inr (same (State.regWrite_busy hs off v)))
  | memWrite a b hsrc hdst =>
    refine .inr (.inr ⟨_, _, _, rfl, fun a' ha' => State.memRead_memWrite_ne s b ?_⟩)
    rintro rfl
    rcases ha' with ha' | ha'
    · exact Bool.false_ne_true (hsrc.symm.trans ha')
    · exact Bool.false_ne_true (hdst.symm.trans ha')
  | memRead a => exact .inr (.inr ⟨_, _, _, State.hostMemRead_frame s a, fun _ _ => by rw [State.hostMemRead_frame]; rfl⟩)
  | reset => cases ht

/-- A running command's parameters still pass their checks after any move. -/
theorem StepMove.paramsOk {s t : State} (h : StepMove s t) (hs : ParamsOk s) : ParamsOk t := by
  intro op ht
  rcases h.busy_cases ht with ⟨hn, rfl⟩ | ⟨-, hk⟩ | ⟨m, b, n, rfl, -⟩
  · exact (startCheck_congr ⟨rfl, rfl, rfl, rfl⟩ op).trans hn
  · exact (startCheck_congr hk.params op).trans (hs op (hk.ctrl ▸ ht))
  · exact hs op ht

/-! ### DECODE's registers -/

/-- The bounds that DecodeOk keeps of the token loop's registers (10_state R36, R42; 45_decoder R210). -/
def LoopOk (d : DecRegs) : Prop :=
  16 ≤ d.pos.toNat ∧ d.pos.toNat ≤ d.n.toNat ∧ 0 < d.size.toNat ∧ d.size.toNat ≤ d.cap.toNat ∧ d.written.toNat ≤ d.size.toNat ∧
    d.bits.toNat ≤ 8

/-- DecodeOk, with the phase and the loop's bounds as one alternative. -/
theorem decodeOk_iff {s : State} :
    DecodeOk s ↔
      (s.ctrl = .busy .decode → s.dec.n = s.srcLen ∧ s.dec.cap = s.dstCap ∧
        (s.phase = .begin ∨ s.phase = .tokens ∧ LoopOk s.dec)) := by
  unfold DecodeOk
  refine forall_congr' fun _ => and_congr_right fun _ => and_congr_right fun _ => ?_
  constructor
  · rintro ⟨hp | hp, hl⟩
    · exact .inl hp
    · exact .inr ⟨hp, hl hp⟩
  · rintro (hp | ⟨hp, hl⟩)
    · exact ⟨.inl hp, fun h => by rw [hp] at h; cases h⟩
    · exact ⟨.inr hp, fun _ => hl⟩

/-- Before a literal or a match the loop has not ended and its flag byte is not used up (45_decoder R205, R210). -/
theorem want_token {s : State} (h : want s = .literal ∨ want s = .matchCode) : s.dec.written ≠ s.dec.size ∧ s.dec.bits ≠ 0#4 := by
  obtain ⟨hd, hp⟩ : s.ctrl = .busy .decode ∧ s.phase ≠ .begin := by
    rcases h with h | h <;> exact want_decode (by simp [h]) (by simp [h])
  simp only [want, hd, hp, ↓reduceIte, wantToken] at h
  by_cases hw : s.dec.written = s.dec.size
  · rw [if_pos hw] at h
    rcases h with h | h <;> cases h
  · rw [if_neg hw] at h
    refine ⟨hw, fun hb => ?_⟩
    rw [if_pos hb] at h
    rcases h with h | h <;> cases h

/-- Until the loop ends, a byte is left to write (45_decoder R210). -/
theorem LoopOk.written_lt {d : DecRegs} (h : LoopOk d) (hne : d.written ≠ d.size) : d.written.toNat + 1 ≤ d.size.toNat := by
  obtain ⟨-, -, -, -, hw, -⟩ := h
  have : d.written.toNat ≠ d.size.toNat := fun he => hne (BitVec.eq_of_toNat_eq he)
  omega

section loop

variable {s : State} (h : LoopOk s.dec)
include h

/-- The loop's bounds after a flag byte (45_decoder R204). -/
theorem LoopOk.flag (hl : 0 < streamLeft s) (f : Byte) :
    LoopOk { s.dec with flag := f, pos := s.dec.pos + 1#32, bits := 8#4 } := by
  obtain ⟨h16, hpos, h0, hcap, hw, -⟩ := h
  unfold streamLeft at hl
  have hp : (s.dec.pos + 1#32).toNat = s.dec.pos.toNat + 1 := offset_toNat _ (by omega)
  exact ⟨by simp only; omega, by simp only; omega, h0, hcap, hw, Nat.le_refl _⟩

/-- The loop's bounds after a token of `k` stream bytes that stand for `m` bytes (45_decoder R206 to R209). -/
theorem LoopOk.token {k m : Nat} {d : DecRegs} (hl : k ≤ streamLeft s) (hm : s.dec.written.toNat + m ≤ s.dec.size.toNat)
    (hb : s.dec.bits ≠ 0#4) (hn : d.n = s.dec.n) (hc : d.cap = s.dec.cap) (hs : d.size = s.dec.size)
    (hp : d.pos = s.dec.pos + BitVec.ofNat 32 k) (hw : d.written = s.dec.written + BitVec.ofNat 32 m)
    (hbits : d.bits = s.dec.bits - 1#4) : LoopOk d := by
  obtain ⟨h16, hpos, h0, hcap, hwr, h8⟩ := h
  unfold streamLeft at hl
  have hp' : d.pos.toNat = s.dec.pos.toNat + k := hp ▸ offset_toNat _ (by omega)
  have hw' : d.written.toNat = s.dec.written.toNat + m := hw ▸ offset_toNat _ (by omega)
  have hb' : d.bits.toNat = s.dec.bits.toNat - 1 := by
    have hne : s.dec.bits.toNat ≠ 0 := fun he => hb (BitVec.eq_of_toNat_eq he)
    rw [hbits, BitVec.toNat_sub, BitVec.toNat_ofNat]; omega
  unfold LoopOk
  rw [hn, hc, hs]
  omega

end loop

/-- The next state of a running DECODE keeps its registers' bounds. -/
theorem StreamMove.decodeOk {s t : State} (h : StreamMove s t) (hs : DecodeOk s) : DecodeOk t := by
  rw [decodeOk_iff] at hs ⊢
  have loop : s.ctrl = .busy .decode → s.phase ≠ .begin → s.phase = .tokens ∧ LoopOk s.dec := by
    intro hd hp
    obtain ⟨-, -, hphase⟩ := hs hd
    exact hphase.resolve_left hp
  intro ht
  cases h with
  | badHeader | peeked | badSize | truncated | literalFull | badMatch | done => cases ht
  | headerDone size hd hp hn h0 hcap =>
    obtain ⟨hn', hcap', -⟩ := hs hd
    exact ⟨hn', hcap', .inr ⟨rfl, Nat.le_refl _, hn, h0, hcap, Nat.zero_le _, Nat.zero_le _⟩⟩
  | flag f hd hp hw hl =>
    obtain ⟨hn', hcap', -⟩ := hs hd
    obtain ⟨hp', hloop⟩ := loop hd hp
    exact ⟨hn', hcap', .inr ⟨hp', hloop.flag hl f⟩⟩
  | literal b hd hp hw hl hcap =>
    obtain ⟨hn', hcap', -⟩ := hs hd
    obtain ⟨hp', hloop⟩ := loop hd hp
    obtain ⟨hne, hb⟩ := want_token (.inl hw)
    exact ⟨hn', hcap', .inr ⟨hp', hloop.token (k := 1) hl (hloop.written_lt hne) hb rfl rfl rfl rfl rfl rfl⟩⟩
  | copied b0 b1 b2 k dist len hd hp hw hk hl h1 hdist h3 hcap hsize =>
    obtain ⟨hn', hcap', -⟩ := hs hd
    obtain ⟨hp', hloop⟩ := loop hd hp
    rw [copyBytes_frame]
    exact ⟨hn', hcap', .inr ⟨hp', hloop.token hl hsize (want_token (.inr hw)).2 rfl rfl rfl rfl rfl rfl⟩⟩

theorem BlockMove.decodeOk {s t : State} (h : BlockMove s t) (hc : t.ctrl = s.ctrl) (hs : DecodeOk s) : DecodeOk t := by
  intro ht
  have hd : s.ctrl = .busy .decode := hc ▸ ht
  cases h with
  | stream _ h => exact h.decodeOk hs ht
  | idle => exact hs ht
  | reserved | isYaz0 => cases ht
  | encode he => rw [he] at hd; cases hd

theorem StepMove.decodeOk {s t : State} (h : StepMove s t) (hs : DecodeOk s) : DecodeOk t := by
  intro ht
  rcases h.busy_cases ht with ⟨-, rfl⟩ | ⟨hb, hk⟩ | ⟨m, b, n, rfl, -⟩
  · exact ⟨rfl, rfl, .inl rfl, fun hp => by cases hp⟩
  · exact hb.decodeOk hk.ctrl hs ht
  · exact hs ht

/-- Settles O42: `StepMove.paramsOk` and `StepMove.decodeOk`, for the move that `step_cases` names. -/
theorem decoderKept : Obligations.DecoderKept := by
  intro s t hp hs h
  obtain ⟨q, v, hm⟩ := step_cases h
  exact ⟨hm.paramsOk (s := s.withHost q v) hp, hm.decodeOk (s := s.withHost q v) hs⟩

/-! ### ENCODE's output is within the bound and the capacity -/

/-- The running ENCODE of a state that keeps its promises, in numbers: the tokens stand for input bytes, the output is within the bound
and the destination region, and the region does not wrap (44_encoder R181, R189). -/
theorem EncodeOk.limits {s : State} (hp : ParamsOk s) (hs : EncodeOk s) (hc : s.ctrl = .busy .encode) (hb : s.phase ≠ .begin) :
    s.wr.op.toNat ≤ Config.bound s.srcLen.toNat ∧ Config.bound s.srcLen.toNat ≤ s.dstCap.toNat ∧
    s.dstAddr.toNat + s.dstCap.toNat ≤ 2 ^ 32 := by
  obtain ⟨hn, -, hrun, -⟩ := hs hc
  obtain ⟨⟨⟨t, ht, -, hop⟩, -⟩, -, -, hanchor, -⟩ := hrun hb
  obtain ⟨-, hcap⟩ := startCheck_encode (hp _ hc)
  obtain ⟨-, hdst, -⟩ := startCheck_regions rfl (hp _ hc)
  have he : emitted s ≤ s.srcLen.toNat := by
    unfold emitted; rw [← hn]; split <;> omega
  refine ⟨?_, hcap, hdst⟩
  unfold Config.bound
  omega

/-- Settles O58: the mask is `firstMask` shifted, and `EncodeOk.limits` bounds `op`. -/
theorem maskAndBound : Obligations.MaskAndBound := by
  intro s hp hs hc hb
  obtain ⟨hop, hcap, -⟩ := hs.limits hp hc hb
  obtain ⟨-, -, hrun, -⟩ := hs hc
  obtain ⟨⟨⟨t, -, hmask, -⟩, -⟩, -⟩ := hrun hb
  exact ⟨hmask ▸ maskOk_of_shift t, hop, Nat.le_trans hop hcap⟩

/-! ### ENCODE's promises are kept -/

/-- The writer's promises speak of the cursor and of the flag byte in memory only. -/
theorem WriterOk.congr {s t : State} {e : Nat} (h : WriterOk s e) (hw : t.wr = s.wr)
    (hb : t.dstByte s.wr.fp.toNat = s.dstByte s.wr.fp.toNat) : WriterOk t e := by
  unfold WriterOk
  rw [hw, hb]
  exact h

theorem HeaderOk.congr {s t : State} {n : Word} (h : HeaderOk s n) (hb : ∀ k, k < 16 → t.dstByte k = s.dstByte k) : HeaderOk t n :=
  fun k hk => (hb k hk).trans (h k hk)

theorem seq3_congr {s t : State} {p : Nat} (h : ∀ i, i < 3 → t.srcByte (p + i) = s.srcByte (p + i)) : seq3 t p = seq3 s p := by
  unfold seq3
  rw [show t.srcByte p = s.srcByte p from h 0 (by omega), h 1 (by omega), h 2 (by omega)]

/-- Whether a candidate before `ip` is accepted depends on source bytes below `ip + 3` only (42_match_finder R143). -/
theorem accepts_congr {s t : State} {ref ip : Nat} (h : ∀ i, i < ip + 3 → t.srcByte i = s.srcByte i) :
    accepts t ref ip = accepts s ref ip := by
  by_cases hr : ref < ip
  · unfold accepts eq3
    rw [seq3_congr fun i hi => h (ref + i) (by omega), seq3_congr fun i hi => h (ip + i) (by omega)]
  · simp [accepts, hr]

/-- What the running ENCODE has written, and its whole source, are in its regions. -/
theorem EncodeOk.shielded {s : State} (hp : ParamsOk s) (hs : EncodeOk s) (hc : s.ctrl = .busy .encode) (hb : s.phase ≠ .begin) :
    (∀ k, k < s.wr.op.toNat → s.Shielded (s.dstAt k)) ∧ ∀ i, i < s.enc.n.toNat → s.Shielded (s.srcAt i) := by
  obtain ⟨hop, hcap, hdst⟩ := hs.limits hp hc hb
  obtain ⟨hsrc, -⟩ := startCheck_regions rfl (hp _ hc)
  obtain ⟨hn, -⟩ := hs hc
  constructor
  · intro k hk
    have ha : (s.dstAt k).toNat = s.dstAddr.toNat + k := offset_toNat _ (by omega)
    right
    simp only [State.inBusyDst, hc, Op.usesDst, Bool.true_and, inRegion, decide_eq_true_eq, ha]
    omega
  · intro i hi
    rw [hn] at hi
    have ha : (s.srcAt i).toNat = s.srcAddr.toNat + i := offset_toNat _ (by omega)
    left
    simp only [State.inBusySrc, State.isBusy_of_busy hc, Bool.true_and, inRegion, decide_eq_true_eq, ha]
    omega

/-- The host's accesses to memory outside a running command's regions keep ENCODE's promises. -/
theorem EncodeOk.of_hostMemory {s : State} (hp : ParamsOk s) (hs : EncodeOk s) (m : List Host.Cell) (b : Byte) (n : Nat)
    (hm : ∀ a, s.Shielded a → State.memRead { s with mem := m, memData := b, draws := n } a = s.memRead a) :
    EncodeOk { s with mem := m, memData := b, draws := n } := by
  intro hc
  obtain ⟨hn, hph, hrun, hacc⟩ := hs hc
  refine ⟨hn, hph, fun hb => ?_, fun ha => ?_⟩
  · obtain ⟨hw, hhdr, hcur⟩ := hrun hb
    have hbyte := fun k hk => hm _ ((hs.shielded hp hc hb).1 k hk)
    obtain ⟨-, -, h16, hfp, -⟩ := id hw
    exact ⟨hw.congr rfl (hbyte _ hfp), hhdr.congr fun k hk => hbyte k (by omega), hcur⟩
  · obtain ⟨hprobe, hok⟩ := hacc ha
    have hb : s.phase ≠ .begin := fun hb => by rw [show s.phase = .accepted from ha] at hb; cases hb
    have hlt := (mayProbe_iff s).mp hprobe
    have hsrc : ∀ i, i < s.enc.ip.toNat + 3 → s.Shielded (s.srcAt i) := fun i hi => (hs.shielded hp hc hb).2 i (by omega)
    exact ⟨hprobe, (accepts_congr fun i hi => hm _ (hsrc i hi)).trans hok⟩

/-- ENCODE's promises after a move that emits tokens for the input bytes up to `e`, given what its registers then hold. -/
theorem EncodeOk.of_emitted {s t u : State} {e : Nat} (h : Emitted s u e) (hs : EncodeOk s) (hc : s.ctrl = .busy .encode)
    (hb : s.phase ≠ .begin) (ht : t = { u with enc := t.enc, ht := t.ht, phase := t.phase }) (hn : t.enc.n = s.enc.n)
    (hph : t.phase ≠ .tokens) (he : emitted t = e)
    (hcur : t.enc.anchor.toNat ≤ t.enc.ip.toNat ∧ t.enc.anchor.toNat ≤ s.enc.n.toNat ∧ t.enc.ip.toNat ≤ max s.enc.n.toNat 2)
    (hacc : t.phase = .accepted → mayProbe t = true ∧ accepts t t.enc.ref.toNat t.enc.ip.toNat = true) : EncodeOk t := by
  intro _
  obtain ⟨hsrc, -, hrun, -⟩ := hs hc
  obtain ⟨-, hhdr, -⟩ := hrun hb
  have hbyte : ∀ k, t.dstByte k = u.dstByte k := fun k => by rw [ht]; rfl
  have hlen : t.srcLen = s.srcLen := by rw [ht, h.frame]
  refine ⟨hn.trans (hsrc.trans hlen.symm), hph, fun _ => ⟨?_, ?_, hn ▸ hcur⟩, hacc⟩
  · rw [he]
    exact h.ok.congr (by rw [ht]) (hbyte _)
  · rw [hn]
    exact hhdr.congr fun k hk => (hbyte k).trans (h.header hk)

/-- Initialisation establishes ENCODE's promises (44_encoder R182). -/
theorem initEncode_encodeOk {s : State} (hm : Memory.wf s.mem) (hn : s.enc.n = s.srcLen) : EncodeOk (initEncode s) := by
  intro _
  have hw := initEncode_writerOk hm
  have hh := (initEncode_bytes hm).1
  have hphase : (initEncode s).phase = .search := by rw [initEncode_frame]
  have hlen : (initEncode s).srcLen = s.srcLen := by rw [initEncode_frame]
  have henc : (initEncode s).enc = { s.enc with anchor := 0#32, ip := 2#32 } := by rw [initEncode_frame]
  have he : emitted (initEncode s) = 0 := by simp [emitted, hphase, henc]
  rw [he, hphase, hlen, henc]
  exact ⟨hn, by simp, fun _ => ⟨hw, hh, Nat.zero_le _, Nat.zero_le _, Nat.le_max_right _ _⟩, fun h => by cases h⟩

section moves

variable {s : State} (hm : Memory.wf s.mem) (hs : EncodeOk s) (hc : s.ctrl = .busy .encode)
include hm hs hc

/-- A probe keeps ENCODE's promises (42_match_finder R140 to R143). -/
theorem probe_encodeOk (hp : s.phase = .search) (hmay : mayProbe s = true) : EncodeOk (probe s) := by
  have hb : s.phase ≠ .begin := by simp [hp]
  obtain ⟨-, -, hrun, -⟩ := hs hc
  obtain ⟨hw, -, hanchor, han, hip⟩ := hrun hb
  rw [show emitted s = s.enc.anchor.toNat by simp [emitted, hp]] at hw
  have hlt := (mayProbe_iff s).mp hmay
  rcases probe_cases s with ⟨hph, hip', hok⟩ | ⟨hph, hip'⟩
  · refine hs.of_emitted (.refl hm hw) hc hb (probe_frame s) (probe_n s) (by simp [hph]) (by simp [emitted, hph]) ?_
      fun _ => ⟨?_, ?_⟩
    · rw [probe_anchor, hip']; exact ⟨hanchor, han, hip⟩
    · rw [mayProbe_iff, probe_n, hip']; exact hlt
    · rw [hip', ← hok, probe_frame]; rfl
  · have hnext : (probe s).enc.ip.toNat = s.enc.ip.toNat + 1 := hip' ▸ offset_toNat _ (by omega)
    refine hs.of_emitted (.refl hm hw) hc hb (probe_frame s) (probe_n s) (by simp [hph, hp]) (by simp [emitted, hph, hp]) ?_
      (by simp [hph, hp])
    rw [probe_anchor, hnext]; omega

/-- The tail flush keeps ENCODE's promises (44_encoder R186). -/
theorem tailFlush_encodeOk (hp : s.phase = .search) (hn : s.enc.n.toNat < 2 ^ 31) : EncodeOk (tailFlush s) := by
  have hb : s.phase ≠ .begin := by simp [hp]
  obtain ⟨-, -, hrun, -⟩ := hs hc
  obtain ⟨hw, -, hanchor, han, hip⟩ := hrun hb
  have henc : (tailFlush s).enc = s.enc := by rw [tailFlush_frame]
  have hph : (tailFlush s).phase = .flushed := rfl
  exact hs.of_emitted (tailFlush_tokens hm hw (by simp [emitted, hp]) han hn) hc hb rfl (by rw [henc]) (by simp [hph])
    (by simp [emitted, hph, henc]) (by rw [henc]; exact ⟨hanchor, han, hip⟩) (by simp [hph])

/-- The match step keeps ENCODE's promises (44_encoder R184). -/
theorem matchStep_encodeOk (hp : s.phase = .accepted) (hn : s.enc.n.toNat < 2 ^ 31) : EncodeOk (matchStep s) := by
  have hb : s.phase ≠ .begin := by simp [hp]
  obtain ⟨-, -, hrun, hacc⟩ := hs hc
  obtain ⟨hw, -, hanchor, -⟩ := hrun hb
  have hmay := (hacc hp).1
  obtain ⟨-, hlen⟩ := matchLength_bounds hmay
  have hnew : (BitVec.ofNat 32 (s.enc.ip.toNat + matchLength s)).toNat = s.enc.ip.toNat + matchLength s := by
    rw [BitVec.toNat_ofNat]; omega
  obtain ⟨ht, he⟩ := matchStep_eq s
  rw [he]
  refine hs.of_emitted (matchStep_tokens hm hw (by simp [emitted, hp]) hanchor hmay hn) hc hb rfl rfl (by simp) (by simp [emitted, hnew])
    ?_ (by simp)
  simp only [hnew]
  omega

/-- Every move of ENCODE keeps its promises. -/
theorem encodeMove_encodeOk (hn : s.enc.n.toNat < 2 ^ 31) : EncodeOk (encodeMove s) := by
  obtain ⟨hsrc, hph, -⟩ := hs hc
  cases hp : s.phase with
  | begin => rw [encodeMove_begin hp]; exact initEncode_encodeOk hm hsrc
  | tokens => exact absurd hp hph
  | search =>
    rw [encodeMove_search hp]
    split
    · rename_i hmay; exact probe_encodeOk hm hs hc hp hmay
    · exact tailFlush_encodeOk hm hs hc hp hn
  | accepted => rw [encodeMove_accepted hp]; exact matchStep_encodeOk hm hs hc hp hn
  | flushed => rw [encodeMove_flushed hp]; exact fun h => by cases h

end moves

theorem BlockMove.encodeOk {s t : State} (h : BlockMove s t) (hp : ParamsOk s) (hst : StoresOk s) (hs : EncodeOk s)
    (hk : t.ctrl = s.ctrl) : EncodeOk t := by
  intro ht
  have hc : s.ctrl = .busy .encode := hk ▸ ht
  cases h with
  | encode =>
    have hn := (startCheck_encode (hp _ hc)).1
    rw [← (hs hc).1] at hn
    exact encodeMove_encodeOk hst.1 hs hc hn ht
  | idle => exact hs ht
  | reserved | isYaz0 => cases ht
  | stream hc' => rw [hc] at hc'; simp at hc'

theorem StepMove.encodeOk {s t : State} (h : StepMove s t) (hp : ParamsOk s) (hst : StoresOk s) (hs : EncodeOk s) : EncodeOk t := by
  intro ht
  rcases h.busy_cases ht with ⟨-, rfl⟩ | ⟨hb, hk⟩ | ⟨m, b, n, rfl, hmem⟩
  · exact ⟨rfl, by simp, fun hb => absurd rfl hb, fun ha => by cases ha⟩
  · exact hb.encodeOk hp hst hs hk.ctrl ht
  · exact hs.of_hostMemory hp m b n hmem ht

/-- Settles O57: `StepMove.encodeOk`, for the move that `step_cases` names. -/
theorem encoderKept : Obligations.EncoderKept := by
  intro s t hp hst hs h
  obtain ⟨q, v, hm⟩ := step_cases h
  exact hm.encodeOk (s := s.withHost q v) hp hst hs

end Sys2Proof.Machine

/-! # The block's own step writes its destination region only (20_memory R64, 46_header_utilities R235) -/

namespace Sys2Proof.Machine

/-- Without a pending host action the step is the block's (10_state R31). -/
theorem step_blockTurn {s : State} (h : s.host = []) : step s = perform (blockTurn s) := by
  rw [step, turn, h]

/-- `t` reads as `s` at every address that is no destination offset below the capacity. -/
def DstOnly (s t : State) : Prop := ∀ a, (∀ k, k < s.dstCap.toNat → s.dstAt k ≠ a) → t.memRead a = s.memRead a

theorem State.memRead_of_mem_eq {s t : State} (h : t.mem = s.mem) (a : Word) : t.memRead a = s.memRead a := by
  rw [State.memRead, h, State.memRead]

theorem DstOnly.of_mem_eq {s t : State} (h : t.mem = s.mem) : DstOnly s t := fun a _ => State.memRead_of_mem_eq h a

/-- An address outside a destination region that does not wrap is no offset below the capacity. -/
theorem dstAt_ne_of_not_inDst {s : State} {a : Word} (hfit : s.dstAddr.toNat + s.dstCap.toNat ≤ 2 ^ 32) (ha : ¬ InDst s a) {k : Nat}
    (hk : k < s.dstCap.toNat) : s.dstAt k ≠ a := by
  rintro rfl
  have hk' : (s.dstAt k).toNat = s.dstAddr.toNat + k := offset_toNat _ (by omega)
  unfold InDst at ha
  omega

/-! ### ENCODE -/

/-- Tokens for at most the whole input stay within the destination (44_encoder R181, R189). -/
theorem Emitted.dstOnly {s t : State} {e : Nat} (h : Emitted s t e) (hp : startCheck .encode s = none) (he : e ≤ s.srcLen.toNat) :
    DstOnly s t := by
  obtain ⟨-, hcap⟩ := startCheck_encode hp
  have hop := h.op_le
  unfold Config.bound at hcap
  exact fun a ha => h.outside a fun k _ hk => ha k (by omega)

theorem initEncode_dstOnly {s : State} (hp : startCheck .encode s = none) : DstOnly s (initEncode s) := by
  obtain ⟨-, hcap⟩ := startCheck_encode hp
  unfold Config.bound at hcap
  exact fun a ha => initEncode_outside s fun k hk => ha k (by omega)

/-- Every move of ENCODE writes its destination only. -/
theorem encodeMove_dstOnly {s : State} (hp : ParamsOk s) (hm : Memory.wf s.mem) (hs : EncodeOk s) (hc : s.ctrl = .busy .encode) :
    DstOnly s (encodeMove s) := by
  have hchk := hp _ hc
  obtain ⟨hlen, -⟩ := startCheck_encode hchk
  obtain ⟨hn, hph, hrun, hacc⟩ := hs hc
  rw [← hn] at hlen
  cases hphase : s.phase with
  | begin => rw [encodeMove_begin hphase]; exact initEncode_dstOnly hchk
  | tokens => exact absurd hphase hph
  | search =>
    obtain ⟨hw, -, -, han, -⟩ := hrun (by simp [hphase])
    rw [encodeMove_search hphase]
    split
    · exact .of_mem_eq (by rw [probe_frame])
    · exact (tailFlush_tokens hm hw (by simp [emitted, hphase]) han hlen).dstOnly hchk (Nat.le_of_eq (congrArg BitVec.toNat hn))
  | accepted =>
    obtain ⟨hw, -, hai, -⟩ := hrun (by simp [hphase])
    obtain ⟨hmay, -⟩ := hacc hphase
    obtain ⟨-, hml⟩ := matchLength_bounds hmay
    obtain ⟨ht, he⟩ := matchStep_eq s
    rw [encodeMove_accepted hphase, he]
    exact (matchStep_tokens hm hw (by simp [emitted, hphase]) hai hmay hlen).dstOnly hchk (by rw [← hn]; omega)
  | flushed => rw [encodeMove_flushed hphase]; exact .of_mem_eq rfl

/-! ### DECODE and PEEK_SIZE -/

/-- In the token loop the registers keep their bounds, and the declared size is within the destination capacity (45_decoder R202). -/
theorem DecodeOk.loop_dstCap {s : State} (hs : DecodeOk s) (hd : s.ctrl = .busy .decode) (hp : s.phase ≠ .begin) :
    LoopOk s.dec ∧ s.dec.size.toNat ≤ s.dstCap.toNat := by
  obtain ⟨-, hcap, hphase⟩ := decodeOk_iff.mp hs hd
  obtain ⟨-, hloop⟩ := hphase.resolve_left hp
  obtain ⟨-, -, -, hsize, -⟩ := id hloop
  exact ⟨hloop, hcap ▸ hsize⟩

/-- A stream item leaves memory as it is, or is a token of DECODE and writes its destination only (45_decoder R206, R208). -/
theorem StreamMove.mem_cases {s t : State} (h : StreamMove s t) (hs : DecodeOk s) :
    t.mem = s.mem ∨ (s.ctrl = .busy .decode ∧ DstOnly s t) := by
  cases h with
  | badHeader | peeked | badSize | headerDone | truncated | flag | literalFull | badMatch | done => exact .inl rfl
  | literal b hd hp hw hl hcap =>
    obtain ⟨hloop, hsize⟩ := hs.loop_dstCap hd hp
    have hlt := hloop.written_lt (want_token (.inl hw)).1
    exact .inr ⟨hd, fun a ha => State.memRead_dstPut_ne s b (ha _ (by omega))⟩
  | copied b0 b1 b2 k dist len hd hp hw hk hl h1 hdist h3 hcap hsize =>
    obtain ⟨-, hle⟩ := hs.loop_dstCap hd hp
    have hfit : s.dec.written.toNat + len.toNat < 2 ^ 32 := by have := s.dec.size.isLt; omega
    exact .inr ⟨hd, fun a ha =>
      copyBytes_outside (readMatch s b0 b1 b2 k dist len) _ _ hfit fun j hj => ha (s.dec.written.toNat + j) (by omega)⟩

/-! ### The block -/

/-- A step of the block leaves memory as it is, or is one of ENCODE or DECODE and writes the destination only. -/
theorem BlockMove.mem_cases {s t : State} (h : BlockMove s t) (hs : Inv s) :
    t.mem = s.mem ∨ ((s.ctrl = .busy .encode ∨ s.ctrl = .busy .decode) ∧ DstOnly s t) := by
  obtain ⟨-, ⟨hm, -⟩, hp, hdec, henc⟩ := hs
  cases h with
  | idle | reserved | isYaz0 => exact .inl rfl
  | encode hc => exact .inr ⟨.inl hc, encodeMove_dstOnly hp hm henc hc⟩
  | stream _ h => exact (h.mem_cases hdec).imp_right fun ⟨hd, ho⟩ => ⟨.inr hd, ho⟩

/-- The start checks that a running ENCODE or DECODE has passed: its destination does not wrap and shares no byte with its source
(40_command_interface R113, R114). -/
theorem ParamsOk.regions {s : State} (hp : ParamsOk s) (hc : s.ctrl = .busy .encode ∨ s.ctrl = .busy .decode) :
    s.dstAddr.toNat + s.dstCap.toNat ≤ 2 ^ 32 ∧ ∀ a, InSrc s a → ¬ InDst s a := by
  rcases hc with hc | hc <;> exact (startCheck_regions rfl (hp _ hc)).2

/-- Settles O19: `BlockMove.mem_cases` names what the step writes, and `ParamsOk.regions` keeps it in the destination, apart from the
source. -/
theorem blockWritesOnlyItsDestination : Obligations.BlockWritesOnlyItsDestination := by
  intro s t hhost hs hstep
  rw [step_blockTurn hhost] at hstep
  have hcases := (block_cases hstep).mem_cases hs
  obtain ⟨-, -, hp, -⟩ := hs
  have hout : ∀ a, ¬ InDst s a → t.memRead a = s.memRead a := by
    intro a ha
    rcases hcases with hmem | ⟨hc, ho⟩
    · exact State.memRead_of_mem_eq hmem a
    · exact ho a fun k hk => dstAt_ne_of_not_inDst (hp.regions hc).1 ha hk
  refine ⟨hout, fun a _ ha hc => hout a ((hp.regions hc).2 a ha), fun he hd => ?_⟩
  exact hcases.resolve_right fun ⟨hc, _⟩ => hc.elim he hd

end Sys2Proof.Machine

/-! # Decoding and encoding (30_encoding) -/

namespace Sys2Proof

/-! ### The fields of a match code and its bytes (30_encoding R89 to R91) -/

/-- The high nibble of a match code's first byte is the field put there. -/
theorem highNibble_matchByte0 (l : BitVec 4) (d : BitVec 12) : highNibble (l ++ d.extractLsb' 8 4) = l := by
  apply BitVec.eq_of_toNat_eq
  rw [highNibble_toNat, matchByte0_toNat]
  omega

/-- The distance field of a match code's two bytes is the field put there. -/
theorem distField_matchBytes (l : BitVec 4) (d : BitVec 12) :
    distField (l ++ d.extractLsb' 8 4) (d.extractLsb' 0 8) = d := by
  apply BitVec.eq_of_toNat_eq
  rw [distField_toNat, matchByte0_toNat, matchByte1_toNat]
  omega

/-- The first byte put together from the fields read from it. -/
theorem matchByte0_fields (b0 b1 : Byte) : highNibble b0 ++ (distField b0 b1).extractLsb' 8 4 = b0 := by
  apply BitVec.eq_of_toNat_eq
  rw [matchByte0_toNat, highNibble_toNat, distField_toNat]
  omega

/-- The second byte put together from the distance field. -/
theorem matchByte1_distField (b0 b1 : Byte) : (distField b0 b1).extractLsb' 0 8 = b1 := by
  apply BitVec.eq_of_toNat_eq
  rw [matchByte1_toNat, distField_toNat]
  omega

/-- The first byte of a match code, from the numbers in its fields (30_encoding R92). -/
theorem matchByte0_ofNat {a D : Nat} (hD : D < 4096) :
    BitVec.ofNat 4 a ++ (BitVec.ofNat 12 D).extractLsb' 8 4 = BitVec.ofNat 8 (a <<< 4 ||| D >>> 8) := by
  have hor : a <<< 4 ||| D >>> 8 = a * 16 + D / 256 := by
    rw [← Nat.shiftLeft_add_eq_or_of_lt (by rw [Nat.shiftRight_eq_div_pow]; omega), Nat.shiftLeft_eq, Nat.shiftRight_eq_div_pow]
  apply BitVec.eq_of_toNat_eq
  rw [matchByte0_toNat, hor]
  simp only [BitVec.toNat_ofNat]
  omega

/-- The second byte of a match code, from the number in the distance field (30_encoding R92). -/
theorem matchByte1_ofNat (D : Nat) : (BitVec.ofNat 12 D).extractLsb' 0 8 = BitVec.ofNat 8 (D &&& 0xFF) := by
  apply BitVec.eq_of_toNat_eq
  rw [matchByte1_toNat, Nat.and_two_pow_sub_one_eq_mod D 8]
  simp only [BitVec.toNat_ofNat]
  omega

/-! ### What decodes as a match code, and as a header (30_encoding R83, R84, R94) -/

section decoding

variable {b0 b1 b2 s0 s1 s2 s3 : Byte} {rest : List Byte}

theorem decode_mtch_short (h : highNibble b0 ≠ 0#4) :
    decode .mtch (b0 :: b1 :: rest) = .ok (.sm (highNibble b0) (distField b0 b1), rest) := if_neg h

theorem decode_mtch_long (h : highNibble b0 = 0#4) :
    decode .mtch (b0 :: b1 :: b2 :: rest) = .ok (.lm (distField b0 b1) b2, rest) := if_pos h

/-- The two forms are all that decodes as a match code. -/
theorem decode_mtch_cases {bs : List Byte} {i : Instr} (h : decode .mtch bs = .ok (i, rest)) :
    (∃ b0 b1, highNibble b0 ≠ 0#4 ∧ bs = b0 :: b1 :: rest ∧ i = .sm (highNibble b0) (distField b0 b1)) ∨
      ∃ b0 b1 b2, highNibble b0 = 0#4 ∧ bs = b0 :: b1 :: b2 :: rest ∧ i = .lm (distField b0 b1) b2 := by
  rcases bs with - | ⟨b0, - | ⟨b1, tail⟩⟩
  · cases h
  · cases h
  · by_cases hl : highNibble b0 = 0#4
    · rcases tail with - | ⟨b2, tail⟩
      · cases (if_pos hl).symm.trans h
      · cases (decode_mtch_long hl).symm.trans h
        exact .inr ⟨b0, b1, b2, hl, rfl, rfl⟩
    · cases (decode_mtch_short hl).symm.trans h
      exact .inl ⟨b0, b1, hl, rfl, rfl⟩

theorem decode_hdr_magic :
    decode .hdr (Config.magic ++ s0 :: s1 :: s2 :: s3 :: rest) = .ok (.hdr (s0 ++ s1 ++ s2 ++ s3), rest.drop 8) := rfl

/-- Eight bytes or more that do not start with the magic. -/
theorem decode_hdr_badMagic {bs : List Byte} (hlen : 8 ≤ bs.length) (h : bs.take 4 ≠ Config.magic) :
    decode .hdr bs = .error .badMagic := by
  rcases bs with - | ⟨m0, - | ⟨m1, - | ⟨m2, - | ⟨m3, - | ⟨s0, - | ⟨s1, - | ⟨s2, - | ⟨s3, tail⟩⟩⟩⟩⟩⟩⟩⟩
  case cons.cons.cons.cons.cons.cons.cons.cons => exact if_neg h
  all_goals simp at hlen

end decoding

/-- A word is the four bytes of it that a header holds (30_encoding R83). -/
theorem word_of_bytes (n : Word) :
    n.extractLsb' 24 8 ++ n.extractLsb' 16 8 ++ n.extractLsb' 8 8 ++ n.extractLsb' 0 8 = n := by
  apply BitVec.eq_of_toNat_eq
  rw [word_toNat]
  simp only [field_toNat]
  omega

/-! ### The operands of a match instruction (30_encoding R91, R92) -/

theorem matchOperands_sm (l : BitVec 4) (d : BitVec 12) : Machine.matchOperands (.sm l d) = some (l.toNat + 2, d.toNat + 1) := by
  rw [Machine.matchOperands, shortLength_toNat, matchDistance_toNat]

theorem matchOperands_lm (d : BitVec 12) (n : Byte) : Machine.matchOperands (.lm d n) = some (n.toNat + 18, d.toNat + 1) := by
  rw [Machine.matchOperands, longLength_toNat, matchDistance_toNat]

section matchInstr

variable {len dist : Nat}

theorem matchInstr_short (h : len ≤ 17) : matchInstr len dist = .sm (BitVec.ofNat 4 (len - 2)) (BitVec.ofNat 12 (dist - 1)) := if_pos h

theorem matchInstr_long (h : 18 ≤ len) : matchInstr len dist = .lm (BitVec.ofNat 12 (dist - 1)) (BitVec.ofNat 8 (len - 18)) :=
  if_neg (Nat.not_le.mpr h)

/-- A short match's length field is not 0. -/
theorem wellFormed_matchInstr (h3 : 3 ≤ len) : wellFormed (matchInstr len dist) = true := by
  by_cases hs : len ≤ 17
  · have hl : BitVec.ofNat 4 (len - 2) ≠ 0#4 := by
      intro h0
      have := congrArg BitVec.toNat h0
      simp only [BitVec.toNat_ofNat] at this
      omega
    rw [matchInstr_short hs]
    exact bne_iff_ne.mpr hl
  · rw [matchInstr_long (by omega)]
    rfl

/-- In range, the fields of the match instruction hold its operands. -/
theorem matchOperands_matchInstr (h3 : 3 ≤ len) (h273 : len ≤ 273) (h1 : 1 ≤ dist) (h4096 : dist ≤ 4096) :
    Machine.matchOperands (matchInstr len dist) = some (len, dist) := by
  by_cases hs : len ≤ 17
  · rw [matchInstr_short hs, matchOperands_sm, BitVec.toNat_ofNat, BitVec.toNat_ofNat,
      show (len - 2) % 2 ^ 4 + 2 = len by omega, show (dist - 1) % 2 ^ 12 + 1 = dist by omega]
  · rw [matchInstr_long (by omega), matchOperands_lm, BitVec.toNat_ofNat, BitVec.toNat_ofNat,
      show (len - 18) % 2 ^ 8 + 18 = len by omega, show (dist - 1) % 2 ^ 12 + 1 = dist by omega]

/-- A match instruction is given by its operands: a short form's length is at most 17, a long form's at least 18 (30_encoding R93). -/
theorem eq_matchInstr_of_operands {i : Instr} (h : Machine.matchOperands i = some (len, dist)) : i = matchInstr len dist := by
  cases i with
  | sm l d =>
    have := l.isLt
    rw [matchOperands_sm] at h
    cases h
    rw [matchInstr_short (by omega)]
    simp
  | lm d n =>
    rw [matchOperands_lm] at h
    cases h
    rw [matchInstr_long (by omega)]
    simp
  | _ => cases h

end matchInstr

/-! ### The statements -/

/-- Settles O1: a command's word is closed; a header's size and a match's fields are read back from their bytes. -/
theorem decodeOfEncode : Obligations.DecodeOfEncode := by
  intro i rest hwf
  cases i with
  | nop | encode | decode | peekSize | isYaz0 | reserved5 | reserved6 | reserved7 | flag | lit => rfl
  | hdr size =>
    have h : decode .hdr (hdrBytes size ++ rest) = _ := decode_hdr_magic
    rw [word_of_bytes] at h
    exact h
  | sm l d =>
    have hl : highNibble (l ++ d.extractLsb' 8 4) ≠ 0#4 := by rw [highNibble_matchByte0]; exact bne_iff_ne.mp hwf
    exact (decode_mtch_short (rest := rest) hl).trans (by rw [highNibble_matchByte0, distField_matchBytes])
  | lm d n => exact (decode_mtch_long (rest := rest) (highNibble_matchByte0 0#4 d)).trans (by rw [distField_matchBytes])

/-- Settles O2: in either form of `decode_mtch_cases` the fields read give the bytes back. -/
theorem encodeOfDecodedMatch : Obligations.EncodeOfDecodedMatch := by
  intro bs rest i h
  obtain ⟨b0, b1, hl, rfl, rfl⟩ | ⟨b0, b1, b2, hl, rfl, rfl⟩ := decode_mtch_cases h
  · refine ⟨bne_iff_ne.mpr hl, ?_⟩
    rw [encode, matchByte0_fields, matchByte1_distField]
    rfl
  · refine ⟨rfl, ?_⟩
    rw [encode, ← hl, matchByte0_fields, matchByte1_distField]
    rfl

/-- Settles O4: the form is chosen by the high nibble, and the operands are those of its fields. -/
theorem matchOperandAssembly : Obligations.MatchOperandAssembly := by
  intro b0 b1 b2 rest
  have hnib : highNibble b0 = 0#4 ↔ b0.toNat / 16 = 0 := by rw [← BitVec.toNat_inj, highNibble_toNat]; rfl
  refine ⟨fun h => ⟨_, decode_mtch_short (mt hnib.mp h), ?_⟩, fun h => ⟨_, decode_mtch_long (hnib.mpr h), ?_⟩, ?_⟩
  · rw [matchOperands_sm, highNibble_toNat, distField_toNat]
  · rw [matchOperands_lm, distField_toNat]
  · omega

/-- Settles O5: each form's bytes, from the numbers in its fields; a long match's first byte has a high nibble of 0. -/
theorem matchTokenBytes : Obligations.MatchTokenBytes := by
  intro len dist h3 h273 h1 h4096
  have hD : (dist - 1) >>> 8 ≤ 15 := by rw [Nat.shiftRight_eq_div_pow]; omega
  refine ⟨fun hs => ⟨?_, hD⟩, fun hl => ?_⟩
  · rw [matchInstr_short hs, encode, matchByte0_ofNat (by omega), matchByte1_ofNat]
  · have hand : (dist - 1) >>> 8 &&& 0x0F = (dist - 1) >>> 8 := by
      rw [Nat.and_two_pow_sub_one_eq_mod _ 4]
      omega
    rw [matchInstr_long hl, encode, matchByte0_ofNat (by omega), matchByte1_ofNat, hand, Nat.zero_shiftLeft, Nat.zero_or]

/-- Settles O6: `matchInstr` has the operands, and whatever has them is `matchInstr`. -/
theorem oneEncodingPerMatch : Obligations.OneEncodingPerMatch := fun _ _ h3 h273 h1 h4096 =>
  ⟨wellFormed_matchInstr h3, matchOperands_matchInstr h3 h273 h1 h4096, fun _ _ h => eq_matchInstr_of_operands h⟩

/-- Settles O7: `decode_hdr_magic` with the reserved bytes dropped, and `decode_hdr_badMagic`. -/
theorem headerDecodes : Obligations.HeaderDecodes := by
  refine ⟨fun s0 s1 s2 s3 rsv rest hrsv => ⟨s0 ++ s1 ++ s2 ++ s3, ?_, word_toNat s0 s1 s2 s3⟩, fun bs => decode_hdr_badMagic⟩
  have h : decode .hdr (Config.magic ++ s0 :: s1 :: s2 :: s3 :: (rsv ++ rest)) = _ := decode_hdr_magic
  rw [List.drop_left' hrsv] at h
  exact h

/-- Settles O3: OP is the word modulo 8, and each of its eight values is looked up. -/
theorem commandMap : Obligations.CommandMap := by
  intro w
  have hop : (w.extractLsb' 0 3).toNat = w.toNat % 8 := by rw [field_toNat]; omega
  rw [← hop, decodeCmd]
  generalize w.extractLsb' 0 3 = op
  revert op
  decide

/-- Settles O8: each word is closed, and is decoded. -/
theorem specWordsDecode : Obligations.SpecWordsDecode :=
  ⟨rfl, rfl, rfl, rfl, rfl, rfl, rfl, rfl, rfl, rfl⟩

end Sys2Proof

/-! # The command interface: how a command starts (40_command_interface R110 to R118) -/

namespace Sys2Proof.Machine

/-! ### The start checks, in the statements' words -/

theorem regionWraps_iff {addr len : Word} : regionWraps addr len = true ↔ 2 ^ 32 < addr.toNat + len.toNat := decide_eq_true_iff

theorem regionsOverlap_iff {s : State} : regionsOverlap s.srcAddr s.srcLen s.dstAddr s.dstCap = true ↔ RegionsShare s :=
  decide_eq_true_iff

section startCheck

variable {s : State} {op : Op}

/-- A source that wraps is reported before anything else (40_command_interface R113). -/
theorem startCheck_srcWraps (hop : op ≠ .reserved) (h : SrcWraps s) : startCheck op s = some .regionWrap := by
  rw [startCheck, if_neg hop, if_pos (regionWraps_iff.mpr h)]

/-- The checks that are left when the source is in order: those of the destination, and the command's own. -/
theorem startCheck_of_srcFits (hop : op ≠ .reserved) (h : ¬ SrcWraps s) :
    startCheck op s =
      if op.usesDst && regionWraps s.dstAddr s.dstCap then some .regionWrap
      else if op.usesDst && regionsOverlap s.srcAddr s.srcLen s.dstAddr s.dstCap then some .regionOverlap
      else if op = .encode then encodeCheck s
      else none := by
  rw [startCheck, if_neg hop, if_neg (mt regionWraps_iff.mp h)]

theorem Op.ne_reserved_of_usesDst (hu : op.usesDst = true) : op ≠ .reserved := by rintro rfl; cases hu

/-- Either region that wraps is an error of a command that uses both (40_command_interface R113). -/
theorem startCheck_wraps (hu : op.usesDst = true) (h : SrcWraps s ∨ DstWraps s) : startCheck op s = some .regionWrap := by
  have hop := Op.ne_reserved_of_usesDst hu
  by_cases hsrc : SrcWraps s
  · exact startCheck_srcWraps hop hsrc
  · have hdst := regionWraps_iff.mpr (h.resolve_left hsrc)
    rw [startCheck_of_srcFits hop hsrc, hu, hdst]
    rfl

/-- Regions that do not wrap are an error if they share a byte (40_command_interface R114). -/
theorem startCheck_share (hu : op.usesDst = true) (hsrc : ¬ SrcWraps s) (hdst : ¬ DstWraps s) (h : RegionsShare s) :
    startCheck op s = some .regionOverlap := by
  rw [startCheck_of_srcFits (Op.ne_reserved_of_usesDst hu) hsrc, hu, Bool.eq_false_iff.mpr (mt regionWraps_iff.mp hdst),
    regionsOverlap_iff.mpr h]
  rfl

/-- Regions in order leave ENCODE's own checks (40_command_interface R112). -/
theorem startCheck_fit (hu : op.usesDst = true) (h : RegionsFit s) :
    startCheck op s = if op = .encode then encodeCheck s else none := by
  obtain ⟨hsrc, hdst, hshare⟩ := h
  rw [startCheck_of_srcFits (Op.ne_reserved_of_usesDst hu) hsrc, hu, Bool.eq_false_iff.mpr (mt regionWraps_iff.mp hdst),
    Bool.eq_false_iff.mpr (mt regionsOverlap_iff.mp hshare)]
  rfl

/-- A command without a destination has no other check than the source's (46_header_utilities R235). -/
theorem startCheck_srcOnly (hop : op ≠ .reserved) (hu : op.usesDst = false) (h : ¬ SrcWraps s) : startCheck op s = none := by
  have hne : op ≠ .encode := by rintro rfl; cases hu
  rw [startCheck_of_srcFits hop h, hu, if_neg hne]
  rfl

/-- ENCODE's limits, met (44_encoder R181). -/
theorem encodeCheck_none (hn : s.srcLen.toNat ≤ 2 ^ 31 - 1)
    (hcap : 16 + s.srcLen.toNat + (s.srcLen.toNat + 7) / 8 + 1 ≤ s.dstCap.toNat) : encodeCheck s = none := by
  have hn' : ¬ Config.maxInLen < s.srcLen.toNat := Nat.not_lt.mpr hn
  have hcap' : ¬ s.dstCap.toNat < Config.bound s.srcLen.toNat := Nat.not_lt.mpr hcap
  rw [encodeCheck, if_neg hn', if_neg hcap']

end startCheck

/-! ### Acceptance, and the error of a start check -/

section idle

variable {s : State} (h : s.ctrl = .idle) {op : Op}
include h

/-- An idle block accepts a command that passes its checks (40_command_interface R111). -/
theorem start_accepted (hchk : startCheck op s = none) :
    (.next (start op s) : Host.Outcome State Fault Refusal) = .next (s.accept op) := by
  have hchk' : startCheck op (s.accept op) = none := (startCheck_congr ⟨rfl, rfl, rfl, rfl⟩ op).trans hchk
  rw [start, State.isBusy_of_idle h, hchk']
  rfl

/-- An idle block takes the error of the first check that fails (40_command_interface R112, 60_exceptions R243). -/
theorem start_errorTaken {c : Cause} (hchk : startCheck op s = some c) :
    ∃ t, (.next (start op s) : Host.Outcome State Fault Refusal) = .next t ∧ ErrorTaken s t (statusError c) := by
  have hchk' : startCheck op (s.accept op) = some c := (startCheck_congr ⟨rfl, rfl, rfl, rfl⟩ op).trans hchk
  rw [start, State.isBusy_of_idle h, hchk']
  exact ⟨_, rfl, rfl, rfl, rfl, ⟨rfl, rfl, rfl, rfl⟩, rfl, rfl, rfl, rfl⟩

/-- DECODE with its regions in order is accepted (45_decoder R201). -/
theorem exec_decode_accepted (hfit : RegionsFit s) : exec .decode s = .next (s.accept .decode) :=
  start_accepted h (startCheck_fit rfl hfit)

/-- ENCODE within its limits is accepted (44_encoder R181). -/
theorem exec_encode_accepted (hchk : startCheck .encode s = none) : exec .encode s = .next (s.accept .encode) :=
  start_accepted h hchk

end idle

/-- ENCODE's start checks pass for regions in order, within its limits (44_encoder R181). -/
theorem startCheck_encode_ready {s : State} (hfit : RegionsFit s) (hn : s.srcLen.toNat ≤ 2 ^ 31 - 1)
    (hcap : 16 + s.srcLen.toNat + (s.srcLen.toNat + 7) / 8 + 1 ≤ s.dstCap.toNat) : startCheck .encode s = none :=
  (startCheck_fit rfl hfit).trans (encodeCheck_none hn hcap)

/-! ### The obligations on the start of a command -/

/-- Settles O25: OP 0 is NOP by `commandMap`, and NOP is the identity. -/
theorem nopChangesNothing : Obligations.NopChangesNothing := by
  intro s v hv
  have hnop := commandMap v
  rw [hv] at hnop
  have hdec : decodeCmd v = .nop := (Option.some.inj hnop).symm
  rw [hdec]
  exact ⟨rfl, rfl⟩

/-- Settles O26: each reserved code fails the first start check. -/
theorem reservedCodesAreIllegal : Obligations.ReservedCodesAreIllegal := by
  intro s h
  have herr := start_errorTaken h (op := .reserved) (c := .illegalCmd) rfl
  exact ⟨herr, herr, herr⟩

/-- Settles O27: the start check that fails is named by the case, and a command that passes is accepted. -/
theorem regionChecks : Obligations.RegionChecks := by
  intro s h
  refine ⟨?wraps, ?share, ?srcWraps, ?srcFits⟩
  case wraps => rintro i (rfl | rfl) hw <;> exact start_errorTaken h (startCheck_wraps rfl hw)
  case share => rintro i (rfl | rfl) hs hd hov <;> exact start_errorTaken h (startCheck_share rfl hs hd hov)
  case srcWraps =>
    rintro i (rfl | rfl) hs
    · exact start_errorTaken h (op := .peekSize) (startCheck_srcWraps nofun hs)
    · exact start_errorTaken h (op := .isYaz0) (startCheck_srcWraps nofun hs)
  case srcFits =>
    rintro i (rfl | rfl) hs
    · exact ⟨_, start_accepted h (op := .peekSize) (startCheck_srcOnly nofun rfl hs), rfl⟩
    · exact ⟨_, start_accepted h (op := .isYaz0) (startCheck_srcOnly nofun rfl hs), rfl⟩

/-- Settles O29: the accepted state, field by field. -/
theorem encodeAndDecodeAccepted : Obligations.EncodeAndDecodeAccepted := fun _ h hfit =>
  ⟨exec_decode_accepted h hfit, fun hn hcap => exec_encode_accepted h (startCheck_encode_ready hfit hn hcap)⟩

end Sys2Proof.Machine

/-! # The block always has a next step (40_command_interface R118) -/

namespace Sys2Proof.Machine

/-- What a running command has to want next for an item of this kind to run; a stream holds no command words
(30_encoding R80, R94). -/
def wantedFor : Select → Want
  | .cmd => .nothing
  | .hdr => .header
  | .flag => .flag
  | .lit => .literal
  | .mtch => .matchCode

section answers

variable {s : State}

/-- An item that the running command wants is not refused. -/
theorem exec_answers {i : Instr} (hi : selectOf i ≠ .cmd) (hw : want s = wantedFor (selectOf i)) : ∃ t, exec i s = .next t := by
  cases i with
  | nop | encode | decode | peekSize | isYaz0 | reserved5 | reserved6 | reserved7 => exact absurd rfl hi
  | hdr size =>
    have hw' : ¬ want s ≠ .header := Decidable.not_not.mpr hw
    rw [exec, execHdr, if_neg hw']
    repeat' split
    all_goals exact ⟨_, rfl⟩
  | flag f =>
    have hw' : ¬ want s ≠ .flag := Decidable.not_not.mpr hw
    rw [exec, execFlag, if_neg hw']
    split <;> exact ⟨_, rfl⟩
  | lit b =>
    have hw' : ¬ want s ≠ .literal := Decidable.not_not.mpr hw
    rw [exec, execLit, if_neg hw']
    repeat' split
    all_goals exact ⟨_, rfl⟩
  | sm l d => exact ⟨_, if_neg (Decidable.not_not.mpr hw)⟩
  | lm d n => exact ⟨_, if_neg (Decidable.not_not.mpr hw)⟩

/-- Fetching an item that the running command wants leads to a next state. -/
theorem runItem_answers {sel : Select} (hs : sel ≠ .cmd) (hw : want s = wantedFor sel) (need : Nat) (c : Cause) :
    ∃ t, perform (runItem s sel need c) = .next t := by
  rcases runItem_cases (s := s) (sel := sel) (need := need) (c := c) with ⟨i, bs, rest, hi, he⟩ | he <;> rw [he]
  · have hsel := decode_select hi
    exact exec_answers (hsel ▸ hs) (hsel ▸ hw)
  · exact ⟨_, rfl⟩

theorem runHeader_answers (hw : want s = .header) : ∃ t, perform (runHeader s) = .next t := by
  rcases runHeader_cases s with ⟨size, he⟩ | ⟨c, -, he⟩ <;> rw [he]
  · exact exec_answers (i := .hdr size) nofun hw
  · exact ⟨_, rfl⟩

theorem streamTurn_answers (s : State) : ∃ t, perform (streamTurn s) = .next t := by
  unfold streamTurn
  cases hw : want s with
  | nothing | done => exact ⟨_, rfl⟩
  | header => exact runHeader_answers hw
  | flag => exact runItem_answers (sel := .flag) nofun hw _ _
  | literal => exact runItem_answers (sel := .lit) nofun hw _ _
  | matchCode => exact runItem_answers (sel := .mtch) nofun hw _ _

/-- The block's step always leads to a next state. -/
theorem blockTurn_answers (s : State) : ∃ t, perform (blockTurn s) = .next t := by
  unfold blockTurn
  cases s.ctrl with
  | idle => exact ⟨_, rfl⟩
  | busy op =>
    cases op with
    | encode | isYaz0 | reserved => exact ⟨_, rfl⟩
    | decode | peekSize => exact streamTurn_answers s

/-- The block's step from any pending actions and any word read. -/
theorem blockTurn_withHost {t : State} (h : perform (blockTurn s) = .next t) (q : List HostAction) (v : Word) :
    perform (blockTurn (s.withHost q v)) = .next (t.withHost q v) := by
  rw [block_withHost, h]
  rfl

/-- The block's step leaves the pending actions and the word read as they are. -/
theorem blockTurn_host {t : State} (h : perform (blockTurn s) = .next t) : t.host = s.host ∧ t.portData = s.portData := by
  have hsame : Host.Outcome.next t = .next (t.withHost s.host s.portData) := h.symm.trans (blockTurn_withHost h s.host s.portData)
  injection hsame with ht
  rw [ht]
  exact ⟨rfl, rfl⟩

/-- PASS is one step of the block (log 2). -/
theorem step_pass {rest : List HostAction} (h : s.host = .pass :: rest) :
    step s = perform (blockTurn (s.withHost rest s.portData)) := step_hostTurn h

/-- WAIT on a busy block is one step of the block, STATUS read and WAIT still pending (30_encoding R97). -/
theorem step_wait_busy {op : Op} {rest : List HostAction} (hc : s.ctrl = .busy op) (h : s.host = .wait :: rest) :
    step s = perform (blockTurn (s.withHost (.wait :: rest) s.status)) := by
  have hbusy : (s.withHost rest s.portData).isBusy = true := State.isBusy_of_busy hc
  rw [step_hostTurn h, hostTurn, if_pos hbusy]
  rfl

/-- WAIT on an idle block ends with STATUS read (30_encoding R97). -/
theorem step_wait_idle {rest : List HostAction} (hc : s.ctrl = .idle) (h : s.host = .wait :: rest) :
    step s = .next (s.withHost rest s.status) := by
  have hidle : (s.withHost rest s.portData).isBusy = false := State.isBusy_of_idle hc
  rw [step_hostTurn h, hostTurn, hidle]
  rfl

theorem step_idle (hh : s.host = []) (hc : s.ctrl = .idle) : step s = .next s := by
  rw [step_blockTurn hh, blockTurn, hc]
  rfl

end answers

/-- Settles O11: `blockTurn_answers` gives the step, and `blockTurn_withHost` carries it to PASS and WAIT. -/
theorem blockNeverStops : Obligations.BlockNeverStops := by
  intro s hh
  obtain ⟨t, ht⟩ := blockTurn_answers s
  obtain ⟨-, hport⟩ := blockTurn_host ht
  refine ⟨t, (step_blockTurn hh).trans ht, fun hc => ?idle,
    fun rest => ⟨?pass, fun hc => ?busy, fun hc => step_wait_idle hc rfl⟩⟩
  case idle =>
    have hsame := ht.symm.trans ((step_blockTurn hh).symm.trans (step_idle hh hc))
    injection hsame
  case pass =>
    have hpass : { t with host := rest } = t.withHost rest s.portData := by rw [State.withHost, ← hport]
    rw [step_pass rfl, hpass]
    exact blockTurn_withHost ht rest s.portData
  case busy =>
    obtain ⟨op, hop⟩ := State.busy_of_ne_idle hc
    exact (step_wait_busy (s := { s with host := .wait :: rest }) hop rfl).trans (blockTurn_withHost ht _ _)

end Sys2Proof.Machine

/-! # A command that is left alone runs to its end (40_command_interface R118) -/

namespace Sys2Proof.Machine

/-! ### Runs -/

theorem run_succ {s t : State} (h : step s = .next t) (k : Nat) : Host.Core.run core (k + 1) s = Host.Core.run core k t := by
  have h' : core.step s = .next t := h
  simp only [Host.Core.run, h']

/-- A run reaches IDLE if each step from a busy state that keeps `P` keeps `P`, and lowers `left` for as long as the block stays
busy. -/
theorem run_reaches_idle {P : State → Prop} (left : State → Nat)
    (hstep : ∀ s, P s → s.ctrl ≠ .idle → ∃ t, step s = .next t ∧ P t ∧ (t.ctrl ≠ .idle → left t < left s)) {s : State}
    (hs : P s) : ∃ (k : Nat) (u : State), Host.Core.run core k s = .next u ∧ u.ctrl = .idle ∧ P u := by
  induction hn : left s using Nat.strongRecOn generalizing s with
  | ind n ih =>
    by_cases hc : s.ctrl = .idle
    · exact ⟨0, s, rfl, hc, hs⟩
    · obtain ⟨t, ht, hP, hlt⟩ := hstep s hs hc
      by_cases hct : t.ctrl = .idle
      · exact ⟨1, t, run_succ ht 0, hct, hP⟩
      · obtain ⟨k, u, hrun, hu⟩ := ih _ (hn ▸ hlt hct) hP rfl
        exact ⟨k + 1, u, (run_succ ht k).trans hrun, hu⟩

/-! ### The block leaves the parameters alone (10_state R22) -/

theorem StreamMove.sameParams {s t : State} (h : StreamMove s t) : SameParams s t := by
  cases h with
  | copied => rw [copyBytes_frame]; exact ⟨rfl, rfl, rfl, rfl⟩
  | _ => exact ⟨rfl, rfl, rfl, rfl⟩

theorem BlockMove.sameParams {s t : State} (h : BlockMove s t) : SameParams s t := by
  cases h with
  | idle | reserved | isYaz0 => exact ⟨rfl, rfl, rfl, rfl⟩
  | stream _ h => exact h.sameParams
  | encode =>
    by_cases hp : s.phase = .flushed
    · rw [encodeMove_flushed hp]; exact ⟨rfl, rfl, rfl, rfl⟩
    · exact (encodeMove_continues hp).params

section SameParams

variable {s t u : State}

theorem SameParams.trans (h : SameParams s t) (h' : SameParams t u) : SameParams s u := by
  obtain ⟨h1, h2, h3, h4⟩ := h
  obtain ⟨h1', h2', h3', h4'⟩ := h'
  exact ⟨h1'.trans h1, h2'.trans h2, h3'.trans h3, h4'.trans h4⟩

theorem SameParams.dstAt (h : SameParams s t) (k : Nat) : t.dstAt k = s.dstAt k := by
  obtain ⟨-, -, hdst, -⟩ := h
  rw [State.dstAt, hdst, State.dstAt]

theorem SameParams.inDst (h : SameParams s t) (a : Word) : InDst t a ↔ InDst s a := by
  obtain ⟨-, -, hdst, hcap⟩ := h
  rw [InDst, hdst, hcap, InDst]

end SameParams

/-- A step without pending host actions: a move of the block, which leaves the host's side and the parameters alone. -/
theorem step_blockMove {s : State} (hh : s.host = []) :
    ∃ t, step s = .next t ∧ perform (blockTurn s) = .next t ∧ t.host = [] ∧ SameParams s t := by
  obtain ⟨t, ht⟩ := blockTurn_answers s
  exact ⟨t, (step_blockTurn hh).trans ht, ht, (blockTurn_host ht).1.trans hh, (block_cases ht).sameParams⟩

/-! ### DECODE: each step ends it, or leaves fewer to take -/

/-- A DECODE that declares `n` bytes: it still has to read the size from its header, or has read it (45_decoder R202). -/
def Declares (n : Nat) (s : State) : Prop := if s.phase = .begin then srcSize s = n else s.dec.size.toNat = n

/-- A DECODE has ended with `n` bytes, or with an error (45_decoder R210, 60_exceptions R243). -/
def DecodeEnded (n : Nat) (s : State) : Prop :=
  (s.status = 0x2#32 ∧ s.result.toNat = n) ∨ ∃ c, s.status = statusError c ∧ s.result = 0#32

/-- 1 where a flag byte has to be fetched before the next token (45_decoder R204). -/
def flagFetch (d : DecRegs) : Nat := if d.bits = 0#4 then 1 else 0

/-- A bound on the tokens and flag fetches that DECODE's loop has left: each token writes a byte and needs at most one fetch. -/
def loopLeft (d : DecRegs) : Nat := 2 * (d.size.toNat - d.written.toNat) + flagFetch d

/-- A bound on the steps that a running DECODE has left before its last. -/
def decodeLeft (s : State) : Nat := if s.phase = .begin then 2 ^ 33 else loopLeft s.dec

theorem flagFetch_le (d : DecRegs) : flagFetch d ≤ 1 := by unfold flagFetch; split <;> omega

theorem loopLeft_lt (d : DecRegs) : loopLeft d < 2 ^ 33 := by
  have := d.size.isLt
  have := flagFetch_le d
  unfold loopLeft
  omega

/-- A flag fetch leaves one step less. -/
theorem loopLeft_flag {d d' : DecRegs} (hb : d.bits = 0#4) (hb' : d'.bits ≠ 0#4) (hs : d'.size = d.size)
    (hw : d'.written = d.written) : loopLeft d' < loopLeft d := by
  rw [loopLeft, loopLeft, flagFetch, flagFetch, if_pos hb, if_neg hb', hs, hw]
  omega

/-- A token of `m` bytes leaves fewer steps, even if a flag fetch comes next. -/
theorem loopLeft_token {d d' : DecRegs} {m : Nat} (hm : 1 ≤ m) (hle : d.written.toNat + m ≤ d.size.toNat) (hs : d'.size = d.size)
    (hw : d'.written = d.written + BitVec.ofNat 32 m) : loopLeft d' < loopLeft d := by
  have hlt := d.size.isLt
  have hw' : d'.written.toNat = d.written.toNat + m := hw ▸ offset_toNat _ (by omega)
  have := flagFetch_le d'
  rw [loopLeft, loopLeft, hs, hw']
  omega

/-- A flag byte is fetched when the last is used up (45_decoder R204). -/
theorem want_flag {s : State} (h : want s = .flag) : s.dec.bits = 0#4 := by
  obtain ⟨hd, hp⟩ := want_decode (s := s) (by simp [h]) (by simp [h])
  simp only [want, hd, hp, ↓reduceIte, wantToken] at h
  by_cases hb : s.dec.bits = 0#4
  · exact hb
  · rw [if_neg hb] at h
    repeat' split at h
    all_goals cases h

/-- The header's size is the one that source bytes 4 to 7 declare (30_encoding R83). -/
theorem decode_hdr_srcBytes {s : State} {i : Instr} {rest : List Byte}
    (h : decode .hdr (s.srcBytes 0 Config.peekLen) = .ok (i, rest)) : ∃ size, i = .hdr size ∧ size.toNat = srcSize s := by
  have h' : (if [s.srcByte 0, s.srcByte 1, s.srcByte 2, s.srcByte 3] = Config.magic then
      (.ok (.hdr (s.srcByte 4 ++ s.srcByte 5 ++ s.srcByte 6 ++ s.srcByte 7), []) : Except Reject (Instr × List Byte))
    else .error .badMagic) = .ok (i, rest) := h
  split at h'
  · cases h'; exact ⟨_, rfl, word_toNat ..⟩
  · cases h'

/-- A header that DECODE accepts leaves its size in `size` (45_decoder R202, R203). -/
theorem checkHeader_size {s : State} {size : Word} (h : (checkHeader s size).ctrl ≠ .idle) :
    (checkHeader s size).dec.size = size := by
  unfold checkHeader at h ⊢
  split at h
  · exact absurd rfl h
  · split at h
    · exact absurd rfl h
    · rename_i h0 hcap
      rw [if_neg h0, if_neg hcap]

/-- DECODE's first step ends it, or leaves the declared size in `size` (45_decoder R202). -/
theorem header_size {s t : State} (hd : s.ctrl = .busy .decode) (hp : s.phase = .begin) (h : perform (blockTurn s) = .next t)
    (ht : t.ctrl ≠ .idle) : t.dec.size.toNat = srcSize s := by
  have hw : want s = .header := by simp only [want, hd, hp, ↓reduceIte]
  simp only [blockTurn, hd, streamTurn, hw, runHeader] at h
  split at h
  · cases h; exact absurd rfl ht
  · rename_i hlen
    split at h
    · rename_i i rest hi
      obtain ⟨size, rfl, hsize⟩ := decode_hdr_srcBytes hi
      have hpeek : ¬ s.ctrl = .busy .peekSize := by rw [hd]; nofun
      rw [perform_run, exec, execHdr, if_neg (Decidable.not_not.mpr hw), if_neg hlen, if_neg hpeek] at h
      cases h
      rw [checkHeader_size ht, hsize]
    · cases h; exact absurd rfl ht

/-- DECODE goes on in its loop, with the same size and fewer steps left. -/
theorem decode_goes_on {s t : State} {n : Nat} (hd : s.ctrl = .busy .decode) (hn : Declares n s) (hp : s.phase ≠ .begin)
    (hc : t.ctrl = s.ctrl) (hph : t.phase = s.phase) (hsz : t.dec.size = s.dec.size) (hlt : loopLeft t.dec < loopLeft s.dec) :
    t.ctrl = .busy .decode ∧ Declares n t ∧ decodeLeft t < decodeLeft s := by
  have hpt : t.phase ≠ .begin := hph ▸ hp
  rw [Declares, if_neg hp] at hn
  rw [Declares, decodeLeft, decodeLeft, if_neg hp, if_neg hpt, if_neg hpt, hsz]
  exact ⟨hc.trans hd, hn, hlt⟩

/-- A move of a running DECODE ends it with the declared size or an error, or it goes on with fewer steps left. -/
theorem StreamMove.decode_ends_or_goes_on {s t : State} {n : Nat} (h : StreamMove s t) (hd : s.ctrl = .busy .decode) (hs : DecodeOk s)
    (hn : Declares n s) (hhdr : s.phase = .begin → t.ctrl ≠ .idle → t.dec.size.toNat = srcSize s) :
    (t.ctrl = .idle ∧ DecodeEnded n t) ∨ (t.ctrl = .busy .decode ∧ Declares n t ∧ decodeLeft t < decodeLeft s) := by
  cases h with
  | badHeader | badSize | truncated | literalFull | badMatch => exact .inl ⟨rfl, .inr ⟨_, rfl, rfl⟩⟩
  | peeked size hc => rw [hd] at hc; cases hc
  | headerDone size _ hp =>
    rw [Declares, if_pos hp] at hn
    have hdecl : size.toNat = n := (hhdr hp (by rw [hd]; nofun)).trans hn
    refine .inr ⟨hd, hdecl, ?_⟩
    rw [decodeLeft, decodeLeft, if_pos hp]
    exact loopLeft_lt _
  | flag f _ hp hw => exact .inr (decode_goes_on hd hn hp rfl rfl rfl (loopLeft_flag (want_flag hw) (by simp) rfl rfl))
  | literal b _ hp hw =>
    obtain ⟨hloop, -⟩ := hs.loop_dstCap hd hp
    have hlt := hloop.written_lt (want_token (.inl hw)).1
    exact .inr (decode_goes_on hd hn hp rfl rfl rfl (loopLeft_token (Nat.le_refl 1) hlt rfl rfl))
  | copied b0 b1 b2 k dist len _ hp hw _ _ _ _ h3 _ hle =>
    rw [copyBytes_frame]
    exact .inr (decode_goes_on hd hn hp rfl rfl rfl (loopLeft_token (by omega) hle rfl rfl))
  | done _ hp hw =>
    rw [Declares, if_neg hp] at hn
    exact .inl ⟨rfl, .inl ⟨rfl, (congrArg BitVec.toNat hw).trans hn⟩⟩

/-! ### DECODE's run -/

/-- A DECODE that was started at `s` and left alone has come to `t`. -/
structure DecodeRun (s t : State) : Prop where
  host : t.host = []
  params : SameParams s t
  outside : ∀ a, ¬ InDst s a → t.memRead a = s.memRead a
  running : t.ctrl ≠ .idle → t.ctrl = .busy .decode ∧ DecodeOk t ∧ Declares (srcSize s) t
  ended : t.ctrl = .idle → DecodeEnded (srcSize s) t

theorem DecodeRun.accept {s : State} (hh : s.host = []) : DecodeRun s (s.accept .decode) where
  host := hh
  params := ⟨rfl, rfl, rfl, rfl⟩
  outside _ _ := rfl
  running _ := ⟨rfl, fun _ => ⟨rfl, rfl, .inl rfl, nofun⟩, rfl⟩
  ended := nofun

/-- Each step of the run ends it, or leaves fewer. -/
theorem DecodeRun.step {s t : State} (hfit : ¬ DstWraps s) (h : DecodeRun s t) (hc : t.ctrl ≠ .idle) :
    ∃ u, step t = .next u ∧ DecodeRun s u ∧ (u.ctrl ≠ .idle → decodeLeft u < decodeLeft t) := by
  obtain ⟨hd, hok, hdecl⟩ := h.running hc
  obtain ⟨u, hstep, hblock, hhost, hparams⟩ := step_blockMove h.host
  have hmove : StreamMove t u := by
    rw [blockTurn, hd] at hblock
    exact stream_cases (.inl hd) hblock
  have hout : ∀ a, ¬ InDst s a → u.memRead a = s.memRead a := by
    intro a ha
    refine Eq.trans ?_ (h.outside a ha)
    rcases hmove.mem_cases hok with hmem | ⟨-, ho⟩
    · exact State.memRead_of_mem_eq hmem a
    · have ha' : ¬ InDst t a := mt (h.params.inDst a).mp ha
      obtain ⟨-, -, hdst, hcap⟩ := h.params
      exact ho a fun k hk => dstAt_ne_of_not_inDst (by rw [hdst, hcap]; omega) ha' hk
  rcases hmove.decode_ends_or_goes_on hd hok hdecl fun hp => header_size hd hp hblock with ⟨hi, hend⟩ | ⟨hdu, hdecl', hlt⟩
  · exact ⟨u, hstep, ⟨hhost, h.params.trans hparams, hout, absurd hi, fun _ => hend⟩, absurd hi⟩
  · have hbusy : u.ctrl ≠ .idle := by rw [hdu]; nofun
    exact ⟨u, hstep, ⟨hhost, h.params.trans hparams, hout, fun _ => ⟨hdu, hmove.decodeOk hok, hdecl'⟩, (absurd · hbusy)⟩,
      fun _ => hlt⟩

/-- Settles O44: the run keeps `DecodeRun`, and `decodeLeft` falls until it is idle. -/
theorem decodeEnds : Obligations.DecodeEnds := by
  intro s hh hc hfit
  obtain ⟨k, u, hrun, hidle, hu⟩ := run_reaches_idle decodeLeft (fun _ ht hbusy => ht.step hfit.2.1 hbusy) (DecodeRun.accept hh)
  exact ⟨_, k, u, exec_decode_accepted hc hfit, rfl, hrun, hidle, hu.params, hu.outside, hu.ended hidle⟩

end Sys2Proof.Machine

/-! # ENCODE runs to its end, within the bound (44_encoder R187 to R193) -/

namespace Sys2Proof.Machine

/-! ### What a move of ENCODE adds to the output -/

/-- `t` reads as `s` everywhere but at the first `m` destination offsets. -/
def WritesBelow (s t : State) (m : Nat) : Prop := ∀ a, (∀ k, k < m → s.dstAt k ≠ a) → t.memRead a = s.memRead a

section WritesBelow

variable {s t u : State} {m m' : Nat}

theorem WritesBelow.of_mem_eq (h : t.mem = s.mem) : WritesBelow s t m := fun a _ => State.memRead_of_mem_eq h a

theorem WritesBelow.trans (h : WritesBelow s t m) (h' : WritesBelow t u m') (hp : SameParams s t) (hm : m ≤ m') :
    WritesBelow s u m' := fun a ha =>
  (h' a fun k hk => by rw [hp.dstAt]; exact ha k hk).trans (h a fun k hk => ha k (Nat.lt_of_lt_of_le hk hm))

end WritesBelow

/-- How many destination bytes a running ENCODE has put out: none before its initialisation (44_encoder R182). -/
def outputEnd (s : State) : Nat := if s.phase = .begin then 0 else s.wr.op.toNat

/-- A bound on the steps that a running ENCODE has left before its last: at each position of the cursor a probe and a match step, and
with them the initialisation and the tail flush. -/
def encodeLeft (s : State) : Nat :=
  match s.phase with
  | .begin | .tokens => 2 * s.enc.n.toNat + 3
  | .search => 2 * (s.enc.n.toNat - s.enc.ip.toNat) + 2
  | .accepted => 2 * (s.enc.n.toNat - s.enc.ip.toNat) + 1
  | .flushed => 0

section encodeLeft

variable {s : State}

theorem outputEnd_begin (h : s.phase = .begin) : outputEnd s = 0 := if_pos h
theorem outputEnd_running (h : s.phase ≠ .begin) : outputEnd s = s.wr.op.toNat := if_neg h

theorem encodeLeft_begin (h : s.phase = .begin) : encodeLeft s = 2 * s.enc.n.toNat + 3 := by rw [encodeLeft, h]
theorem encodeLeft_search (h : s.phase = .search) : encodeLeft s = 2 * (s.enc.n.toNat - s.enc.ip.toNat) + 2 := by
  rw [encodeLeft, h]
theorem encodeLeft_accepted (h : s.phase = .accepted) : encodeLeft s = 2 * (s.enc.n.toNat - s.enc.ip.toNat) + 1 := by
  rw [encodeLeft, h]
theorem encodeLeft_flushed (h : s.phase = .flushed) : encodeLeft s = 0 := by rw [encodeLeft, h]

end encodeLeft

/-- A move that adds to ENCODE's output and leaves fewer steps. -/
structure Extends (s t : State) : Prop where
  wf : Memory.wf t.mem
  grows : outputEnd s ≤ outputEnd t
  only : WritesBelow s t (outputEnd t)
  left : encodeLeft t < encodeLeft s

/-- Emitting tokens adds to the output. -/
theorem Emitted.toExtends {s t u : State} {e : Nat} (h : Emitted s u e) (hb : s.phase ≠ .begin) (hbt : t.phase ≠ .begin)
    (ht : t = { u with enc := t.enc, ht := t.ht, phase := t.phase }) (hleft : encodeLeft t < encodeLeft s) : Extends s t where
  wf := by rw [ht]; exact h.wf
  grows := by rw [outputEnd_running hb, outputEnd_running hbt, ht]; exact h.grows
  only a ha := by
    rw [outputEnd_running hbt] at ha
    rw [ht] at ha ⊢
    exact h.outside a fun k _ hk => ha k hk
  left := hleft

theorem initEncode_extends {s : State} (hm : Memory.wf s.mem) (hp : s.phase = .begin) : Extends s (initEncode s) := by
  have hph : (initEncode s).phase = .search := by rw [initEncode_frame]
  have hn : (initEncode s).enc.n = s.enc.n := by rw [initEncode_frame]
  have hop : (initEncode s).wr.op.toNat = 17 := by rw [initEncode_frame]; rfl
  have hend : outputEnd (initEncode s) = 17 := (outputEnd_running (by simp [hph])).trans hop
  refine ⟨initEncode_wf hm, by rw [outputEnd_begin hp]; omega, fun a ha => ?_, ?_⟩
  · rw [hend] at ha
    exact initEncode_outside s ha
  · rw [encodeLeft_search hph, encodeLeft_begin hp, hn]
    omega

section moves

variable {s : State} (hm : Memory.wf s.mem) (hs : EncodeOk s) (hc : s.ctrl = .busy .encode)
include hm hs hc

theorem probe_extends (hp : s.phase = .search) (hmay : mayProbe s = true) : Extends s (probe s) := by
  have hb : s.phase ≠ .begin := by simp [hp]
  obtain ⟨-, -, hrun, -⟩ := hs hc
  obtain ⟨hw, -⟩ := hrun hb
  have hlt := (mayProbe_iff s).mp hmay
  rcases probe_cases s with ⟨hph, hip, -⟩ | ⟨hph, hip⟩
  · refine (Emitted.refl hm hw).toExtends hb (by simp [hph]) (probe_frame s) ?_
    rw [encodeLeft_accepted hph, encodeLeft_search hp, probe_n, hip]
    omega
  · have hnext : (probe s).enc.ip.toNat = s.enc.ip.toNat + 1 := hip ▸ offset_toNat _ (by omega)
    refine (Emitted.refl hm hw).toExtends hb (by rwa [hph]) (probe_frame s) ?_
    rw [encodeLeft_search (hph.trans hp), encodeLeft_search hp, probe_n, hnext]
    omega

theorem tailFlush_extends (hp : s.phase = .search) (hn : s.enc.n.toNat < 2 ^ 31) : Extends s (tailFlush s) := by
  have hb : s.phase ≠ .begin := by simp [hp]
  obtain ⟨-, -, hrun, -⟩ := hs hc
  obtain ⟨hw, -, -, han, -⟩ := hrun hb
  have hph : (tailFlush s).phase = .flushed := rfl
  refine (tailFlush_tokens hm hw (by simp [emitted, hp]) han hn).toExtends hb (by simp [hph]) rfl ?_
  rw [encodeLeft_flushed hph, encodeLeft_search hp]
  omega

theorem matchStep_extends (hp : s.phase = .accepted) (hn : s.enc.n.toNat < 2 ^ 31) : Extends s (matchStep s) := by
  have hb : s.phase ≠ .begin := by simp [hp]
  obtain ⟨-, -, hrun, hacc⟩ := hs hc
  obtain ⟨hw, -, hanchor, -⟩ := hrun hb
  obtain ⟨hmay, -⟩ := hacc hp
  obtain ⟨h3, hlen⟩ := matchLength_bounds hmay
  have hlt := (mayProbe_iff s).mp hmay
  have hnew : (BitVec.ofNat 32 (s.enc.ip.toNat + matchLength s)).toNat = s.enc.ip.toNat + matchLength s := by
    rw [BitVec.toNat_ofNat]; omega
  obtain ⟨ht, he⟩ := matchStep_eq s
  rw [he]
  refine (matchStep_tokens hm hw (by simp [emitted, hp]) hanchor hmay hn).toExtends hb (by simp) rfl ?_
  rw [encodeLeft_search rfl, encodeLeft_accepted hp, hnew]
  dsimp only
  omega

/-- Every move of ENCODE but the last. -/
theorem encodeMove_extends (hn : s.enc.n.toNat < 2 ^ 31) (hf : s.phase ≠ .flushed) : Extends s (encodeMove s) := by
  obtain ⟨-, hph, -⟩ := hs hc
  cases hp : s.phase with
  | begin => rw [encodeMove_begin hp]; exact initEncode_extends hm hp
  | tokens => exact absurd hp hph
  | search =>
    rw [encodeMove_search hp]
    split
    · rename_i hmay; exact probe_extends hm hs hc hp hmay
    · exact tailFlush_extends hm hs hc hp hn
  | accepted => rw [encodeMove_accepted hp]; exact matchStep_extends hm hs hc hp hn
  | flushed => exact absurd hp hf

end moves

/-! ### ENCODE's run -/

/-- An ENCODE started at `s` has ended in `t`, without an error and within the bound (44_encoder R187, R189, R193). -/
structure EncodeEnded (s t : State) : Prop where
  status : t.status = 0x2#32
  least : 17 ≤ t.result.toNat
  bound : t.result.toNat ≤ Config.bound s.srcLen.toNat
  header : HeaderOk t s.srcLen
  only : WritesBelow s t t.result.toNat

/-- An ENCODE that was started at `s` and left alone has come to `t`. -/
structure EncodeRun (s t : State) : Prop where
  host : t.host = []
  params : SameParams s t
  wf : Memory.wf t.mem
  running : t.ctrl ≠ .idle → t.ctrl = .busy .encode ∧ EncodeOk t ∧ WritesBelow s t (outputEnd t)
  ended : t.ctrl = .idle → EncodeEnded s t

theorem EncodeRun.accept {s : State} (hh : s.host = []) (hm : Memory.wf s.mem) : EncodeRun s (s.accept .encode) where
  host := hh
  params := ⟨rfl, rfl, rfl, rfl⟩
  wf := hm
  running _ := ⟨rfl, fun _ => ⟨rfl, nofun, fun hb => absurd rfl hb, nofun⟩, .of_mem_eq rfl⟩
  ended := nofun

/-- ENCODE's last step (44_encoder R187). -/
theorem encodeEnded_complete {s t : State} (hchk : startCheck .encode s = none) (hp : SameParams s t) (hok : EncodeOk t)
    (hc : t.ctrl = .busy .encode) (hf : t.phase = .flushed) (ho : WritesBelow s t (outputEnd t)) :
    EncodeEnded s (t.complete t.wr.op) := by
  have hb : t.phase ≠ .begin := by simp [hf]
  have hparams : ParamsOk t := fun op hop => by
    rw [hc] at hop; cases hop
    exact (startCheck_congr hp _).trans hchk
  obtain ⟨hop, -, -⟩ := hok.limits hparams hc hb
  obtain ⟨hn, -, hrun, -⟩ := hok hc
  obtain ⟨⟨-, -, h16, hfp, -⟩, hhdr, -⟩ := hrun hb
  obtain ⟨-, hlen, -, -⟩ := hp
  rw [hlen] at hop hn
  rw [outputEnd_running hb] at ho
  rw [hn] at hhdr
  exact ⟨rfl, Nat.lt_of_le_of_lt h16 hfp, hop, hhdr, ho⟩

/-- Each step of the run ends it, or leaves fewer. -/
theorem EncodeRun.step {s t : State} (hchk : startCheck .encode s = none) (h : EncodeRun s t) (hc : t.ctrl ≠ .idle) :
    ∃ u, step t = .next u ∧ EncodeRun s u ∧ (u.ctrl ≠ .idle → encodeLeft u < encodeLeft t) := by
  obtain ⟨he, hok, ho⟩ := h.running hc
  obtain ⟨u, hstep, hblock, hhost, hparams⟩ := step_blockMove h.host
  have hmove : u = encodeMove t := by
    rw [blockTurn, he] at hblock
    cases hblock; rfl
  subst hmove
  refine ⟨_, hstep, ?_⟩
  by_cases hf : t.phase = .flushed
  · have hend := encodeEnded_complete hchk h.params hok he hf ho
    rw [encodeMove_flushed hf] at hhost hparams ⊢
    exact ⟨⟨hhost, h.params.trans hparams, h.wf, absurd rfl, fun _ => hend⟩, absurd rfl⟩
  · have hn : t.enc.n.toNat < 2 ^ 31 := by
      obtain ⟨hsrc, -⟩ := hok he
      obtain ⟨-, hlen, -⟩ := h.params
      rw [hsrc, hlen]
      exact (startCheck_encode hchk).1
    have hext := encodeMove_extends h.wf hok he hn hf
    have hcu : (encodeMove t).ctrl = .busy .encode := (encodeMove_continues hf).ctrl.trans he
    have hbusy : (encodeMove t).ctrl ≠ .idle := by rw [hcu]; nofun
    have hok' := encodeMove_encodeOk h.wf hok he hn
    have ho' := ho.trans hext.only h.params hext.grows
    exact ⟨⟨hhost, h.params.trans hparams, hext.wf, fun _ => ⟨hcu, hok', ho'⟩, (absurd · hbusy)⟩, fun _ => hext.left⟩

/-- Settles O59: the run keeps `EncodeRun`, and `encodeLeft` falls until it is idle. -/
theorem encodeEnds : Obligations.EncodeEnds := by
  intro s hh hc hst hfit hn hcap
  have hchk := startCheck_encode_ready hfit hn hcap
  obtain ⟨k, u, hrun, hidle, hu⟩ :=
    run_reaches_idle encodeLeft (fun _ ht hbusy => ht.step hchk hbusy) (EncodeRun.accept hh hst.1)
  obtain ⟨hstatus, hleast, hbound, hhdr, honly⟩ := hu.ended hidle
  exact ⟨_, k, u, exec_encode_accepted hc hchk, rfl, hrun, hidle, hstatus, hu.params, hleast, hbound, hhdr,
    fun a ha => honly a fun j hj => (ha j hj).symm⟩

end Sys2Proof.Machine

/-! # The primitives over the source bytes (41_primitives R130 to R134) -/

namespace Sys2Proof.Machine

/-- Three bytes, least significant first, as an OR of shifts (41_primitives R130). -/
theorem le24_toNat_or (b0 b1 b2 : Byte) : (le24 b0 b1 b2).toNat = b0.toNat ||| b1.toNat <<< 8 ||| b2.toNat <<< 16 := by
  unfold le24
  rw [BitVec.toNat_append, BitVec.toNat_append, Nat.shiftLeft_or_distrib, ← Nat.shiftLeft_add,
    Nat.or_comm, Nat.or_comm (b2.toNat <<< _), Nat.or_assoc]

/-- The common prefix is common: both sources agree on each of its bytes (41_primitives R134). -/
theorem srcByte_eq_of_lt_commonPrefix {s : State} {a b fuel i : Nat} (h : i < commonPrefix s a b fuel) :
    s.srcByte (a + i) = s.srcByte (b + i) := by
  induction fuel generalizing a b i with
  | zero => exact absurd h (Nat.not_lt_zero i)
  | succ f ih =>
    rw [commonPrefix] at h
    split at h
    next heq =>
      cases i with
      | zero => exact heq
      | succ j => simpa only [Nat.add_assoc, Nat.add_comm 1] using ih (Nat.lt_of_succ_lt_succ h)
    next => exact absurd h (Nat.not_lt_zero i)

/-- The common prefix is the longest: short of the limit, the next bytes differ (41_primitives R134). -/
theorem srcByte_ne_of_commonPrefix_lt {s : State} {a b fuel : Nat} (h : commonPrefix s a b fuel < fuel) :
    s.srcByte (a + commonPrefix s a b fuel) ≠ s.srcByte (b + commonPrefix s a b fuel) := by
  induction fuel generalizing a b with
  | zero => exact absurd h (Nat.not_lt_zero _)
  | succ f ih =>
    rw [commonPrefix] at h ⊢
    split at h
    next heq =>
      rw [if_pos heq]
      simpa only [Nat.add_assoc, Nat.add_comm 1] using ih (Nat.lt_of_succ_lt_succ h)
    next hne => rwa [if_neg hne]

/-- Settles O46: the bound, the agreement and the first difference, each by its lemma on `commonPrefix`. -/
theorem comparePrefix_longest : Obligations.ComparePrefix := by
  intro s a b limit
  exact ⟨comparePrefix_le s a b limit, fun _ => srcByte_eq_of_lt_commonPrefix,
    fun h => srcByte_ne_of_commonPrefix_lt (Nat.lt_sub_of_add_lt (Nat.add_comm b _ ▸ h))⟩

/-- Settles O45: the OR of the bytes, and the product's high 14 bits, to which the mask does nothing. -/
theorem hashOfThreeBytes : Obligations.HashOfThreeBytes := by
  refine ⟨fun s p => le24_toNat_or _ _ _, fun x => ?_⟩
  have hmask : x.toNat * Config.hashMult.toNat % 2 ^ 32 / 2 ^ 18 < 2 ^ 14 :=
    Nat.div_lt_of_lt_mul (Nat.mod_lt _ (by decide))
  rw [hash3_toNat, ← hashMult_toNat, Nat.shiftRight_eq_div_pow, show 0x3FFF = 2 ^ 14 - 1 from rfl,
    Nat.and_two_pow_sub_one_of_lt_two_pow hmask]

end Sys2Proof.Machine

/-! # The match finder: one probe, and what an accepted match agrees on (42_match_finder R140 to R145) -/

namespace Sys2Proof.Machine

/-! ### The three bytes of a candidate -/

/-- The three bytes of a sequence are its fields (41_primitives R130). -/
theorem le24_inj {a0 a1 a2 b0 b1 b2 : Byte} : le24 a0 a1 a2 = le24 b0 b1 b2 ↔ a0 = b0 ∧ a1 = b1 ∧ a2 = b2 := by
  simp only [BitVec.toNat_inj.symm, le24_toNat]
  omega

/-- Positions with one sequence agree on each of its three bytes (41_primitives R135). -/
theorem srcByte_eq_of_seq3_eq {s : State} {a b : Nat} (h : seq3 s a = seq3 s b) {i : Nat} (hi : i < 3) :
    s.srcByte (a + i) = s.srcByte (b + i) := by
  obtain ⟨h0, h1, h2⟩ := le24_inj.mp h
  match i, hi with
  | 0, _ => exact h0
  | 1, _ => exact h1
  | 2, _ => exact h2

/-- A candidate is accepted exactly in range and with equal bytes (42_match_finder R143). -/
theorem accepts_iff {s : State} {ref ip : Nat} :
    accepts s ref ip = true ↔ ref < ip ∧ ip - ref ≤ 4096 ∧ seq3 s ref = seq3 s ip := by
  rw [accepts, eq3, Bool.and_eq_true, decide_eq_true_iff, beq_iff_eq, and_assoc, Config.window]

/-! ### One probe -/

section htPut

variable {s : State}

theorem State.htGet_htPut_self (hwf : HashTable.wf s.ht) (h : BitVec 14) (v : BitVec 32) : (s.htPut h v).htGet h = v :=
  Store.get_set_self hwf _ _

theorem State.htGet_htPut_ne {h g : BitVec 14} (v : BitVec 32) (hne : h ≠ g) : (s.htPut h v).htGet g = s.htGet g :=
  Store.get_set_ne _ _ fun e => hne (BitVec.eq_of_toNat_eq e)

end htPut

/-- The candidate of a probe: what the bucket of the three bytes at `ip` held (42_match_finder R140). -/
def candidate (s : State) : Word := s.htGet (hashAt s s.enc.ip.toNat)

/-- The difference of two words in 33 signed bits is exact (10_state R32, 42_match_finder R140; log 30). -/
theorem distance_toInt (a b : Word) : (a.setWidth 33 - b.setWidth 33 : BitVec 33).toInt = (a.toNat : Int) - (b.toNat : Int) := by
  rw [BitVec.toInt_sub, BitVec.toInt_setWidth, BitVec.toInt_setWidth, Int.sub_bmod_bmod, Int.bmod_sub_bmod,
    Int.bmod_eq_of_le] <;> omega

/-- Of the working registers a probe sets `ref` and `distance`, and can move `ip` (42_match_finder R140, R142). -/
theorem probe_enc (s : State) :
    (probe s).enc = { s.enc with ip := (probe s).enc.ip, ref := candidate s, distance := (probe s).enc.distance } := by
  unfold probe; dsimp only; split <;> rfl

theorem probe_distance (s : State) : (probe s).enc.distance = s.enc.ip.setWidth 33 - (candidate s).setWidth 33 := by
  unfold probe; dsimp only; split <;> rfl

/-- A probe that accepts its candidate keeps `ip` (42_match_finder R143). -/
theorem probe_of_accepts {s : State} (h : accepts s (candidate s).toNat s.enc.ip.toNat = true) :
    (probe s).phase = .accepted ∧ (probe s).enc.ip = s.enc.ip := by
  rw [candidate] at h
  simp only [probe, if_pos h, and_self]

/-- A probe that does not accept its candidate moves `ip` on by one (42_match_finder R142). -/
theorem probe_of_not_accepts {s : State} (h : ¬ accepts s (candidate s).toNat s.enc.ip.toNat = true) :
    (probe s).phase = s.phase ∧ (probe s).enc.ip = s.enc.ip + 1#32 := by
  rw [candidate] at h
  simp only [probe, if_neg h, State.htPut_phase, and_self]

/-- ENCODE searches by probing, as long as it may (44_encoder R183). -/
theorem step_probe {s : State} (h : Encoding s .search) (hmay : mayProbe s = true) : step s = .next (probe s) := by
  obtain ⟨hhost, hctrl, hphase⟩ := h
  rw [step_blockTurn hhost, blockTurn, hctrl]
  simp only [perform_move, encodeMove_search hphase, if_pos hmay]

/-- Settles O49: the step is `probe`; its frame, its bucket, its distance and its two outcomes, each by its lemma. -/
theorem probeStep : Obligations.ProbeStep := by
  intro s hs hwf hlt ip h ref good
  have hstep := step_probe hs ((mayProbe_iff s).mpr hlt)
  obtain ⟨-, -, hsearch⟩ := hs
  have hgood : accepts s (candidate s).toNat s.enc.ip.toNat = true ↔ good := accepts_iff
  have hget (g : BitVec 14) : (probe s).htGet g = (s.htPut h s.enc.ip).htGet g := congrArg (Store.get · g.toNat) (probe_ht s)
  refine ⟨probe s, hstep, ?frame, ?bucket, fun g hg => ?others, ?distance, fun hok => ?accepted, fun hok => ?advanced⟩
  case frame =>
    refine (probe_frame s).trans ?_
    congr 1
    exact probe_enc s
  case bucket => exact (hget h).trans (State.htGet_htPut_self hwf _ _)
  case others => exact (hget g).trans (State.htGet_htPut_ne _ hg.symm)
  case distance => rw [probe_distance]; exact distance_toInt _ _
  case accepted => exact probe_of_accepts (hgood.mpr hok)
  case advanced =>
    obtain ⟨hphase, hip⟩ := probe_of_not_accepts (mt hgood.mp hok)
    exact ⟨hphase.trans hsearch, hip ▸ offset_toNat _ (by omega)⟩

/-! ### The accepted match -/

/-- Settles O50: the three bytes that the probe compared, then those of the extension. -/
theorem matchesAgree : Obligations.MatchesAgree := by
  intro s hmay hacc
  obtain ⟨h3, hend⟩ := matchLength_bounds hmay
  obtain ⟨-, -, hseq⟩ := accepts_iff.mp hacc
  refine ⟨h3, hend, fun i hi => ?_⟩
  by_cases hlt : i < 3
  · exact srcByte_eq_of_seq3_eq hseq hlt
  · obtain ⟨j, rfl⟩ := Nat.exists_eq_add_of_le (Nat.le_of_not_lt hlt)
    have hext := srcByte_eq_of_lt_commonPrefix (Nat.lt_of_add_lt_add_left hi)
    rwa [Nat.add_assoc, Nat.add_assoc] at hext

end Sys2Proof.Machine

/-! # The flag-group writer: what one token does, and the tokens of a match (43_flag_group_writer R160 to R167) -/

namespace Sys2Proof.Machine

/-! ### The destination at a word's offset -/

theorem State.dstAt_toNat (s : State) (w : Word) : s.dstAt w.toNat = s.dstAddr + w := by
  rw [State.dstAt, BitVec.ofNat_toNat, BitVec.setWidth_eq]

theorem State.dstAt_toNat_add (s : State) (w : Word) (k : Nat) : s.dstAt (w.toNat + k) = s.dstAddr + (w + BitVec.ofNat 32 k) := by
  rw [State.dstAt, BitVec.ofNat_add, BitVec.ofNat_toNat, BitVec.setWidth_eq]

theorem State.memRead_dstPut {s : State} (hm : Memory.wf s.mem) (j : Nat) (v : Byte) (a : Word) :
    (s.dstPut j v).memRead a = if a = s.dstAt j then v else s.memRead a := by
  split
  next h => exact h ▸ State.dstByte_dstPut_self hm j v
  next h => exact State.memRead_dstPut_ne s v (Ne.symm h)

/-- Settles O51: the cursor is as written, and the one byte written is at the old `op`. -/
theorem groupOpens : Obligations.GroupOpens := by
  intro s hm
  refine ⟨rfl, fun a => ?_⟩
  rw [openGroup_memRead, State.memRead_dstPut hm, State.dstAt_toNat]

/-! ### The mask moves on -/

section advanceMask

variable {s : State}

theorem advanceMask_of_full (h : s.wr.mask >>> 1 = 0#8) :
    advanceMask s = openGroup { s with wr := { s.wr with mask := nextMask s.wr.mask } } := if_pos h

theorem advanceMask_of_not_full (h : ¬ s.wr.mask >>> 1 = 0#8) :
    advanceMask s = { s with wr := { s.wr with mask := s.wr.mask >>> 1 } } := if_neg h

/-- A full group's next flag byte is 0, at `op` (43_flag_group_writer R160). -/
theorem advanceMask_dstByte_op (hm : Memory.wf s.mem) (h : s.wr.mask >>> 1 = 0#8) : (advanceMask s).dstByte s.wr.op.toNat = 0x00#8 := by
  rw [advanceMask_of_full h]
  exact State.dstByte_dstPut_self (s := { s with wr := { s.wr with mask := nextMask s.wr.mask } }) hm _ _

/-- Moving the mask on writes the byte at `op` at most, and that only if the group is full. -/
theorem advanceMask_memRead {a : Word} (ha : s.wr.mask >>> 1 = 0#8 → a ≠ s.dstAt s.wr.op.toNat) :
    (advanceMask s).memRead a = s.memRead a := by
  by_cases h : s.wr.mask >>> 1 = 0#8
  · rw [advanceMask_of_full h]
    exact State.memRead_dstPut_ne { s with wr := { s.wr with mask := nextMask s.wr.mask } } _ (ha h).symm
  · rw [advanceMask_of_not_full h]
    rfl

end advanceMask

/-! ### One token -/

/-- `t` is `s` with a token of bytes `bs` put at `op`, whose flag bit `s` has already settled: the mask has moved on, a full group has
opened the next, and no other byte has changed. -/
structure TokenAdded (s t : State) (bs : List Byte) : Prop where
  bytes : ∀ j, j < bs.length → some (t.dstByte (s.wr.op.toNat + j)) = bs[j]?
  notFull : ¬ s.wr.mask >>> 1 = 0#8 → t.wr = ⟨s.wr.op + BitVec.ofNat 32 bs.length, s.wr.fp, s.wr.mask >>> 1, s.wr.flagv⟩
  full : s.wr.mask >>> 1 = 0#8 →
    t.wr = ⟨s.wr.op + BitVec.ofNat 32 (bs.length + 1), s.wr.op + BitVec.ofNat 32 bs.length, 0x80#8, 0x00#8⟩ ∧
    t.dstByte (s.wr.op.toNat + bs.length) = 0x00#8
  elsewhere : ∀ a, (∀ j, j < bs.length → a ≠ s.dstAt (s.wr.op.toNat + j)) →
    (s.wr.mask >>> 1 = 0#8 → a ≠ s.dstAt (s.wr.op.toNat + bs.length)) → t.memRead a = s.memRead a

section token

variable {s : State}

theorem putToken_dstAt (i : Instr) (k : Nat) : (putToken s i).dstAt k = s.dstAt k := by rw [putToken_frame]; rfl

theorem advanceMask_dstAt (k : Nat) : (advanceMask s).dstAt k = s.dstAt k := by rw [advanceMask_frame]; rfl

theorem putToken_op_toNat {i : Instr} (h : s.wr.op.toNat + (encode i).length < 2 ^ 32) :
    (putToken s i).wr.op.toNat = s.wr.op.toNat + (encode i).length := offset_toNat _ h

/-- A token is its bytes and then the move of the mask (43_flag_group_writer R161, R163, R164). -/
theorem advanceMask_putToken_added (hm : Memory.wf s.mem) {i : Instr} (hop : s.wr.op.toNat + (encode i).length < 2 ^ 32) :
    TokenAdded s (advanceMask (putToken s i)) (encode i) := by
  have hop' := putToken_op_toNat hop
  refine ⟨fun j hj => ?bytes, fun h => ?notFull, fun h => ⟨?cursor, ?fresh⟩, fun a ha hfull => ?elsewhere⟩
  case bytes =>
    have hread : (advanceMask (putToken s i)).dstByte (s.wr.op.toNat + j) = (putToken s i).dstByte (s.wr.op.toNat + j) := by
      rw [State.dstByte, advanceMask_dstAt]
      refine advanceMask_memRead fun _ he => ?_
      have := offset_inj _ (by omega) (by omega) he
      omega
    rw [hread, List.getElem?_eq_getElem hj, List.getElem_eq_getD 0#8]
    exact congrArg some (State.dstByte_dstPuts hm _ _ (by omega) hj)
  case notFull => rw [advanceMask_of_not_full (s := putToken s i) h]; rfl
  case cursor =>
    rw [advanceMask_of_full (s := putToken s i) h, BitVec.ofNat_add, ← BitVec.add_assoc]
    rfl
  case fresh =>
    rw [← hop']
    exact advanceMask_dstByte_op (State.dstPuts_wf hm _ _) h
  case elsewhere =>
    have hput : (putToken s i).memRead a = s.memRead a := State.memRead_dstPuts_ne s _ _ fun j hj => (ha j hj).symm
    rw [advanceMask_memRead, hput]
    intro h
    rw [putToken_dstAt, hop']
    exact hfull h

end token

/-! ### The LIT token -/

/-- Marking a literal writes the flag byte only (43_flag_group_writer R161). -/
theorem markLiteral_memRead {s : State} {a : Word} (ha : a ≠ s.dstAddr + s.wr.fp) : (markLiteral s).memRead a = s.memRead a :=
  State.memRead_dstPut_ne s _ (by rw [State.dstAt_toNat]; exact ha.symm)

/-- Marking a literal sets its flag bit in the flag byte (43_flag_group_writer R161). -/
theorem markLiteral_dstByte_fp {s : State} (hm : Memory.wf s.mem) :
    (markLiteral s).dstByte s.wr.fp.toNat = s.wr.flagv ||| s.wr.mask := State.dstByte_dstPut_self hm _ _

theorem emitLiteral_dstAt (s : State) (b : Byte) (k : Nat) : (emitLiteral s b).dstAt k = s.dstAt k := by rw [emitLiteral_frame]; rfl

theorem emitLiteral_added {s : State} (hm : Memory.wf s.mem) (hop : s.wr.op.toNat + 1 < 2 ^ 32) (b : Byte) :
    TokenAdded (markLiteral s) (emitLiteral s b) [b] :=
  advanceMask_putToken_added (s := markLiteral s) (i := .lit b) (State.dstPut_wf hm _ _) hop

/-- Settles O52: the flag bit is marked, then the token is added, whose bytes lie above the flag byte. -/
theorem literalEmission : Obligations.LiteralEmission := by
  intro s b hm hfp hop t op full
  have hadd : TokenAdded (markLiteral s) t [b] := emitLiteral_added hm (Nat.lt_of_succ_lt hop) b
  refine ⟨emitLiteral_frame s b, ?flag, ?byte, hadd.notFull, hadd.full, fun a hfpa hopa hfull => ?elsewhere⟩
  case flag =>
    have hne {k : Nat} (hk : op ≤ k ∧ k ≤ op + 1) : s.dstAt s.wr.fp.toNat ≠ s.dstAt k := fun he => by
      have := offset_inj _ (by omega) (by omega) he
      omega
    rw [State.dstByte, emitLiteral_dstAt, ← markLiteral_dstByte_fp hm]
    exact hadd.elsewhere _ (fun _ hj => hne ⟨Nat.le_add_right .., Nat.add_le_add_left (Nat.le_of_lt hj) _⟩)
      fun _ => hne ⟨Nat.le_succ _, Nat.le_refl _⟩
  case byte => exact Option.some.inj (hadd.bytes 0 Nat.one_pos)
  case elsewhere =>
    rw [← markLiteral_memRead hfpa]
    refine hadd.elsewhere a (fun j hj => ?_) fun h => ?_
    · obtain rfl : j = 0 := by simpa using hj
      exact (State.dstAt_toNat s s.wr.op).symm ▸ hopa
    · exact (State.dstAt_toNat_add s s.wr.op 1).symm ▸ hfull h

/-! ### The SM and LM tokens -/

/-- The bytes of a match token, in the form that its length chooses (30_encoding R92). -/
theorem encode_matchInstr {len dist : Nat} (h3 : 3 ≤ len) (h273 : len ≤ 273) (h1 : 1 ≤ dist) (h4096 : dist ≤ 4096) :
    encode (matchInstr len dist) =
      if len ≤ 17 then [BitVec.ofNat 8 (((len - 2) <<< 4) ||| ((dist - 1) >>> 8)), BitVec.ofNat 8 ((dist - 1) &&& 0xFF)]
      else [BitVec.ofNat 8 (((dist - 1) >>> 8) &&& 0x0F), BitVec.ofNat 8 ((dist - 1) &&& 0xFF), BitVec.ofNat 8 (len - 18)] := by
  obtain ⟨hshort, hlong⟩ := matchTokenBytes len dist h3 h273 h1 h4096
  split
  next h => exact (hshort h).1
  next h => exact hlong (Nat.lt_of_not_le h)

/-- Settles O53: the bytes are those of `matchInstr`, and the token is added to `s` itself, whose flag bit stays 0. -/
theorem matchEmission : Obligations.MatchEmission := by
  intro s len dist hm hop h3 h273 h1 h4096 t op D bytes k full
  have hlen := encode_matchInstr_length len dist
  have hadd : TokenAdded s t (encode (matchInstr len dist)) := advanceMask_putToken_added hm (by omega)
  rw [encode_matchInstr h3 h273 h1 h4096] at hadd
  exact ⟨emitMatchToken_frame s len dist, hadd.bytes, hadd.notFull, hadd.full, hadd.elsewhere⟩

/-! ### The tokens of a match -/

theorem chunks_of_le {len : Nat} (h : len ≤ 273) (fuel : Nat) : chunks len fuel = [len] := by
  cases fuel with
  | zero => rfl
  | succ f => exact if_neg (Nat.not_lt.mpr h)

theorem chunks_of_lt {len : Nat} (h : 273 < len) (fuel : Nat) :
    chunks len (fuel + 1) = chunkOf len :: chunks (len - chunkOf len) fuel := if_pos h

/-- With 274 or 275 bytes left a chunk of 273 would leave too few for a token (43_flag_group_writer R165). -/
theorem chunkOf_alt {len : Nat} (h : len = 274 ∨ len = 275) : chunkOf len = 271 := by
  obtain rfl | rfl := h <;> rfl

theorem chunkOf_of_ge {len : Nat} (h : 276 ≤ len) : chunkOf len = 273 :=
  if_neg (by rw [Config.splitChunk]; omega)

/-- The chunks by length: 273 is split off while at least 276 bytes are left (43_flag_group_writer R167). -/
theorem chunks_mul_add {q r fuel : Nat} (h3 : 3 ≤ r) (h275 : r ≤ 275) (hfuel : q < fuel) :
    chunks (273 * q + r) fuel = List.replicate q 273 ++ if r ≤ 273 then [r] else [271, r - 271] := by
  induction fuel generalizing q with
  | zero => exact absurd hfuel (Nat.not_lt_zero q)
  | succ f ih =>
    cases q with
    | zero =>
      rw [Nat.mul_zero, Nat.zero_add, List.replicate_zero, List.nil_append]
      split
      next h => exact chunks_of_le h _
      next h => rw [chunks_of_lt (by omega), chunkOf_alt (by omega), chunks_of_le (by omega)]
    | succ q =>
      rw [chunks_of_lt (by omega), chunkOf_of_ge (by omega), show 273 * (q + 1) + r - 273 = 273 * q + r by omega,
        ih (by omega), List.replicate_succ, List.cons_append]

/-- Settles O54: `emitMatch` emits the tokens of `chunks`, whose fuel, the length, never runs out. -/
theorem matchSplitting : Obligations.MatchSplitting := by
  intro s q r dist h3 h275
  rw [emitMatch, chunks_mul_add h3 h275 (by omega)]

end Sys2Proof.Machine

/-! # ENCODE: its start checks, and what each of its steps does (44_encoder R181 to R187) -/

namespace Sys2Proof.Machine

/-! ### ENCODE's own start checks -/

theorem encodeCheck_tooLong {s : State} (hn : 2 ^ 31 - 1 < s.srcLen.toNat) : encodeCheck s = some .encTooLong := if_pos hn

theorem encodeCheck_dstSmall {s : State} (hn : s.srcLen.toNat ≤ 2 ^ 31 - 1)
    (hcap : s.dstCap.toNat < 16 + s.srcLen.toNat + (s.srcLen.toNat + 7) / 8 + 1) : encodeCheck s = some .encDstSmall :=
  (if_neg (Nat.not_lt.mpr hn)).trans (if_pos hcap)

/-- Settles O28: with the regions in order ENCODE's own checks are left, and the first that fails is taken. -/
theorem encodeStartChecks : Obligations.EncodeStartChecks := by
  intro s h hfit
  have hchk : startCheck .encode s = encodeCheck s := startCheck_fit rfl hfit
  exact ⟨fun hn => start_errorTaken h (hchk.trans (encodeCheck_tooLong hn)),
    fun hn hcap => start_errorTaken h (hchk.trans (encodeCheck_dstSmall hn hcap))⟩

/-! ### The step, and the source it reads -/

/-- The step of a running ENCODE that is left alone is its next move (10_state R31). -/
theorem step_encodeMove {s : State} (hhost : s.host = []) (hctrl : s.ctrl = .busy .encode) : step s = .next (encodeMove s) := by
  rw [step_blockTurn hhost, blockTurn, hctrl]
  rfl

/-- A source offset is in a source region that does not wrap (20_memory R61). -/
theorem srcAt_inSrc {s : State} (hfit : s.srcAddr.toNat + s.srcLen.toNat ≤ 2 ^ 32) {i : Nat} (hi : i < s.srcLen.toNat) :
    InSrc s (s.srcAt i) := by
  have ha : (s.srcAt i).toNat = s.srcAddr.toNat + i := offset_toNat _ (by omega)
  unfold InSrc
  omega

section source

variable {s t : State} (hchk : startCheck .encode s = none)
include hchk

/-- What writes ENCODE's destination only leaves its source alone (40_command_interface R114, 20_memory R64). -/
theorem DstOnly.srcByte (h : DstOnly s t) (hp : SameParams s t) {i : Nat} (hi : i < s.srcLen.toNat) :
    t.srcByte i = s.srcByte i := by
  obtain ⟨hsrc, hdst, hapart⟩ := startCheck_regions rfl hchk
  obtain ⟨hsrcAddr, -⟩ := hp
  rw [State.srcByte, State.srcAt, hsrcAddr]
  exact h _ fun k hk => dstAt_ne_of_not_inDst hdst (hapart _ (srcAt_inSrc hsrc hi)) hk

/-- Tokens for at most the whole input leave the source alone. -/
theorem Emitted.srcByte {e : Nat} (h : Emitted s t e) (he : e ≤ s.srcLen.toNat) {i : Nat} (hi : i < s.srcLen.toNat) :
    t.srcByte i = s.srcByte i :=
  (h.dstOnly hchk he).srcByte hchk (by rw [h.frame]; exact ⟨rfl, rfl, rfl, rfl⟩) hi

end source

/-- The hash of a position depends on its three bytes only (41_primitives R133). -/
theorem hashAt_congr {s t : State} {p : Nat} (h : ∀ i, i < 3 → t.srcByte (p + i) = s.srcByte (p + i)) : hashAt t p = hashAt s p :=
  congrArg hash3 (seq3_congr h)

/-! ### Initialisation -/

/-- Settles O47: the step is `initEncode`, whose registers, bytes and frame have a lemma each. -/
theorem encodeInitialises : Obligations.EncodeInitialises := by
  rintro s ⟨hhost, hctrl, hphase⟩ hm
  obtain ⟨hhdr, hflag⟩ := initEncode_bytes hm
  have hht : (initEncode s).ht = [] := by rw [initEncode_frame]
  refine ⟨initEncode s, ?step, initEncode_frame s, fun h => ?table, hhdr 0 (by omega), hhdr 1 (by omega), hhdr 2 (by omega),
    hhdr 3 (by omega), ?size, fun k h8 h16 => ?zeros, fun a ha => ?outside⟩
  case step => rw [step_encodeMove hhost hctrl, encodeMove_begin hphase]
  case table => rw [State.htGet, hht, Store.get_nil]
  case size =>
    rw [hhdr 4 (by omega), hhdr 5 (by omega), hhdr 6 (by omega), hhdr 7 (by omega)]
    exact (word_toNat ..).symm.trans (congrArg BitVec.toNat (word_of_bytes s.enc.n))
  case zeros =>
    by_cases hk : k = 16
    · rw [hk, hflag]
    · rw [hhdr k (by omega)]
      obtain ⟨j, rfl⟩ := Nat.exists_eq_add_of_le h8
      have hj : j < 8 := by omega
      match j, hj with
      | 0, _ | 1, _ | 2, _ | 3, _ | 4, _ | 5, _ | 6, _ | 7, _ => rfl
  case outside => exact initEncode_outside s fun k hk => (ha k (by omega)).symm

/-! ### The match step -/

/-- The tokens of a match step: the literals before the match, and the match (44_encoder R184). -/
def matchEmitted (s : State) : State :=
  emitMatch (emitLiterals s s.enc.anchor.toNat (s.enc.ip.toNat - s.enc.anchor.toNat)) (matchLength s)
    (s.enc.ip.toNat - s.enc.ref.toNat)

theorem matchEmitted_frame (s : State) :
    matchEmitted s = { s with mem := (matchEmitted s).mem, wr := (matchEmitted s).wr } := by
  rw [matchEmitted, emitMatch_frame, emitLiterals_frame]

/-- Where an accepted match ends (44_encoder R184). -/
def matchEnd (s : State) : Nat := s.enc.ip.toNat + matchLength s

/-- A match step up to its insertions: its tokens, and the registers past the match (44_encoder R184). -/
def matchPassed (s : State) : State :=
  { matchEmitted s with
    enc := { s.enc with
      len := BitVec.ofNat 32 (matchLength s), ip := BitVec.ofNat 32 (matchEnd s), anchor := BitVec.ofNat 32 (matchEnd s) },
    phase := .search }

theorem matchPassed_ht (s : State) : (matchPassed s).ht = s.ht := by rw [matchPassed, matchEmitted_frame]

theorem matchStep_eq_insertPair (s : State) : matchStep s = insertPair (matchPassed s) (matchEnd s) := by
  unfold matchStep matchPassed matchEmitted matchEnd; rfl

/-- A match step's registers are those past the match; its insertions are in the table. -/
theorem matchStep_frame (s : State) : matchStep s = { matchPassed s with ht := (matchStep s).ht } := by
  rw [matchStep_eq_insertPair, insertPair_frame]

theorem insertPair_ht (s : State) (p : Nat) :
    (insertPair s p).ht =
      Store.set (Store.set s.ht (hashAt s p).toNat (BitVec.ofNat 32 p)) (hashAt s (p + 1)).toNat (BitVec.ofNat 32 (p + 1)) := rfl

section insertPair

variable {s : State} {p : Nat}

/-- The second insertion stands (44_encoder R184). -/
theorem insertPair_htGet_second (hwf : HashTable.wf s.ht) : (insertPair s p).htGet (hashAt s (p + 1)) = BitVec.ofNat 32 (p + 1) :=
  State.htGet_htPut_self (htPut_wf hwf _ _) _ _

/-- The first insertion stands unless the second has its slot (44_encoder R184). -/
theorem insertPair_htGet_first (hwf : HashTable.wf s.ht) (hne : hashAt s p ≠ hashAt s (p + 1)) :
    (insertPair s p).htGet (hashAt s p) = BitVec.ofNat 32 p :=
  (State.htGet_htPut_ne _ hne.symm).trans (State.htGet_htPut_self hwf _ _)

theorem insertPair_htGet_ne {h : BitVec 14} (h1 : h ≠ hashAt s p) (h2 : h ≠ hashAt s (p + 1)) :
    (insertPair s p).htGet h = s.htGet h :=
  (State.htGet_htPut_ne _ h2.symm).trans (State.htGet_htPut_ne _ h1.symm)

end insertPair

/-- A running ENCODE that keeps its promises, at the match step: where its tokens lead, and its match ends within the input. -/
theorem matchEmitted_emitted {s : State} (hp : ParamsOk s) (hm : Memory.wf s.mem) (hs : EncodeOk s) (hc : s.ctrl = .busy .encode)
    (ha : s.phase = .accepted) : Emitted s (matchEmitted s) (matchEnd s) ∧ matchEnd s + 4 ≤ s.srcLen.toNat := by
  obtain ⟨hn, -, hrun, hacc⟩ := hs hc
  obtain ⟨hw, -, hanchor, -⟩ := hrun (by simp [ha])
  obtain ⟨hmay, -⟩ := hacc ha
  have hlen := (startCheck_encode (hp _ hc)).1
  rw [← hn] at hlen ⊢
  have hlt := (mayProbe_iff s).mp hmay
  obtain ⟨-, hend⟩ := matchLength_bounds hmay
  exact ⟨matchStep_tokens hm hw (by simp [emitted, ha]) hanchor hmay hlen, by unfold matchEnd; omega⟩

/-- Settles O55: the step is the tokens, the registers past the match, and the insertions, which hash the source as the tokens
left it: unchanged. -/
theorem matchStep_effect : Obligations.MatchStep := by
  rintro s ⟨hhost, hctrl, hphase⟩ hp ⟨hm, hht⟩ hs ip anchor p
  obtain ⟨hem, hend⟩ := matchEmitted_emitted hp hm hs hctrl hphase
  have hfit : p + 1 < 2 ^ 32 := by have := s.srcLen.isLt; have : p = matchEnd s := rfl; omega
  have hhash : ∀ q, q ≤ p + 1 → hashAt (matchPassed s) q = hashAt s q := fun q hq =>
    hashAt_congr fun i hi => hem.srcByte (hp _ hctrl) (by omega) (show q + i < _ by have : p = matchEnd s := rfl; omega)
  have hfirst := hhash p (Nat.le_succ p)
  have hsecond := hhash (p + 1) (Nat.le_refl _)
  have hmove : matchStep s = insertPair (matchPassed s) p := matchStep_eq_insertPair s
  have hget : ∀ h, (matchPassed s).htGet h = s.htGet h := fun h => by rw [State.htGet, matchPassed_ht, State.htGet]
  have hwf : HashTable.wf (matchPassed s).ht := by rwa [matchPassed_ht]
  have hnat : ∀ q, q ≤ p + 1 → (BitVec.ofNat 32 q).toNat = q := fun q hq => by rw [BitVec.toNat_ofNat]; omega
  refine ⟨matchStep s, ?step, ?frame, ?len, hnat p (by omega), hnat p (by omega), ?second, fun hne => ?first,
    fun h h1 h2 => ?others⟩
  case step => rw [step_encodeMove hhost hctrl, encodeMove_accepted hphase]
  case frame => rw [matchStep_frame]; rfl
  case len => rw [matchStep_frame]; exact hnat _ (Nat.le_trans (Nat.le_add_left ..) (Nat.le_succ p))
  case second =>
    rw [hmove, ← hsecond, insertPair_htGet_second hwf]
    exact hnat _ (Nat.le_refl _)
  case first =>
    rw [← hfirst, ← hsecond] at hne
    rw [hmove, ← hfirst, insertPair_htGet_first hwf hne]
    exact hnat _ (Nat.le_succ p)
  case others =>
    rw [← hfirst] at h1
    rw [← hsecond] at h2
    rw [hmove, insertPair_htGet_ne h1 h2, hget]

/-! ### The end of ENCODE -/

/-- Settles O56: without a probe left the search's move is the tail flush, and the move after it completes with `op`. -/
theorem encodeTail : Obligations.EncodeTail := by
  refine fun s => ⟨fun ⟨hhost, hctrl, hphase⟩ hn => ?_, fun ⟨hhost, hctrl, hphase⟩ => ?_⟩
  · have hmay : ¬ mayProbe s = true := mt (mayProbe_iff s).mp (Nat.not_lt.mpr hn)
    rw [step_encodeMove hhost hctrl, encodeMove_search hphase, if_neg hmay]
    rfl
  · rw [step_encodeMove hhost hctrl, encodeMove_flushed hphase]
    rfl

end Sys2Proof.Machine

/-! # ENCODE's run reads its own input throughout (44_encoder R180 to R187) -/

namespace Sys2Proof.Machine

/-! ### What every state of a run has -/

/-- What each step keeps holds wherever a run comes to. -/
theorem run_keeps {P : State → Prop} (hstep : ∀ s, P s → ∃ t, step s = .next t ∧ P t) {s u : State} {k : Nat} (hs : P s)
    (hrun : Host.Core.run core k s = .next u) : P u := by
  induction k generalizing s with
  | zero => cases hrun; exact hs
  | succ k ih =>
    obtain ⟨t, ht, hP⟩ := hstep s hs
    exact ih hP ((run_succ ht k).symm.trans hrun)

section run

variable {s t : State} (hchk : startCheck .encode s = none) (h : EncodeRun s t)
include hchk h

/-- The start checks that ENCODE passed hold of its parameters throughout (10_state R22). -/
theorem EncodeRun.checked : startCheck .encode t = none := (startCheck_congr h.params _).trans hchk

theorem EncodeRun.paramsOk (hc : t.ctrl = .busy .encode) : ParamsOk t := fun op hop => by
  rw [hc] at hop; cases hop
  exact h.checked hchk

/-- ENCODE's run writes its destination only (20_memory R64). -/
theorem EncodeRun.dstOnly : DstOnly s t := by
  by_cases hc : t.ctrl = .idle
  · obtain ⟨-, -, hbound, -, honly⟩ := h.ended hc
    have hcap := (startCheck_encode hchk).2
    exact fun a ha => honly a fun k hk => ha k (by omega)
  · obtain ⟨hbusy, hok, honly⟩ := h.running hc
    refine fun a ha => honly a fun k hk => ha k ?_
    by_cases hb : t.phase = .begin
    · rw [outputEnd_begin hb] at hk
      exact absurd hk (Nat.not_lt_zero k)
    · obtain ⟨hop, hcap, -⟩ := hok.limits (h.paramsOk hchk hbusy) hbusy hb
      obtain ⟨-, -, -, hdst⟩ := h.params
      rw [outputEnd_running hb] at hk
      rw [← hdst]
      omega

/-- ENCODE's source is what it was at its start (20_memory R64). -/
theorem EncodeRun.srcByte {i : Nat} (hi : i < s.srcLen.toNat) : t.srcByte i = s.srcByte i :=
  (h.dstOnly hchk).srcByte hchk h.params hi

/-- The step of a run that has not ended is ENCODE's next move. -/
theorem EncodeRun.move (hc : t.ctrl ≠ .idle) : Machine.step t = .next (encodeMove t) ∧ EncodeRun s (encodeMove t) := by
  obtain ⟨u, hstep, hrun, -⟩ := h.step hchk hc
  obtain ⟨hbusy, -⟩ := h.running hc
  have hmove := step_encodeMove h.host hbusy
  obtain rfl : encodeMove t = u := by
    have := hmove.symm.trans hstep
    injection this
  exact ⟨hmove, hrun⟩

end run

/-! ### A state that puts out tokens -/

/-- ENCODE with its parameters in order and the input `x`, `e` bytes of which are in tokens. -/
structure Emitting (x : Nat → Byte) (s : State) (e : Nat) : Prop where
  chk : startCheck .encode s = none
  src : ∀ i, i < s.srcLen.toNat → s.srcByte i = x i
  wf : Memory.wf s.mem
  ok : WriterOk s e

/-- A running ENCODE past its initialisation puts out tokens of the input it was started with. -/
theorem EncodeRun.emitting {s t : State} (hchk : startCheck .encode s = none) (h : EncodeRun s t)
    (hc : t.ctrl = .busy .encode) (hb : t.phase ≠ .begin) : Emitting s.srcByte t (emitted t) := by
  obtain ⟨-, hok, -⟩ := h.running (by rw [hc]; nofun)
  obtain ⟨-, -, hrun, -⟩ := hok hc
  obtain ⟨-, hlen, -⟩ := h.params
  exact ⟨h.checked hchk, fun i hi => h.srcByte hchk (hlen ▸ hi), h.wf, (hrun hb).1⟩

theorem Emitted.sameParams {s t : State} {e : Nat} (h : Emitted s t e) : SameParams s t := by
  rw [h.frame]; exact ⟨rfl, rfl, rfl, rfl⟩

section emitting

variable {x : Nat → Byte} {s t : State} {e e' : Nat} (h : Emitting x s e)
include h

/-- Tokens for at most the whole input leave the parameters and the input as they are. -/
theorem Emitting.emit (ht : Emitted s t e') (he : e' ≤ s.srcLen.toNat) : Emitting x t e' where
  chk := (startCheck_congr ht.sameParams _).trans h.chk
  src i hi := by
    obtain ⟨-, hlen, -⟩ := ht.sameParams
    rw [hlen] at hi
    exact (ht.srcByte h.chk he hi).trans (h.src i hi)
  wf := ht.wf
  ok := ht.ok

/-- The output position leaves room for a token and a flag byte below `2 ^ 32` (44_encoder R181, R189). -/
theorem Emitting.op_lt (he : e ≤ s.srcLen.toNat) : s.wr.op.toNat + 4 < 2 ^ 32 := by
  obtain ⟨⟨t, ht, -, hop⟩, -⟩ := h.ok
  have := (startCheck_encode h.chk).1
  omega

theorem Emitting.fp_lt : s.wr.fp.toNat < s.wr.op.toNat := by
  obtain ⟨-, -, -, hlt, -⟩ := h.ok
  exact hlt

theorem Emitting.literal (he : e + 1 ≤ s.srcLen.toNat) (b : Byte) : Emitted s (emitLiteral s b) (e + 1) :=
  emitLiteral_emitted h.wf h.ok b (by have := (startCheck_encode h.chk).1; omega)

theorem Emitting.literals {k : Nat} (he : e + k ≤ s.srcLen.toNat) (src : Nat) : Emitted s (emitLiterals s src k) (e + k) :=
  emitLiterals_emitted h.wf h.ok src k (by have := (startCheck_encode h.chk).1; omega)

theorem Emitting.matchToken {len : Nat} (h3 : 3 ≤ len) (he : e + len ≤ s.srcLen.toNat) (dist : Nat) :
    Emitted s (emitMatchToken s len dist) (e + len) :=
  emitMatchToken_emitted h.wf h.ok dist h3 (by have := (startCheck_encode h.chk).1; omega)

end emitting

/-! ### What a token leaves in the destination -/

section TokenAdded

variable {s t : State} {bs : List Byte} (h : TokenAdded s t bs)
include h

/-- A token is written from `op` on. -/
theorem TokenAdded.dstByte_below (hd : ∀ k, t.dstAt k = s.dstAt k) (hop : s.wr.op.toNat + bs.length < 2 ^ 32) {j : Nat}
    (hj : j < s.wr.op.toNat) : t.dstByte j = s.dstByte j := by
  rw [State.dstByte, hd]
  refine h.elsewhere _ (fun i hi he => ?_) (fun _ he => ?_) <;>
  · have := offset_inj _ (by omega) (by omega) he
    omega

/-- The cursor after the `T`-th token (43_flag_group_writer R160, R161). -/
theorem TokenAdded.cursor {T : Nat} (hmask : s.wr.mask = firstMask >>> (T % 8)) (hop : s.wr.op.toNat + bs.length + 1 < 2 ^ 32) :
    t.wr.mask = firstMask >>> ((T + 1) % 8) ∧ t.wr.fp.toNat = nextFp T s.wr.fp.toNat (s.wr.op.toNat + bs.length) ∧
      t.wr.op.toNat = nextOp T (s.wr.op.toNat + bs.length) := by
  have hend : (s.wr.op + BitVec.ofNat 32 bs.length).toNat = s.wr.op.toNat + bs.length := offset_toNat _ (by omega)
  have hend1 : (s.wr.op + BitVec.ofNat 32 (bs.length + 1)).toNat = s.wr.op.toNat + (bs.length + 1) := offset_toNat _ hop
  rcases mask_next T with ⟨h7, hz, hT⟩ | ⟨h7, hz, hT⟩ <;> rw [← hmask] at hz
  · rw [(h.full hz).1, nextFp, nextOp, if_pos h7, if_pos h7, hT]
    exact ⟨rfl, hend, hend1⟩
  · rw [h.notFull hz, nextFp, nextOp, if_neg h7, if_neg h7, ← hT, ← hmask]
    exact ⟨rfl, rfl, hend⟩

end TokenAdded

theorem emitMatchToken_dstAt (s : State) (len dist k : Nat) : (emitMatchToken s len dist).dstAt k = s.dstAt k := by
  rw [emitMatchToken_frame]; rfl

theorem markLiteral_dstByte_ne {s : State} {j : Nat} (hj : j < s.wr.op.toNat)
    (hne : j ≠ s.wr.fp.toNat) : (markLiteral s).dstByte j = s.dstByte j := by
  exact State.dstByte_dstPut_ne s _ (Nat.lt_trans hj s.wr.op.isLt) s.wr.fp.isLt hne

end Sys2Proof.Machine

/-! # ENCODE's output is a stream that stands for its input (44_encoder R184, R186, R192) -/

namespace Sys2Proof.Machine

/-- The tokens written so far stand for the first `w` bytes of `x`, and the mask is at the flag bit of the next. -/
def Wrote (x : Nat → Byte) (s : State) (w : Nat) : Prop :=
  ∃ T, s.wr.mask = firstMask >>> (T % 8) ∧ Reads s.dstByte x T s.wr.fp.toNat s.wr.op.toNat w

theorem Wrote.congr {x : Nat → Byte} {s t : State} {w : Nat} (h : Wrote x s w) (hwr : t.wr = s.wr) (hb : t.dstByte = s.dstByte) :
    Wrote x t w := by
  unfold Wrote
  rw [hwr, hb]
  exact h

/-! ### One token -/

section token

variable {x : Nat → Byte} {s : State} {e : Nat} (h : Emitting x s e) (hw : Wrote x s e)
include h hw

/-- A literal is one more byte of the stream: its flag bit is set and its byte is the next of the input. -/
theorem emitLiteral_wrote (he : e + 1 ≤ s.srcLen.toNat) : Wrote x (emitLiteral s (x e)) (e + 1) := by
  obtain ⟨T, hmask, hr⟩ := hw
  have hop := h.op_lt (by omega)
  have hadd : TokenAdded (markLiteral s) (emitLiteral s (x e)) [x e] := emitLiteral_added h.wf (by omega) _
  obtain ⟨hmask', hfp', hop'⟩ := hadd.cursor hmask (show s.wr.op.toNat + 1 + 1 < 2 ^ 32 by omega)
  have hbelow : ∀ j, j < s.wr.op.toNat → (emitLiteral s (x e)).dstByte j = (markLiteral s).dstByte j := fun j hj =>
    hadd.dstByte_below (emitLiteral_dstAt s _) (show s.wr.op.toNat + 1 < 2 ^ 32 by omega) hj
  have hflag : (emitLiteral s (x e)).dstByte s.wr.fp.toNat = s.dstByte s.wr.fp.toNat ||| firstMask >>> (T % 8) := by
    obtain ⟨-, -, -, hfp, hbyte⟩ := h.ok
    rw [hbelow _ hfp, markLiteral_dstByte_fp h.wf, hbyte, hmask]
  have hset := flag_set (T % 8) (Nat.mod_lt _ (by decide)) (s.dstByte s.wr.fp.toNat)
  refine ⟨T + 1, hmask', ?_⟩
  rw [hfp', hop']
  refine .lit (hr.mono (fun j _ hj hne => ?_) fun t ht => ?_) ?_ ?_
  · rw [hbelow j hj]
    exact markLiteral_dstByte_ne hj hne
  · rw [flagBit, hflag]
    exact hset.2 _ ht
  · exact (congrArg (BitVec.getLsbD · _) hflag).trans hset.1
  · exact Option.some.inj (hadd.bytes 0 Nat.one_pos)

/-- A match is its length's worth of bytes of the stream, if they repeat those `dist` before them: its flag bit stays 0. -/
theorem emitMatchToken_wrote {len dist : Nat} (he : e + len ≤ s.srcLen.toNat) (h3 : 3 ≤ len) (h273 : len ≤ 273) (hd1 : 1 ≤ dist)
    (hd : dist ≤ 4096) (hde : dist ≤ e) (hx : ∀ i, i < len → x (e + i) = x (e + i - dist)) :
    Wrote x (emitMatchToken s len dist) (e + len) := by
  obtain ⟨T, hmask, hr⟩ := hw
  have hop := h.op_lt (by omega)
  have hlen := encode_matchInstr_length len dist
  have hadd : TokenAdded s (emitMatchToken s len dist) (encode (matchInstr len dist)) :=
    advanceMask_putToken_added h.wf (by omega)
  obtain ⟨hmask', hfp', hop'⟩ := hadd.cursor hmask (by omega)
  have hbelow : ∀ j, j < s.wr.op.toNat → (emitMatchToken s len dist).dstByte j = s.dstByte j := fun j hj =>
    hadd.dstByte_below (emitMatchToken_dstAt s _ _) (by omega) hj
  refine ⟨T + 1, hmask', ?_⟩
  rw [hfp', hop']
  refine .mat (hr.mono (fun j _ hj _ => hbelow j hj) fun t _ => ?_) ?_ h3 h273 hd1 hd hde hadd.bytes hx
  · rw [hbelow _ h.fp_lt]
  · obtain ⟨-, hunused, -, hfp, hbyte⟩ := h.ok
    rw [UnusedFlagsZero, hmask] at hunused
    rw [flagBit, hbelow _ hfp, hbyte]
    exact flag_clear _ (Nat.mod_lt _ (by decide)) _ hunused

end token

/-! ### Runs of tokens -/

section tokens

variable {x : Nat → Byte} {s : State} {e : Nat} (h : Emitting x s e) (hw : Wrote x s e)
include h hw

/-- A run of literals is as many bytes of the input. -/
theorem emitLiterals_wrote {k : Nat} (he : e + k ≤ s.srcLen.toNat) : Wrote x (emitLiterals s e k) (e + k) := by
  induction k generalizing s e with
  | zero => exact hw
  | succ k ih =>
    have hem := h.literal (by omega) (s.srcByte e)
    have h' := h.emit hem (by omega)
    have hw' : Wrote x (emitLiteral s (s.srcByte e)) (e + 1) := by
      rw [h.src e (by omega)]
      exact emitLiteral_wrote h hw (by omega)
    obtain ⟨-, hlen, -⟩ := hem.sameParams
    rw [show e + (k + 1) = e + 1 + k by omega]
    exact ih h' hw' (by rw [hlen]; omega)

/-- A match's tokens are its length's worth of bytes, however it is split. -/
theorem emitTokens_wrote {l : List Nat} {dist : Nat} (hl : ∀ c ∈ l, 3 ≤ c ∧ c ≤ 273) (he : e + l.sum ≤ s.srcLen.toNat)
    (hd1 : 1 ≤ dist) (hd : dist ≤ 4096) (hde : dist ≤ e) (hx : ∀ i, i < l.sum → x (e + i) = x (e + i - dist)) :
    Wrote x (emitTokens s dist l) (e + l.sum) := by
  induction l generalizing s e with
  | nil => exact hw
  | cons c l ih =>
    obtain ⟨hc3, hc273⟩ := hl c (List.mem_cons_self ..)
    rw [List.sum_cons] at he hx ⊢
    have hem := h.matchToken hc3 (by omega) dist
    have hw' := emitMatchToken_wrote h hw (by omega) hc3 hc273 hd1 hd hde fun i hi => hx i (by omega)
    obtain ⟨-, hlen, -⟩ := hem.sameParams
    rw [← Nat.add_assoc]
    refine ih (h.emit hem (by omega)) hw' (fun c' hc' => hl c' (List.mem_cons_of_mem _ hc')) (by rw [hlen]; omega) (by omega)
      fun i hi => ?_
    rw [Nat.add_assoc]
    exact hx (c + i) (by omega)

theorem emitMatch_wrote {len dist : Nat} (h3 : 3 ≤ len) (he : e + len ≤ s.srcLen.toNat) (hd1 : 1 ≤ dist) (hd : dist ≤ 4096)
    (hde : dist ≤ e) (hx : ∀ i, i < len → x (e + i) = x (e + i - dist)) : Wrote x (emitMatch s len dist) (e + len) := by
  obtain ⟨hsum, hc⟩ := chunks_spec h3 (Nat.le_refl len)
  have := emitTokens_wrote h hw hc (by omega) hd1 hd hde (by rwa [hsum])
  rwa [hsum] at this

end tokens

/-! ### ENCODE's moves -/

/-- After initialisation the stream is its header and an empty flag byte (44_encoder R182). -/
theorem initEncode_wrote (x : Nat → Byte) (s : State) : Wrote x (initEncode s) 0 := by
  unfold Wrote
  have hwr : (initEncode s).wr = ⟨17#32, 16#32, firstMask, 0#8⟩ := by rw [initEncode_frame]
  rw [hwr]
  exact ⟨0, rfl, .start⟩

/-- An accepted candidate is at most 4096 before the cursor, and the match's bytes repeat those from it on
(42_match_finder R143, R145). -/
theorem Emitting.match_repeats {x : Nat → Byte} {s : State} {e : Nat} (h : Emitting x s e) (hn : s.enc.n = s.srcLen)
    (hmay : mayProbe s = true) (hacc : accepts s s.enc.ref.toNat s.enc.ip.toNat = true) :
    1 ≤ s.enc.ip.toNat - s.enc.ref.toNat ∧ s.enc.ip.toNat - s.enc.ref.toNat ≤ 4096 ∧
    ∀ i, i < matchLength s → x (s.enc.ip.toNat + i) = x (s.enc.ip.toNat + i - (s.enc.ip.toNat - s.enc.ref.toNat)) := by
  obtain ⟨-, hend, hagree⟩ := matchesAgree s hmay hacc
  obtain ⟨hlt, hwin, -⟩ := accepts_iff.mp hacc
  rw [hn] at hend
  refine ⟨by omega, hwin, fun i hi => ?_⟩
  rw [show s.enc.ip.toNat + i - (s.enc.ip.toNat - s.enc.ref.toNat) = s.enc.ref.toNat + i by omega, ← h.src _ (by omega),
    ← h.src _ (by omega)]
  exact (hagree i hi).symm

/-- The tokens of a match step stand for the input up to the match's end (44_encoder R184). -/
theorem matchEmitted_wrote {x : Nat → Byte} {s : State} (h : Emitting x s s.enc.anchor.toNat) (hw : Wrote x s s.enc.anchor.toNat)
    (hn : s.enc.n = s.srcLen) (hai : s.enc.anchor.toNat ≤ s.enc.ip.toNat) (hmay : mayProbe s = true)
    (hacc : accepts s s.enc.ref.toNat s.enc.ip.toNat = true) : Wrote x (matchEmitted s) (matchEnd s) := by
  obtain ⟨hd1, hd, hx⟩ := h.match_repeats hn hmay hacc
  obtain ⟨h3, hend⟩ := matchLength_bounds hmay
  have hlt := (mayProbe_iff s).mp hmay
  rw [hn] at hend hlt
  have hip : s.enc.anchor.toNat + (s.enc.ip.toNat - s.enc.anchor.toNat) = s.enc.ip.toNat := by omega
  have hlit := h.literals (k := s.enc.ip.toNat - s.enc.anchor.toNat) (by omega) s.enc.anchor.toNat
  have hw' := emitLiterals_wrote h hw (k := s.enc.ip.toNat - s.enc.anchor.toNat) (by omega)
  have h' := h.emit hlit (by omega)
  obtain ⟨-, hlen, -⟩ := hlit.sameParams
  rw [hip] at hw' h'
  exact emitMatch_wrote h' hw' h3 (by rw [hlen]; omega) hd1 hd (by omega) hx

/-- Where the input in tokens ends after a match step. -/
theorem emitted_matchStep {s : State} (hend : matchEnd s < 2 ^ 32) : emitted (matchStep s) = matchEnd s := by
  rw [matchStep_frame]
  exact (BitVec.toNat_ofNat _ 32).trans (Nat.mod_eq_of_lt hend)

/-- Every move of ENCODE but the last keeps the output a stream for the input in tokens. -/
theorem encodeMove_wrote {x : Nat → Byte} {s : State} (hok : EncodeOk s) (hc : s.ctrl = .busy .encode) (hf : s.phase ≠ .flushed)
    (hem : s.phase ≠ .begin → Emitting x s (emitted s)) (hw : s.phase ≠ .begin → Wrote x s (emitted s)) :
    Wrote x (encodeMove s) (emitted (encodeMove s)) := by
  obtain ⟨hn, hph, hrun, hacc⟩ := hok hc
  by_cases hb : s.phase = .begin
  · have he : emitted (initEncode s) = 0 := by rw [initEncode_frame]; rfl
    rw [encodeMove_begin hb, he]
    exact initEncode_wrote x s
  have he : emitted s = s.enc.anchor.toNat := if_neg hf
  have hem := hem hb
  have hw := hw hb
  rw [he] at hem hw
  obtain ⟨-, -, hai, han, -⟩ := hrun hb
  cases hp : s.phase with
  | begin => exact absurd hp hb
  | tokens => exact absurd hp hph
  | search =>
    rw [encodeMove_search hp]
    split
    · have hep : emitted (probe s) = s.enc.anchor.toNat := by
        rw [emitted, probe_anchor]
        rcases probe_cases s with ⟨hph', -⟩ | ⟨hph', -⟩ <;> simp [hph', hp]
      rw [hep]
      exact hw.congr (by rw [probe_frame]) (by rw [probe_frame]; rfl)
    · have het : emitted (tailFlush s) = s.enc.anchor.toNat + (s.enc.n.toNat - s.enc.anchor.toNat) := by
        rw [tailFlush_frame, emitted, if_pos rfl]
        dsimp only
        omega
      rw [het]
      exact (emitLiterals_wrote hem hw (by rw [← hn]; omega)).congr rfl rfl
  | accepted =>
    obtain ⟨hmay, hok'⟩ := hacc hp
    have hend : matchEnd s ≤ s.enc.n.toNat - 4 := (matchLength_bounds hmay).2
    rw [encodeMove_accepted hp, emitted_matchStep (by omega), matchStep_frame]
    exact (matchEmitted_wrote hem hw hn hai hmay hok').congr rfl rfl
  | flushed => exact absurd hp hf

/-! ### ENCODE's run -/

/-- An ENCODE that was started at `s` has come to `t`, and its output so far, or all of it, is a stream for its input. -/
structure StreamRun (s t : State) : Prop where
  run : EncodeRun s t
  wrote : t.ctrl ≠ .idle → t.phase ≠ .begin → Wrote s.srcByte t (emitted t)
  ended : t.ctrl = .idle → ∃ T fp, Reads t.dstByte s.srcByte T fp t.result.toNat s.srcLen.toNat

theorem StreamRun.accept {s : State} (hh : s.host = []) (hm : Memory.wf s.mem) : StreamRun s (s.accept .encode) :=
  ⟨.accept hh hm, fun _ hb => absurd rfl hb, nofun⟩

/-- Each step of the run, and each of the idle block after it, keeps it a stream. -/
theorem StreamRun.step {s t : State} (hchk : startCheck .encode s = none) (h : StreamRun s t) :
    ∃ u, step t = .next u ∧ StreamRun s u := by
  by_cases hc : t.ctrl = .idle
  · exact ⟨t, step_idle h.run.host hc, h⟩
  obtain ⟨hbusy, hok, -⟩ := h.run.running hc
  obtain ⟨hstep, hrun⟩ := h.run.move hchk hc
  refine ⟨_, hstep, ?_⟩
  by_cases hf : t.phase = .flushed
  · have hb : t.phase ≠ .begin := by simp [hf]
    have hn : emitted t = s.srcLen.toNat := by
      obtain ⟨-, hlen, -⟩ := h.run.params
      rw [emitted, if_pos hf, (hok hbusy).1, hlen]
    obtain ⟨T, -, hr⟩ := h.wrote hc hb
    rw [hn] at hr
    rw [encodeMove_flushed hf] at hrun ⊢
    exact ⟨hrun, fun hne => absurd rfl hne, fun _ => ⟨T, _, hr⟩⟩
  · have hcu : (encodeMove t).ctrl = .busy .encode := (encodeMove_continues hf).ctrl.trans hbusy
    refine ⟨hrun, fun _ _ => encodeMove_wrote hok hbusy hf (h.run.emitting hchk hbusy) (h.wrote hc), fun hi => ?_⟩
    rw [hcu] at hi
    cases hi

/-- ENCODE, from any state within its limits, is accepted, and wherever it comes to its output is a stream for its input
(44_encoder R181, R192). -/
theorem encodeReady_run {s t u : State} {k : Nat} (h : EncodeReady s) (hex : exec .encode s = .next t)
    (hrun : Host.Core.run core k t = .next u) : startCheck .encode s = none ∧ t = s.accept .encode ∧ StreamRun s u := by
  obtain ⟨hh, hc, ⟨hm, -⟩, hfit, hn, hcap⟩ := h
  have hchk := startCheck_encode_ready hfit hn hcap
  obtain rfl : s.accept .encode = t := by
    have := (exec_encode_accepted hc hchk).symm.trans hex
    injection this
  exact ⟨hchk, rfl, run_keeps (fun _ ht => StreamRun.step hchk ht) (StreamRun.accept hh hm) hrun⟩

end Sys2Proof.Machine

/-! # DECODE follows a stream: each token gives the bytes it stands for (45_decoder R202 to R210) -/

namespace Sys2Proof.Machine

/-! ### Where a run comes to -/

/-- A run of at least one step starts with a step to a next state. -/
theorem run_succ_cases {s t : State} {k : Nat} (h : Host.Core.run core (k + 1) s = .next t) :
    ∃ s', step s = .next s' ∧ Host.Core.run core k s' = .next t := by
  cases hs : step s with
  | next s' => exact ⟨s', rfl, (run_succ hs k).symm.trans h⟩
  | fault r =>
    have hs' : core.step s = .fault r := hs
    simp only [Host.Core.run, hs'] at h
    cases h
  | refused r =>
    have hs' : core.step s = .refused r := hs
    simp only [Host.Core.run, hs'] at h
    cases h

/-- A run goes on from where it came to. -/
theorem run_add {s t : State} {k : Nat} (h : Host.Core.run core k s = .next t) (j : Nat) :
    Host.Core.run core (k + j) s = Host.Core.run core j t := by
  induction k generalizing s with
  | zero => cases h; rw [Nat.zero_add]
  | succ k ih =>
    obtain ⟨s', hs, hrun⟩ := run_succ_cases h
    rw [Nat.succ_add, run_succ hs, ih hrun]

/-- A block that is idle and left alone stays as it is. -/
theorem run_idle {s : State} (hh : s.host = []) (hc : s.ctrl = .idle) (k : Nat) : Host.Core.run core k s = .next s := by
  induction k with
  | zero => rfl
  | succ k ih => exact (run_succ (step_idle hh hc) k).trans ih

/-- A run of some length leads from `s` to `t`. -/
def Reaches (s t : State) : Prop := ∃ k, Host.Core.run core k s = .next t

theorem Reaches.refl (s : State) : Reaches s s := ⟨0, rfl⟩

theorem Reaches.head {s t u : State} (h : step s = .next t) (h' : Reaches t u) : Reaches s u := by
  obtain ⟨k, hk⟩ := h'
  exact ⟨k + 1, (run_succ h k).trans hk⟩

theorem Reaches.trans {s t u : State} (h : Reaches s t) (h' : Reaches t u) : Reaches s u := by
  obtain ⟨k, hk⟩ := h
  obtain ⟨j, hj⟩ := h'
  exact ⟨k + j, (run_add hk j).trans hj⟩

theorem Reaches.tail {s t u : State} (h : Reaches s t) (h' : step t = .next u) : Reaches s u := h.trans (.head h' (.refl u))

/-! ### The items of the stream -/

theorem srcBytes_getElem? (s : State) (i k j : Nat) (hj : j < k) : (s.srcBytes i k)[j]? = some (s.srcByte (i + j)) := by
  induction k generalizing i j with
  | zero => exact absurd hj (Nat.not_lt_zero j)
  | succ k ih =>
    cases j with
    | zero => rfl
    | succ j =>
      rw [State.srcBytes, List.getElem?_cons_succ, ih _ _ (Nat.lt_of_succ_lt_succ hj), Nat.add_assoc, Nat.add_comm 1]

/-- Source bytes that are a list's, one by one, are the list. -/
theorem srcBytes_eq {s : State} {i : Nat} {bs : List Byte} (h : ∀ j, j < bs.length → some (s.srcByte (i + j)) = bs[j]?) :
    s.srcBytes i bs.length = bs := by
  refine List.ext_getElem? fun j => ?_
  by_cases hj : j < bs.length
  · rw [srcBytes_getElem? s i _ j hj, h j hj]
  · rw [List.getElem?_eq_none (by simpa using hj), List.getElem?_eq_none (by simpa using hj)]

/-- The stream holds an item's bytes at the cursor: it is fetched (45_decoder R204, R206, R207). -/
theorem runItem_encode {s : State} {i : Instr} {c : Cause} (hwf : wellFormed i = true) (hl : (encode i).length ≤ streamLeft s)
    (hb : ∀ j, j < (encode i).length → some (s.srcByte (s.dec.pos.toNat + j)) = (encode i)[j]?) :
    runItem s (selectOf i) (encode i).length c = .run i s := by
  have hdec := decodeOfEncode i [] hwf
  rw [List.append_nil] at hdec
  rw [runItem, Nat.min_eq_left hl, srcBytes_eq hb, hdec]

section token

variable {s : State}

/-- A running DECODE that is left alone takes the next item of its stream (45_decoder R200). -/
theorem step_streamTurn (hh : s.host = []) (hd : s.ctrl = .busy .decode) : step s = perform (streamTurn s) := by
  rw [step_blockTurn hh, blockTurn, hd]

/-- A flag byte is fetched (45_decoder R204). -/
theorem step_flag (hh : s.host = []) (hd : s.ctrl = .busy .decode) (hw : want s = .flag) (hl : 0 < streamLeft s) :
    step s = .next { s with dec := { s.dec with flag := s.srcByte s.dec.pos.toNat, pos := s.dec.pos + 1#32, bits := 8#4 } } := by
  have hrun : runItem s .flag 1 .truncFlag = .run (.flag (s.srcByte s.dec.pos.toNat)) s :=
    runItem_encode (i := .flag _) rfl hl fun j hj => by obtain rfl : j = 0 := Nat.lt_one_iff.mp hj; rfl
  have hw' : ¬ want s ≠ .flag := Decidable.not_not.mpr hw
  rw [step_streamTurn hh hd, streamTurn, hw]
  show perform (runItem s .flag 1 .truncFlag) = _
  rw [hrun, perform_run, exec, execFlag, if_neg hw', if_neg (Nat.ne_of_gt hl)]

/-- A literal's byte is copied to the destination (45_decoder R206, R209). -/
theorem step_literal (hh : s.host = []) (hd : s.ctrl = .busy .decode) (hw : want s = .literal) (hl : 0 < streamLeft s)
    (hcap : s.dec.written ≠ s.dec.cap) :
    step s = .next (nextFlagBit
      { s.dstPut s.dec.written.toNat (s.srcByte s.dec.pos.toNat) with
        dec := { s.dec with pos := s.dec.pos + 1#32, written := s.dec.written + 1#32 } }) := by
  have hrun : runItem s .lit 1 .truncLiteral = .run (.lit (s.srcByte s.dec.pos.toNat)) s :=
    runItem_encode (i := .lit _) rfl hl fun j hj => by obtain rfl : j = 0 := Nat.lt_one_iff.mp hj; rfl
  have hw' : ¬ want s ≠ .literal := Decidable.not_not.mpr hw
  rw [step_streamTurn hh hd, streamTurn, hw]
  show perform (runItem s .lit 1 .truncLiteral) = _
  rw [hrun, perform_run, exec, execLit, if_neg hw', if_neg (Nat.ne_of_gt hl), if_neg hcap]

/-- A match code's first byte tells its length (30_encoding R94). -/
theorem matchLen_encode {i : Instr} (hwf : wellFormed i = true) (hi : selectOf i = .mtch) :
    2 ≤ (encode i).length ∧ ∃ b, (encode i)[0]? = some b ∧ matchLen b = (encode i).length := by
  cases i with
  | sm l d =>
    obtain ⟨hlen, hfirst⟩ := Laws.EncodeLength.sm l d
    obtain ⟨b, rest, he, hb⟩ := hfirst hwf hi
    exact ⟨by rw [hlen]; exact Nat.le_refl 2, b, by rw [he]; rfl, hb.trans hlen.symm⟩
  | lm d n =>
    obtain ⟨hlen, hfirst⟩ := Laws.EncodeLength.lm d n
    obtain ⟨b, rest, he, hb⟩ := hfirst hwf hi
    exact ⟨by rw [hlen]; exact Nat.le_succ 2, b, by rw [he]; rfl, hb.trans hlen.symm⟩
  | _ => cases hi

theorem selectOf_matchInstr (len dist : Nat) : selectOf (matchInstr len dist) = .mtch := by
  unfold matchInstr; split <;> rfl

/-- A match instruction is a match token of its length and distance (45_decoder R207). -/
theorem exec_match {i : Instr} {len dist : Nat} (hi : matchOperands i = some (len, dist)) (hw : want s = .matchCode) :
    ∃ b0 b1 b2 D L, exec i s = .next (matchToken s b0 b1 b2 (encode i).length D L) ∧ D.toNat = dist ∧ L.toNat = len := by
  have hw' : ¬ want s ≠ .matchCode := Decidable.not_not.mpr hw
  cases i with
  | sm l d => cases hi; exact ⟨_, _, _, _, _, if_neg hw', rfl, rfl⟩
  | lm d n => cases hi; exact ⟨_, _, _, _, _, if_neg hw', rfl, rfl⟩
  | _ => cases hi

/-- A match token that passes its checks (45_decoder R207, R208). -/
theorem matchToken_copied {b0 b1 b2 : Byte} {k : Nat} {D : BitVec 13} {L : BitVec 9} (hl : k ≤ streamLeft s)
    (hdist : D.toNat ≤ s.dec.written.toNat) (hcap : s.dec.written.toNat + L.toNat ≤ s.dec.cap.toNat)
    (hsize : s.dec.written.toNat + L.toNat ≤ s.dec.size.toNat) :
    matchToken s b0 b1 b2 k D L = nextFlagBit (copyBytes (readMatch s b0 b1 b2 k D L) D.toNat L.toNat) := by
  rw [matchToken, if_neg (Nat.not_lt.mpr hl), validateAndCopy]
  exact (if_neg (Nat.not_lt.mpr hdist)).trans ((if_neg (Nat.not_lt.mpr hcap)).trans (if_neg (Nat.not_lt.mpr hsize)))

/-- A match whose code is at the cursor, and which passes its checks, is copied (45_decoder R207, R208). -/
theorem step_match (hh : s.host = []) (hd : s.ctrl = .busy .decode) (hw : want s = .matchCode) {len dist : Nat} (h3 : 3 ≤ len)
    (h273 : len ≤ 273) (hd1 : 1 ≤ dist) (h4096 : dist ≤ 4096) (hl : (encode (matchInstr len dist)).length ≤ streamLeft s)
    (hb : ∀ j, j < (encode (matchInstr len dist)).length →
      some (s.srcByte (s.dec.pos.toNat + j)) = (encode (matchInstr len dist))[j]?)
    (hdist : dist ≤ s.dec.written.toNat) (hcap : s.dec.written.toNat + len ≤ s.dec.cap.toNat)
    (hsize : s.dec.written.toNat + len ≤ s.dec.size.toNat) :
    ∃ b0 b1 b2 D L,
      step s = .next (nextFlagBit (copyBytes (readMatch s b0 b1 b2 (encode (matchInstr len dist)).length D L) dist len)) := by
  have hwf := wellFormed_matchInstr (dist := dist) h3
  have hsel := selectOf_matchInstr len dist
  obtain ⟨h2, b, hb0, hlen⟩ := matchLen_encode hwf hsel
  have hfirst : s.srcByte s.dec.pos.toNat = b := Option.some.inj ((hb 0 (by omega)).trans hb0)
  have hneed : matchNeed s = (encode (matchInstr len dist)).length := by
    rw [matchNeed, if_neg (by omega), hfirst, hlen]
  have hrun := runItem_encode (c := .truncMatch) hwf hl hb
  rw [hsel, ← hneed] at hrun
  obtain ⟨b0, b1, b2, D, L, hex, rfl, rfl⟩ := exec_match (matchOperands_matchInstr h3 h273 hd1 h4096) hw
  refine ⟨b0, b1, b2, D, L, ?_⟩
  rw [step_streamTurn hh hd, streamTurn, hw]
  show perform (runItem s .mtch (matchNeed s) .truncMatch) = _
  rw [hrun, perform_run, hex, matchToken_copied hl hdist hcap hsize]

end token

/-! ### The header -/

/-- DECODE's source is long enough for a header (45_decoder R202). -/
theorem header_fits {s : State} (hd : s.ctrl = .busy .decode) (h16 : 16 ≤ s.dec.n.toNat) : ¬ headerHave s < headerNeed s := by
  have hpeek : ¬ s.ctrl = .busy .peekSize := by rw [hd]; nofun
  rw [headerHave, headerNeed, if_neg hpeek, if_neg hpeek]
  exact Nat.not_lt.mpr h16

/-- A header's bytes in the source are fetched as HDR (45_decoder R202). -/
theorem runHeader_hdr {s : State} {n : Word} (hd : s.ctrl = .busy .decode) (h16 : 16 ≤ s.dec.n.toNat)
    (hb : ∀ k, k < 8 → s.srcByte k = (hdrBytes n).getD k 0#8) : runHeader s = .run (.hdr n) s := by
  have hbytes : s.srcBytes 0 Config.peekLen = (hdrBytes n).take 8 :=
    srcBytes_eq (bs := (hdrBytes n).take 8) fun j hj => by
      have hj : j < 8 := hj
      rw [Nat.zero_add, hb j hj]
      match j, hj with
      | 0, _ | 1, _ | 2, _ | 3, _ | 4, _ | 5, _ | 6, _ | 7, _ => rfl
  have hdec : decode .hdr ((hdrBytes n).take 8) = .ok (.hdr n, []) := by
    have h : decode .hdr ((hdrBytes n).take 8) = _ := decode_hdr_magic (rest := [])
    rw [word_of_bytes] at h
    exact h
  rw [runHeader, if_neg (header_fits hd h16), hbytes, hdec]

/-- DECODE's first step, on a source that starts with a header (45_decoder R202). -/
theorem step_header {s : State} {n : Word} (hh : s.host = []) (hd : s.ctrl = .busy .decode) (hp : s.phase = .begin)
    (h16 : 16 ≤ s.dec.n.toNat) (hb : ∀ k, k < 8 → s.srcByte k = (hdrBytes n).getD k 0#8) :
    step s = .next (checkHeader s n) := by
  have hw : want s = .header := by simp only [want, hd, hp, ↓reduceIte]
  have hpeek : ¬ s.ctrl = .busy .peekSize := by rw [hd]; nofun
  rw [step_streamTurn hh hd, streamTurn, hw]
  show perform (runHeader s) = _
  rw [runHeader_hdr hd h16 hb, perform_run, exec, execHdr, if_neg (Decidable.not_not.mpr hw), if_neg (header_fits hd h16),
    if_neg hpeek]

/-- A size from 1 to the capacity starts the token loop (45_decoder R203). -/
theorem checkHeader_starts {s : State} {n : Word} (h1 : 1 ≤ n.toNat) (hcap : n.toNat ≤ s.dec.cap.toNat) :
    checkHeader s n =
      { s with dec := { s.dec with size := n, pos := 16#32, written := 0#32, flag := 0#8, bits := 0#4 }, phase := .tokens } := by
  have h0 : n ≠ 0#32 := by rintro rfl; exact absurd h1 (by decide)
  rw [checkHeader, if_neg h0, if_neg (Nat.not_lt.mpr hcap)]
  rfl

end Sys2Proof.Machine

/-! # The round trip (44_encoder R192) -/

namespace Sys2Proof.Machine

/-! ### DECODE's source and registers while it runs -/

/-- DECODE's source is what it was at its start (20_memory R64). -/
theorem DecodeRun.srcByte {v t : State} (hfit : RegionsFit v) (h : DecodeRun v t) {i : Nat} (hi : i < v.srcLen.toNat) :
    t.srcByte i = v.srcByte i := by
  obtain ⟨hsrc, -, hapart⟩ := startCheck_regions rfl (startCheck_fit (op := .decode) rfl hfit)
  obtain ⟨hsrcAddr, -⟩ := h.params
  rw [State.srcByte, State.srcAt, hsrcAddr]
  exact h.outside _ (hapart _ (srcAt_inSrc hsrc hi))

/-- The next state of a run is one of the run. -/
theorem DecodeRun.next {v t u : State} (hfit : RegionsFit v) (h : DecodeRun v t) (hc : t.ctrl = .busy .decode)
    (hstep : Machine.step t = .next u) : DecodeRun v u := by
  obtain ⟨u', hstep', hu, -⟩ := h.step hfit.2.1 (by rw [hc]; nofun)
  obtain rfl : u' = u := by
    have := hstep'.symm.trans hstep
    injection this
  exact hu

/-- DECODE, started at `v`, is in its loop at `t`: it has to write `n` bytes, and has written the first `w` of `x`. -/
structure Followed (x : Nat → Byte) (n : Word) (v t : State) (w : Nat) : Prop where
  run : DecodeRun v t
  wf : Memory.wf t.mem
  ctrl : t.ctrl = .busy .decode
  phase : t.phase = .tokens
  size : t.dec.size = n
  written : t.dec.written.toNat = w
  bytes : ∀ i, i < w → t.dstByte i = x i

/-- The cursor is at the bytes of the stream's `T`-th token, whose flag bit is the next (45_decoder R205, R209). -/
def AtToken (f : Nat → Byte) (d : DecRegs) (T fp op : Nat) : Prop :=
  d.pos.toNat = op ∧ d.bits.toNat = 8 - T % 8 ∧ d.flag = f fp <<< (T % 8)

/-- The cursor is past the token before the stream's `T`-th: the first of a group has its flag byte still to be fetched
(45_decoder R204). -/
def BeforeToken (f : Nat → Byte) (d : DecRegs) (T fp op : Nat) : Prop :=
  if T % 8 = 0 then d.pos.toNat = fp ∧ d.bits = 0#4 else AtToken f d T fp op

/-- After a token of `k` bytes the cursor is before the next (45_decoder R209). -/
theorem AtToken.after {f : Nat → Byte} {d d' : DecRegs} {T fp op k : Nat} (h : AtToken f d T fp op) (hk : op + k < 2 ^ 32)
    (hp : d'.pos = d.pos + BitVec.ofNat 32 k) (hf : d'.flag = shiftFlag d.flag) (hb : d'.bits = d.bits - 1#4) :
    BeforeToken f d' (T + 1) (nextFp T fp (op + k)) (nextOp T (op + k)) := by
  obtain ⟨hpos, hbits, hflag⟩ := h
  have hpos' : d'.pos.toNat = op + k := by rw [hp, offset_toNat _ (by omega), hpos]
  have hbits' : d'.bits.toNat = 7 - T % 8 := by
    rw [hb, BitVec.toNat_sub, BitVec.toNat_ofNat, hbits]
    omega
  unfold BeforeToken nextFp nextOp AtToken
  by_cases h7 : T % 8 = 7
  · rw [if_pos h7, if_pos (by omega)]
    exact ⟨hpos', BitVec.eq_of_toNat_eq (by rw [hbits', h7]; rfl)⟩
  · have hT : (T + 1) % 8 = T % 8 + 1 := by omega
    rw [if_neg h7, if_neg h7, if_neg (by omega), hT]
    refine ⟨hpos', by omega, ?_⟩
    rw [hf, hflag, shiftFlag, BitVec.shiftLeft_add]

/-- A copy goes on as the bytes before it did, if the bytes to come repeat those `dist` before them (45_decoder R208). -/
theorem copyBytes_goes_on {x : Nat → Byte} {s : State} (hm : Memory.wf s.mem) {dist len : Nat} (hd : 1 ≤ dist)
    (hdw : dist ≤ s.dec.written.toNat) (hfit : s.dec.written.toNat + len < 2 ^ 32)
    (hold : ∀ i, i < s.dec.written.toNat → s.dstByte i = x i)
    (hx : ∀ i, i < len → x (s.dec.written.toNat + i) = x (s.dec.written.toNat + i - dist)) {i : Nat}
    (hi : i < s.dec.written.toNat + len) : (copyBytes s dist len).dstByte i = x i := by
  induction i using Nat.strongRecOn with
  | ind i ih =>
    by_cases hlt : i < s.dec.written.toNat
    · rw [copyBytes_below s dist len hfit hlt, hold i hlt]
    · obtain ⟨j, rfl⟩ := Nat.exists_eq_add_of_le (Nat.le_of_not_lt hlt)
      rw [copyBytes_repeats hm hd hdw hfit (Nat.le_add_right ..) hi, ih _ (by omega) (by omega), hx j (by omega)]

section followed

variable {x : Nat → Byte} {n : Word} {v t : State} {w : Nat} (hfit : RegionsFit v) (h : Followed x n v t w)
include h

/-- DECODE's copies of the parameters. -/
theorem Followed.params : t.dec.n = v.srcLen ∧ t.dec.cap = v.dstCap := by
  obtain ⟨-, hok, -⟩ := h.run.running (by rw [h.ctrl]; nofun)
  obtain ⟨hn, hcap, -⟩ := hok h.ctrl
  obtain ⟨-, hlen, -, hdst⟩ := h.run.params
  exact ⟨hn.trans hlen, hcap.trans hdst⟩

theorem Followed.streamLeft : streamLeft t = v.srcLen.toNat - t.dec.pos.toNat := by
  rw [Machine.streamLeft, h.params.1]

/-- While bytes are left to write, the next token is wanted (45_decoder R204, R205, R210). -/
theorem Followed.want (hw : w < n.toNat) :
    want t = if t.dec.bits = 0#4 then .flag else if flagIsLiteral t.dec.flag then .literal else .matchCode := by
  have hp : ¬ t.phase = .begin := by rw [h.phase]; nofun
  have hne : ¬ t.dec.written = t.dec.size := fun he => by
    have := h.written
    rw [he, h.size] at this
    omega
  simp only [Machine.want, h.ctrl, if_neg hp, wantToken, if_neg hne]

/-- At a token, its flag bit tells a literal from a match (45_decoder R205). -/
theorem Followed.want_token {T fp op : Nat} (hw : w < n.toNat) (hat : AtToken v.srcByte t.dec T fp op) :
    Machine.want t = if flagBit (v.srcByte fp) T then .literal else .matchCode := by
  obtain ⟨-, hbits, hflag⟩ := hat
  have h0 : ¬ t.dec.bits = 0#4 := fun he => by
    rw [he, BitVec.toNat_ofNat] at hbits
    omega
  rw [h.want hw, if_neg h0, flagIsLiteral, hflag, flag_top _ (Nat.mod_lt _ (by decide)), flagBit]

include hfit

/-- A source byte of the stream, as DECODE reads it. -/
theorem Followed.srcByte {i : Nat} (hi : i < v.srcLen.toNat) : t.srcByte i = v.srcByte i := h.run.srcByte hfit hi

/-- Before a token DECODE fetches its flag byte, if it is the first of its group (45_decoder R204). -/
theorem Followed.fetch {T fp op : Nat} (hw : w < n.toNat) (hop : op ≤ v.srcLen.toNat) (hfp : fp < op)
    (h0 : T % 8 = 0 → op = fp + 1) (hb : BeforeToken v.srcByte t.dec T fp op) :
    ∃ u, Reaches t u ∧ Followed x n v u w ∧ AtToken v.srcByte u.dec T fp op := by
  by_cases hT : T % 8 = 0
  · rw [BeforeToken, if_pos hT] at hb
    obtain ⟨hpos, hbits⟩ := hb
    have hwant : Machine.want t = .flag := (h.want hw).trans (if_pos hbits)
    have hl : 0 < Machine.streamLeft t := by rw [h.streamLeft, hpos]; omega
    have hstep := step_flag h.run.host h.ctrl hwant hl
    have hpos' : (t.dec.pos + 1#32).toNat = op := by
      rw [h0 hT, ← hpos]
      exact offset_toNat _ (by omega)
    have hflag : t.srcByte t.dec.pos.toNat = v.srcByte fp <<< (T % 8) := by
      rw [hT, BitVec.shiftLeft_zero, hpos, h.srcByte hfit (by omega)]
    exact ⟨_, .head hstep (.refl _), ⟨h.run.next hfit h.ctrl hstep, h.wf, h.ctrl, h.phase, h.size, h.written, h.bytes⟩, hpos',
      by rw [hT]; rfl, hflag⟩
  · rw [BeforeToken, if_neg hT] at hb
    exact ⟨t, .refl t, h, hb⟩

/-- DECODE writes a literal's byte (45_decoder R206). -/
theorem Followed.literal {T fp op : Nat} (hw : w + 1 ≤ n.toNat) (hcap : n.toNat ≤ v.dstCap.toNat) (hop : op < v.srcLen.toNat)
    (hat : AtToken v.srcByte t.dec T fp op) (hb : flagBit (v.srcByte fp) T = true) (hx : v.srcByte op = x w) :
    ∃ u, step t = .next u ∧ Followed x n v u (w + 1) ∧
      BeforeToken v.srcByte u.dec (T + 1) (nextFp T fp (op + 1)) (nextOp T (op + 1)) := by
  obtain ⟨hpos, -⟩ := id hat
  have hwritten := h.written
  have hwant : Machine.want t = .literal := (h.want_token hw hat).trans (if_pos hb)
  have hl : 0 < Machine.streamLeft t := by rw [h.streamLeft, hpos]; omega
  have hfree : t.dec.written ≠ t.dec.cap := fun he => by
    rw [he, h.params.2] at hwritten
    omega
  have hstep := step_literal h.run.host h.ctrl hwant hl hfree
  refine ⟨_, hstep, ⟨h.run.next hfit h.ctrl hstep, State.dstPut_wf h.wf _ _, h.ctrl, h.phase, h.size, ?_, fun i hi => ?_⟩,
    hat.after (by omega) rfl rfl rfl⟩
  · exact (offset_toNat _ (by omega)).trans (by rw [hwritten])
  · show (t.dstPut t.dec.written.toNat (t.srcByte t.dec.pos.toNat)).dstByte i = x i
    by_cases hiw : i = w
    · rw [hiw, ← hwritten, State.dstByte_dstPut_self h.wf, hpos, h.srcByte hfit hop, hx, hwritten]
    · rw [State.dstByte_dstPut_ne _ _ (by omega) (by omega) (by omega)]
      exact h.bytes i (by omega)

/-- DECODE copies a match: each byte repeats the one `dist` before it (45_decoder R207, R208). -/
theorem Followed.copy {T fp op len dist : Nat} (hw : w + len ≤ n.toNat) (hcap : n.toNat ≤ v.dstCap.toNat)
    (hop : op + (encode (matchInstr len dist)).length ≤ v.srcLen.toNat) (hat : AtToken v.srcByte t.dec T fp op)
    (hb : flagBit (v.srcByte fp) T = false) (h3 : 3 ≤ len) (h273 : len ≤ 273) (hd1 : 1 ≤ dist) (hd : dist ≤ 4096) (hdw : dist ≤ w)
    (he : ∀ j, j < (encode (matchInstr len dist)).length → some (v.srcByte (op + j)) = (encode (matchInstr len dist))[j]?)
    (hx : ∀ i, i < len → x (w + i) = x (w + i - dist)) :
    ∃ u, step t = .next u ∧ Followed x n v u (w + len) ∧
      BeforeToken v.srcByte u.dec (T + 1) (nextFp T fp (op + (encode (matchInstr len dist)).length))
        (nextOp T (op + (encode (matchInstr len dist)).length)) := by
  obtain ⟨hpos, -⟩ := id hat
  have hwritten := h.written
  have hwant : Machine.want t = .matchCode := (h.want_token (by omega) hat).trans (if_neg (by rw [hb]; nofun))
  have hl : (encode (matchInstr len dist)).length ≤ Machine.streamLeft t := by rw [h.streamLeft, hpos]; omega
  obtain ⟨b0, b1, b2, D, L, hstep⟩ := step_match h.run.host h.ctrl hwant h3 h273 hd1 hd hl
    (fun j hj => by rw [hpos, h.srcByte hfit (by omega)]; exact he j hj) (by omega) (by rw [h.params.2]; omega)
    (by rw [h.size]; omega)
  have hbytes {i : Nat} (hi : i < t.dec.written.toNat + len) :=
    copyBytes_goes_on (x := x) (s := readMatch t b0 b1 b2 (encode (matchInstr len dist)).length D L) (dist := dist) h.wf hd1
      (show dist ≤ t.dec.written.toNat by omega) (show t.dec.written.toNat + len < 2 ^ 32 by omega) (hwritten ▸ h.bytes)
      (hwritten ▸ hx) hi
  have hrun := h.run.next hfit h.ctrl hstep
  have hwf := copyBytes_wf (s := readMatch t b0 b1 b2 (encode (matchInstr len dist)).length D L) h.wf dist len
  refine ⟨_, hstep, ⟨hrun, hwf, ?_, ?_, ?_, ?_, fun i hi => hbytes (by omega)⟩, ?_⟩
  all_goals rw [copyBytes_frame]
  · exact h.ctrl
  · exact h.phase
  · exact h.size
  · exact (offset_toNat t.dec.written (i := len) (by omega)).trans (by rw [hwritten])
  · exact hat.after (by omega) rfl rfl rfl

end followed

/-! ### DECODE's run over a stream -/

section stream

variable {x : Nat → Byte} {n : Word} {v : State} (hfit : RegionsFit v) (hh : v.host = []) (hm : Memory.wf v.mem)
  (h17 : 17 ≤ v.srcLen.toNat) (hhdr : ∀ k, k < 8 → v.srcByte k = (hdrBytes n).getD k 0#8)
include hh h17 hhdr

/-- DECODE's first step, on a stream that declares `n` bytes. -/
theorem step_accept_decode : step (v.accept .decode) = .next (checkHeader (v.accept .decode) n) :=
  step_header hh rfl rfl (show 16 ≤ v.srcLen.toNat by omega) hhdr

include hfit hm

/-- DECODE starts its loop before the stream's first token (45_decoder R203). -/
theorem decode_starts (h1 : 1 ≤ n.toNat) (hcap : n.toNat ≤ v.dstCap.toNat) :
    ∃ t, Reaches (v.accept .decode) t ∧ Followed x n v t 0 ∧ BeforeToken v.srcByte t.dec 0 16 17 := by
  have hstep := step_accept_decode hh h17 hhdr
  have hrun := (DecodeRun.accept hh).next hfit rfl hstep
  rw [checkHeader_starts h1 (show n.toNat ≤ (v.accept .decode).dec.cap.toNat from hcap)] at hstep hrun
  exact ⟨_, .head hstep (.refl _), ⟨hrun, hm, rfl, rfl, rfl, rfl, nofun⟩, rfl, rfl⟩

/-- DECODE follows a stream's tokens, for as long as their bytes are in the source and have been declared. -/
theorem decode_follows (hcap : n.toNat ≤ v.dstCap.toNat) (h1 : 1 ≤ n.toNat) {T fp op w : Nat}
    (hr : Reads v.srcByte x T fp op w) (hop : op ≤ v.srcLen.toNat) (hw : w ≤ n.toNat) :
    ∃ t, Reaches (v.accept .decode) t ∧ Followed x n v t w ∧ BeforeToken v.srcByte t.dec T fp op := by
  induction hr with
  | start => exact decode_starts hfit hh hm h17 hhdr h1 hcap
  | @lit T fp op w hr hb hx ih =>
    have hend : op + 1 ≤ nextOp T (op + 1) := by unfold nextOp; split <;> omega
    obtain ⟨-, hfp, h0⟩ := hr.pos
    obtain ⟨t, ht, hfol, hbefore⟩ := ih (by omega) (by omega)
    obtain ⟨u, hu, hfol, hat⟩ := hfol.fetch hfit (by omega) (by omega) hfp h0 hbefore
    obtain ⟨u', hstep, hfol, hbefore⟩ := hfol.literal hfit hw hcap (by omega) hat hb hx
    exact ⟨u', (ht.trans hu).tail hstep, hfol, hbefore⟩
  | @mat T fp op w len dist hr hb h3 h273 hd1 hd hdw he hx ih =>
    have hend : op + (encode (matchInstr len dist)).length ≤ nextOp T (op + (encode (matchInstr len dist)).length) := by
      unfold nextOp; split <;> omega
    obtain ⟨-, hfp, h0⟩ := hr.pos
    obtain ⟨t, ht, hfol, hbefore⟩ := ih (by omega) (by omega)
    obtain ⟨u, hu, hfol, hat⟩ := hfol.fetch hfit (by omega) (by omega) hfp h0 hbefore
    obtain ⟨u', hstep, hfol, hbefore⟩ := hfol.copy hfit hw hcap (by omega) hat hb h3 h273 hd1 hd hdw he hx
    exact ⟨u', (ht.trans hu).tail hstep, hfol, hbefore⟩

end stream

/-- DECODE ends when the declared size is written (45_decoder R210). -/
theorem Followed.ends {x : Nat → Byte} {n : Word} {v t : State} (h : Followed x n v t n.toNat) :
    step t = .next (t.complete n) := by
  have hp : ¬ t.phase = .begin := by rw [h.phase]; nofun
  have hw : t.dec.written = n := BitVec.eq_of_toNat_eq h.written
  have hwant : Machine.want t = .done := by
    simp only [Machine.want, h.ctrl, if_neg hp, wantToken, if_pos (hw.trans h.size.symm)]
  rw [step_streamTurn h.run.host h.ctrl, streamTurn, hwant, perform_move, hw]

/-- A stream in a source, read to its last token, depends on the source's bytes only. -/
theorem Reads.congr {f g x : Nat → Byte} {T fp op w : Nat} (h : Reads f x T fp op w) (hg : ∀ j, j < op → g j = f j) :
    Reads g x T fp op w := by
  obtain ⟨-, hfp, -⟩ := h.pos
  exact h.mono (fun j _ hj _ => hg j hj) fun t _ => by rw [hg fp hfp]

/-- Settles O60: what ENCODE leaves is a stream for its input, and DECODE follows a stream to its end; an empty input's header
declares 0 bytes. -/
theorem roundTrip : Obligations.RoundTrip := by
  intro s t u v k hh hc hst hfit hn hcap hex hrun hi hhv hcv hstv hfitv hlen hsrc hroom
  obtain ⟨-, -, hu⟩ := encodeReady_run ⟨hh, hc, hst, hfit, hn, hcap⟩ hex hrun
  have hend := hu.run.ended hi
  obtain ⟨T, fp, hr⟩ := hu.ended hi
  have h17 : 17 ≤ v.srcLen.toNat := by rw [hlen]; exact hend.least
  have hhdr : ∀ k, k < 8 → v.srcByte k = (hdrBytes s.srcLen).getD k 0#8 := fun k hk =>
    (hsrc k (by have := hend.least; omega)).trans (hend.header k (by omega))
  have hacc := exec_decode_accepted hcv hfitv
  by_cases h1 : 1 ≤ s.srcLen.toNat
  · have hwhole : (State.result u).toNat ≤ v.srcLen.toNat := Nat.le_of_eq (congrArg BitVec.toNat hlen.symm)
    obtain ⟨t', hreach, hfol, -⟩ := decode_follows hfitv hhv hstv.1 h17 hhdr hroom h1 (hr.congr hsrc) hwhole (Nat.le_refl _)
    obtain ⟨m', hm'⟩ := hreach.tail hfol.ends
    exact ⟨_, m', _, hacc, hm', rfl, fun _ => ⟨rfl, rfl, hfol.bytes⟩, fun h0 => absurd h1 (by rw [h0]; decide)⟩
  · have h0 : s.srcLen = 0#32 := BitVec.eq_of_toNat_eq (by rw [BitVec.toNat_ofNat]; omega)
    have hstep := step_accept_decode hhv h17 hhdr
    rw [checkHeader, if_pos h0] at hstep
    exact ⟨_, 1, _, hacc, run_succ hstep 0, rfl, fun h => absurd h h1, fun _ => ⟨rfl, rfl⟩⟩

end Sys2Proof.Machine

/-! # ENCODE forgets the past: two ENCODEs of one input in lock step (44_encoder R191, 10_state R40) -/

namespace Sys2Proof.Machine

/-! ### The same output -/

/-- Two writers with the same cursor and the same bytes below it. -/
structure SameOutput (s s' : State) : Prop where
  wr : s'.wr = s.wr
  bytes : ∀ i, i < s.wr.op.toNat → s'.dstByte i = s.dstByte i

/-- The same token added to the same output. -/
theorem SameOutput.token {s s' t t' : State} {bs : List Byte} (h : SameOutput s s') (ht : TokenAdded s t bs)
    (ht' : TokenAdded s' t' bs) (hd : ∀ k, t.dstAt k = s.dstAt k) (hd' : ∀ k, t'.dstAt k = s'.dstAt k)
    (hop : s.wr.op.toNat + bs.length + 1 < 2 ^ 32) : SameOutput t t' := by
  obtain ⟨hwr, hbytes⟩ := h
  have hin : ∀ i, i < s.wr.op.toNat + bs.length → t'.dstByte i = t.dstByte i := fun i hi => by
    by_cases hlt : i < s.wr.op.toNat
    · rw [ht.dstByte_below hd (by omega) hlt, ht'.dstByte_below hd' (by rw [hwr]; omega) (by rwa [hwr]), hbytes i hlt]
    · obtain ⟨j, rfl⟩ := Nat.exists_eq_add_of_le (Nat.le_of_not_lt hlt)
      have hj : j < bs.length := by omega
      have hb' := ht'.bytes j hj
      rw [hwr] at hb'
      exact Option.some.inj (hb'.trans (ht.bytes j hj).symm)
  have hfull' := ht'.full
  have hnotFull' := ht'.notFull
  rw [hwr] at hfull' hnotFull'
  by_cases hf : s.wr.mask >>> 1 = 0#8
  · obtain ⟨hw, hz⟩ := ht.full hf
    obtain ⟨hw', hz'⟩ := hfull' hf
    refine ⟨hw'.trans hw.symm, fun i hi => ?_⟩
    rw [hw, show (s.wr.op + BitVec.ofNat 32 (bs.length + 1)).toNat = _ from offset_toNat _ hop] at hi
    by_cases hlt : i < s.wr.op.toNat + bs.length
    · exact hin i hlt
    · obtain rfl : i = s.wr.op.toNat + bs.length := by omega
      exact hz'.trans hz.symm
  · have hw := ht.notFull hf
    refine ⟨(hnotFull' hf).trans hw.symm, fun i hi => hin i ?_⟩
    rwa [hw, show (s.wr.op + BitVec.ofNat 32 bs.length).toNat = _ from offset_toNat _ (by omega)] at hi

theorem SameOutput.markLiteral {s s' : State} (h : SameOutput s s') (hm : Memory.wf s.mem) (hm' : Memory.wf s'.mem) :
    SameOutput (markLiteral s) (markLiteral s') := by
  obtain ⟨hwr, hbytes⟩ := h
  refine ⟨by simp only [Machine.markLiteral, hwr], fun i hi => ?_⟩
  have hi : i < s.wr.op.toNat := hi
  by_cases hfp : i = s.wr.fp.toNat
  · have h1 := markLiteral_dstByte_fp hm
    have h2 := markLiteral_dstByte_fp hm'
    rw [hwr] at h2
    rw [hfp, h1, h2]
  · rw [markLiteral_dstByte_ne hi hfp, markLiteral_dstByte_ne (by rwa [hwr]) (by rwa [hwr]), hbytes i hi]

/-! ### Two ENCODEs of one input -/

/-- Two ENCODEs of the input `x` with `e` bytes of it in tokens, and the same output. -/
structure Twins (x : Nat → Byte) (s s' : State) (e : Nat) : Prop where
  fst : Emitting x s e
  snd : Emitting x s' e
  len : s'.srcLen = s.srcLen
  out : SameOutput s s'

theorem Twins.emit {x : Nat → Byte} {s s' t t' : State} {e e' : Nat} (h : Twins x s s' e) (ht : Emitted s t e')
    (ht' : Emitted s' t' e') (he : e' ≤ s.srcLen.toNat) (hout : SameOutput t t') : Twins x t t' e' where
  fst := h.fst.emit ht he
  snd := h.snd.emit ht' (by rwa [h.len])
  len := by
    obtain ⟨-, hlen, -⟩ := ht.sameParams
    obtain ⟨-, hlen', -⟩ := ht'.sameParams
    rw [hlen, hlen', h.len]
  out := hout

section twins

variable {x : Nat → Byte} {s s' : State} {e : Nat} (h : Twins x s s' e)
include h

theorem Twins.literal (he : e + 1 ≤ s.srcLen.toNat) (b : Byte) : Twins x (emitLiteral s b) (emitLiteral s' b) (e + 1) := by
  have hop := h.fst.op_lt (by omega)
  have hop' := h.snd.op_lt (by rw [h.len]; omega)
  refine h.emit (h.fst.literal he b) (h.snd.literal (by rwa [h.len]) b) he ?_
  exact (h.out.markLiteral h.fst.wf h.snd.wf).token (emitLiteral_added h.fst.wf (by omega) b)
    (emitLiteral_added h.snd.wf (by omega) b) (emitLiteral_dstAt s b) (emitLiteral_dstAt s' b)
    (show s.wr.op.toNat + 1 + 1 < 2 ^ 32 by omega)

theorem Twins.matchToken {len : Nat} (h3 : 3 ≤ len) (he : e + len ≤ s.srcLen.toNat) (dist : Nat) :
    Twins x (emitMatchToken s len dist) (emitMatchToken s' len dist) (e + len) := by
  have hop := h.fst.op_lt (by omega)
  have hop' := h.snd.op_lt (by rw [h.len]; omega)
  have hlen := encode_matchInstr_length len dist
  refine h.emit (h.fst.matchToken h3 he dist) (h.snd.matchToken h3 (by rwa [h.len]) dist) he ?_
  exact h.out.token (advanceMask_putToken_added h.fst.wf (by omega)) (advanceMask_putToken_added h.snd.wf (by omega))
    (emitMatchToken_dstAt s len dist) (emitMatchToken_dstAt s' len dist) (by omega)

theorem Twins.literals {k : Nat} (he : e + k ≤ s.srcLen.toNat) : Twins x (emitLiterals s e k) (emitLiterals s' e k) (e + k) := by
  induction k generalizing s s' e with
  | zero => exact h
  | succ k ih =>
    have hb : s'.srcByte e = s.srcByte e := (h.snd.src e (by rw [h.len]; omega)).trans (h.fst.src e (by omega)).symm
    obtain ⟨-, hlen, -⟩ := (h.fst.literal (by omega) (s.srcByte e)).sameParams
    rw [emitLiterals, emitLiterals, hb, show e + (k + 1) = e + 1 + k by omega]
    exact ih (h.literal (by omega) _) (by rw [hlen]; omega)

theorem Twins.tokens {l : List Nat} (hl : ∀ c ∈ l, 3 ≤ c ∧ c ≤ 273) (he : e + l.sum ≤ s.srcLen.toNat) (dist : Nat) :
    Twins x (emitTokens s dist l) (emitTokens s' dist l) (e + l.sum) := by
  induction l generalizing s s' e with
  | nil => exact h
  | cons c l ih =>
    obtain ⟨hc3, -⟩ := hl c (List.mem_cons_self ..)
    rw [List.sum_cons] at he ⊢
    obtain ⟨-, hlen, -⟩ := (h.fst.matchToken hc3 (by omega) dist).sameParams
    rw [← Nat.add_assoc]
    exact ih (h.matchToken hc3 (by omega) dist) (fun c' hc' => hl c' (List.mem_cons_of_mem _ hc')) (by rw [hlen]; omega)

theorem Twins.wholeMatch {len : Nat} (h3 : 3 ≤ len) (he : e + len ≤ s.srcLen.toNat) (dist : Nat) :
    Twins x (emitMatch s len dist) (emitMatch s' len dist) (e + len) := by
  obtain ⟨hsum, hc⟩ := chunks_spec h3 (Nat.le_refl len)
  have := h.tokens hc (by omega) dist
  rwa [hsum] at this

/-- Twins read the same source bytes. -/
theorem Twins.srcByte {i : Nat} (hi : i < s.srcLen.toNat) : s'.srcByte i = s.srcByte i :=
  (h.snd.src i (by rwa [h.len])).trans (h.fst.src i hi).symm

end twins

/-! ### The moves of two ENCODEs in lock step -/

/-- The search stands the same: the registers it reads, and the table (44_encoder R183, R184). -/
structure SameSearch (s s' : State) : Prop where
  phase : s'.phase = s.phase
  n : s'.enc.n = s.enc.n
  ip : s'.enc.ip = s.enc.ip
  anchor : s'.enc.anchor = s.enc.anchor
  ref : s.phase = .accepted → s'.enc.ref = s.enc.ref
  ht : s'.ht = s.ht

/-- Initialisation sets all that the search and the writer read, from `n` (44_encoder R182). -/
theorem initEncode_same {s s' : State} (hn : s'.enc.n = s.enc.n) (hm : Memory.wf s.mem) (hm' : Memory.wf s'.mem) :
    SameSearch (initEncode s) (initEncode s') ∧ SameOutput (initEncode s) (initEncode s') := by
  obtain ⟨hhdr, hflag⟩ := initEncode_bytes hm
  obtain ⟨hhdr', hflag'⟩ := initEncode_bytes hm'
  have hw : (initEncode s).wr = ⟨17#32, 16#32, firstMask, 0#8⟩ := by rw [initEncode_frame]
  have hw' : (initEncode s').wr = ⟨17#32, 16#32, firstMask, 0#8⟩ := by rw [initEncode_frame]
  refine ⟨?_, hw'.trans hw.symm, fun i hi => ?_⟩
  · rw [initEncode_frame s, initEncode_frame s']
    exact ⟨rfl, hn, rfl, rfl, nofun, rfl⟩
  · rw [hw] at hi
    have hi : i < 17 := hi
    by_cases h16 : i = 16
    · rw [h16, hflag, hflag']
    · rw [hhdr i (by omega), hhdr' i (by omega), hn]

/-- What two positions have in common depends on the bytes compared only (41_primitives R134). -/
theorem commonPrefix_congr {s s' : State} {a b fuel : Nat} (ha : ∀ i, i < fuel → s'.srcByte (a + i) = s.srcByte (a + i))
    (hb : ∀ i, i < fuel → s'.srcByte (b + i) = s.srcByte (b + i)) : commonPrefix s' a b fuel = commonPrefix s a b fuel := by
  induction fuel generalizing a b with
  | zero => rfl
  | succ f ih =>
    have ha0 := ha 0 (Nat.succ_pos f)
    have hb0 := hb 0 (Nat.succ_pos f)
    rw [Nat.add_zero] at ha0 hb0
    rw [commonPrefix, commonPrefix, ha0, hb0, ih (fun i hi => ?_) fun i hi => ?_]
    · rw [Nat.add_assoc, Nat.add_comm 1]; exact ha (i + 1) (Nat.succ_lt_succ hi)
    · rw [Nat.add_assoc, Nat.add_comm 1]; exact hb (i + 1) (Nat.succ_lt_succ hi)

section moves

variable {x : Nat → Byte} {s s' : State} {e : Nat} (h : Twins x s s' e) (hs : SameSearch s s') (hn : s.enc.n = s.srcLen)
include h hs hn

theorem probe_same (hmay : mayProbe s = true) : SameSearch (probe s) (probe s') ∧ SameOutput (probe s) (probe s') := by
  have hlt := (mayProbe_iff s).mp hmay
  rw [hn] at hlt
  have hsrc : ∀ i, i < s.enc.ip.toNat + 3 → s'.srcByte i = s.srcByte i := fun i hi => h.srcByte (by omega)
  have hhash : hashAt s' s'.enc.ip.toNat = hashAt s s.enc.ip.toNat := by
    rw [hs.ip]
    exact hashAt_congr fun i hi => hsrc _ (by omega)
  have hcand : candidate s' = candidate s := by
    rw [candidate, hhash, State.htGet, hs.ht, candidate, State.htGet]
  have hacc : accepts s' (candidate s').toNat s'.enc.ip.toNat = accepts s (candidate s).toNat s.enc.ip.toNat := by
    rw [hcand, hs.ip]
    exact accepts_congr hsrc
  have hmove : (probe s').phase = (probe s).phase ∧ (probe s').enc.ip = (probe s).enc.ip := by
    by_cases ha : accepts s (candidate s).toNat s.enc.ip.toNat = true
    · obtain ⟨hp, hip⟩ := probe_of_accepts ha
      obtain ⟨hp', hip'⟩ := probe_of_accepts (hacc.trans ha)
      exact ⟨hp'.trans hp.symm, by rw [hip, hip', hs.ip]⟩
    · obtain ⟨hp, hip⟩ := probe_of_not_accepts ha
      obtain ⟨hp', hip'⟩ := probe_of_not_accepts (by rwa [hacc])
      exact ⟨by rw [hp, hp', hs.phase], by rw [hip, hip', hs.ip]⟩
  refine ⟨⟨hmove.1, ?_, hmove.2, ?_, fun _ => ?_, ?_⟩, ?_⟩
  · rw [probe_n, probe_n, hs.n]
  · rw [probe_anchor, probe_anchor, hs.anchor]
  · rw [probe_enc s, probe_enc s', hcand]
  · rw [probe_ht, probe_ht, hhash, hs.ht, hs.ip]
  · rw [probe_frame s, probe_frame s']
    exact ⟨h.out.wr, h.out.bytes⟩

/-- Without a probe left either flushes its tail. -/
theorem tailFlush_same (he : e = s.enc.anchor.toNat) (han : s.enc.anchor.toNat ≤ s.enc.n.toNat) :
    SameSearch (tailFlush s) (tailFlush s') ∧ SameOutput (tailFlush s) (tailFlush s') := by
  subst he
  obtain ⟨-, -, -, hout⟩ := h.literals (k := s.enc.n.toNat - s.enc.anchor.toNat) (by rw [← hn]; omega)
  refine ⟨?_, ?_⟩
  · rw [tailFlush_frame s, tailFlush_frame s']
    exact ⟨rfl, hs.n, hs.ip, hs.anchor, nofun, hs.ht⟩
  · rw [tailFlush, tailFlush, hs.anchor, hs.n]
    exact ⟨hout.wr, hout.bytes⟩

theorem matchLength_same (ha : s.phase = .accepted) (hmay : mayProbe s = true) (href : s.enc.ref.toNat < s.enc.ip.toNat) :
    matchLength s' = matchLength s := by
  have hlt := (mayProbe_iff s).mp hmay
  rw [hn] at hlt
  rw [matchLength, matchLength, hs.ref ha, hs.ip, hs.n, hn, Config.boundTail, comparePrefix, comparePrefix,
    commonPrefix_congr (fun i hi => h.srcByte (by omega)) fun i hi => h.srcByte (by omega)]

/-- Both put out the same tokens, and insert the same two positions (44_encoder R184). -/
theorem matchStep_same (ha : s.phase = .accepted) (he : e = s.enc.anchor.toNat) (hai : s.enc.anchor.toNat ≤ s.enc.ip.toNat)
    (hmay : mayProbe s = true) (href : s.enc.ref.toNat < s.enc.ip.toNat) :
    SameSearch (matchStep s) (matchStep s') ∧ SameOutput (matchStep s) (matchStep s') := by
  subst he
  have hml := matchLength_same h hs hn ha hmay href
  obtain ⟨h3, hend⟩ := matchLength_bounds hmay
  have hlt := (mayProbe_iff s).mp hmay
  rw [hn] at hend hlt
  have hmend : matchEnd s' = matchEnd s := by rw [matchEnd, matchEnd, hml, hs.ip]
  have hip : s.enc.anchor.toNat + (s.enc.ip.toNat - s.enc.anchor.toNat) = s.enc.ip.toNat := by omega
  have hlit := h.literals (k := s.enc.ip.toNat - s.enc.anchor.toNat) (by omega)
  obtain ⟨-, hlen, -⟩ := (h.fst.literals (k := s.enc.ip.toNat - s.enc.anchor.toNat) (by omega) s.enc.anchor.toNat).sameParams
  have hfit : (matchEmitted s).srcLen = s.srcLen := by rw [matchEmitted_frame]
  rw [hip] at hlit
  have hem : Twins x (matchEmitted s) (matchEmitted s') (matchEnd s) := by
    rw [matchEmitted, matchEmitted, hml, hs.anchor, hs.ip, hs.ref ha]
    exact hlit.wholeMatch h3 (by rw [hlen]; omega) _
  have hhash : ∀ q, q ≤ matchEnd s + 1 → hashAt (matchPassed s') q = hashAt (matchPassed s) q := fun q hq =>
    hashAt_congr fun i hi => hem.srcByte (by rw [hfit]; unfold matchEnd at hq; omega)
  refine ⟨?_, ?_⟩
  · have hht : (matchStep s').ht = (matchStep s).ht := by
      rw [matchStep_eq_insertPair, matchStep_eq_insertPair, hmend, insertPair_ht, insertPair_ht, hhash _ (Nat.le_succ _),
        hhash _ (Nat.le_refl _), matchPassed_ht, matchPassed_ht, hs.ht]
    rw [matchStep_frame s, matchStep_frame s', hht, matchPassed, matchPassed, hmend]
    exact ⟨rfl, hs.n, rfl, rfl, nofun, rfl⟩
  · rw [matchStep_frame s, matchStep_frame s']
    exact ⟨hem.out.wr, hem.out.bytes⟩

end moves

/-- Each move of ENCODE but the last keeps two ENCODEs of one input in lock step. -/
theorem encodeMove_same {x : Nat → Byte} {s s' : State} (hok : EncodeOk s) (hc : s.ctrl = .busy .encode) (hph : s'.phase = s.phase)
    (hn : s'.enc.n = s.enc.n) (hm : Memory.wf s.mem) (hm' : Memory.wf s'.mem) (hf : s.phase ≠ .flushed)
    (h : s.phase ≠ .begin → Twins x s s' (emitted s) ∧ SameSearch s s') :
    SameSearch (encodeMove s) (encodeMove s') ∧ SameOutput (encodeMove s) (encodeMove s') := by
  obtain ⟨hsrc, hph', hrun, hacc⟩ := hok hc
  by_cases hb : s.phase = .begin
  · rw [encodeMove_begin hb, encodeMove_begin (hph.trans hb)]
    exact initEncode_same hn hm hm'
  obtain ⟨ht, hs⟩ := h hb
  have he : emitted s = s.enc.anchor.toNat := if_neg hf
  obtain ⟨-, -, hai, han, -⟩ := hrun hb
  cases hp : s.phase with
  | begin => exact absurd hp hb
  | tokens => exact absurd hp hph'
  | search =>
    have hmay : mayProbe s' = mayProbe s := by rw [mayProbe, hs.ip, hs.n, mayProbe]
    rw [encodeMove_search hp, encodeMove_search (hph.trans hp), hmay]
    split
    next hmay => exact probe_same ht hs hsrc hmay
    next => exact tailFlush_same ht hs hsrc he han
  | accepted =>
    obtain ⟨hmay, hok'⟩ := hacc hp
    rw [encodeMove_accepted hp, encodeMove_accepted (hph.trans hp)]
    exact matchStep_same ht hs hsrc hp he hai hmay (accepts_iff.mp hok').1
  | flushed => exact absurd hp hf

/-! ### Two runs in lock step -/

/-- ENCODEs that were started at `s` and `s'`, on the same input, have come to `t` and `t'` in as many steps. -/
structure Lockstep (s s' t t' : State) : Prop where
  fst : EncodeRun s t
  snd : EncodeRun s' t'
  ctrl : t'.ctrl = t.ctrl
  phase : t'.phase = t.phase
  running : t.ctrl ≠ .idle → t.phase ≠ .begin → SameSearch t t' ∧ SameOutput t t'
  ended : t.ctrl = .idle → t'.result = t.result ∧ ∀ i, i < t.result.toNat → t'.dstByte i = t.dstByte i

theorem Lockstep.accept {s s' : State} (h : EncodeReady s) (h' : EncodeReady s') :
    Lockstep s s' (s.accept .encode) (s'.accept .encode) := by
  obtain ⟨hh, -, ⟨hm, -⟩, -⟩ := h
  obtain ⟨hh', -, ⟨hm', -⟩, -⟩ := h'
  exact ⟨.accept hh hm, .accept hh' hm', rfl, rfl, fun _ hb => absurd rfl hb, nofun⟩

section lockstep

variable {s s' : State} (hchk : startCheck .encode s = none) (hchk' : startCheck .encode s' = none)
  (hlen : s'.srcLen = s.srcLen) (hsrc : ∀ i, i < s.srcLen.toNat → s'.srcByte i = s.srcByte i)
include hchk hchk' hlen hsrc

/-- Both put out tokens of the one input. -/
theorem Lockstep.twins {t t' : State} (h : Lockstep s s' t t') (hc : t.ctrl = .busy .encode) (hb : t.phase ≠ .begin) :
    Twins s.srcByte t t' (emitted t) := by
  obtain ⟨hsearch, hout⟩ := h.running (by rw [hc]; nofun) hb
  obtain ⟨-, hlen1, -⟩ := h.fst.params
  obtain ⟨-, hlen2, -⟩ := h.snd.params
  have he : emitted t' = emitted t := by rw [emitted, emitted, h.phase, hsearch.n, hsearch.anchor]
  obtain ⟨hok, hin, hwf, hw⟩ := h.snd.emitting hchk' (h.ctrl.trans hc) (by rwa [h.phase])
  rw [he] at hw
  exact ⟨h.fst.emitting hchk hc hb,
    ⟨hok, fun i hi => (hin i hi).trans (hsrc i (by rwa [hlen2, hlen] at hi)), hwf, hw⟩, by rw [hlen1, hlen2, hlen], hout⟩

/-- Each step, and each of the idle blocks after the last, keeps two runs in lock step. -/
theorem Lockstep.step {t t' : State} (h : Lockstep s s' t t') :
    ∃ u u', Machine.step t = .next u ∧ Machine.step t' = .next u' ∧ Lockstep s s' u u' := by
  by_cases hc : t.ctrl = .idle
  · exact ⟨t, t', step_idle h.fst.host hc, step_idle h.snd.host (h.ctrl.trans hc), h⟩
  obtain ⟨hbusy, hok, -⟩ := h.fst.running hc
  have hbusy' := h.ctrl.trans hbusy
  obtain ⟨hstep, hrun⟩ := h.fst.move hchk hc
  obtain ⟨hstep', hrun'⟩ := h.snd.move hchk' (by rw [hbusy']; nofun)
  refine ⟨_, _, hstep, hstep', ?_⟩
  by_cases hf : t.phase = .flushed
  · obtain ⟨-, hout⟩ := h.running hc (by simp [hf])
    rw [encodeMove_flushed hf] at hrun ⊢
    rw [encodeMove_flushed (h.phase.trans hf)] at hrun' ⊢
    exact ⟨hrun, hrun', rfl, rfl, fun hne => absurd rfl hne, fun _ => ⟨congrArg WriterRegs.op hout.wr, hout.bytes⟩⟩
  · have hf' : t'.phase ≠ .flushed := by rwa [h.phase]
    have hcu := (encodeMove_continues hf).ctrl
    have hcu' := (encodeMove_continues hf').ctrl
    have hn : t'.enc.n = t.enc.n := by
      obtain ⟨-, hok', -⟩ := h.snd.running (by rw [hbusy']; nofun)
      obtain ⟨-, hlen1, -⟩ := h.fst.params
      obtain ⟨-, hlen2, -⟩ := h.snd.params
      rw [(hok hbusy).1, (hok' hbusy').1, hlen1, hlen2, hlen]
    obtain ⟨hsearch, hout⟩ := encodeMove_same hok hbusy h.phase hn h.fst.wf h.snd.wf hf fun hb =>
      ⟨h.twins hchk hchk' hlen hsrc hbusy hb, (h.running hc hb).1⟩
    refine ⟨hrun, hrun', by rw [hcu, hcu', h.ctrl], hsearch.phase, fun _ _ => ⟨hsearch, hout⟩, fun hi => ?_⟩
    rw [hcu, hbusy] at hi
    cases hi

/-- Two runs of the same number of steps stay in lock step. -/
theorem Lockstep.run {t t' u u' : State} (h : Lockstep s s' t t') {k : Nat} (hrun : Host.Core.run core k t = .next u)
    (hrun' : Host.Core.run core k t' = .next u') : Lockstep s s' u u' := by
  induction k generalizing t t' with
  | zero => cases hrun; cases hrun'; exact h
  | succ k ih =>
    obtain ⟨v, v', hv, hv', hnext⟩ := h.step hchk hchk' hlen hsrc
    exact ih hnext ((run_succ hv k).symm.trans hrun) ((run_succ hv' k).symm.trans hrun')

end lockstep

/-! ### Initialisation -/

theorem openGroup_mem (s : State) : (openGroup s).mem = Store.set s.mem (s.dstAt s.wr.op.toNat).toNat 0#8 := rfl

theorem State.dstPuts_mem_congr {s s' : State} (hm : s'.mem = s.mem) (hd : s'.dstAddr = s.dstAddr) (i : Nat) (bs : List Byte) :
    (s'.dstPuts i bs).mem = (s.dstPuts i bs).mem := by
  induction bs generalizing s s' i with
  | nil => exact hm
  | cons b bs ih =>
    refine ih (s := s.dstPut i b) (s' := s'.dstPut i b) ?_ hd (i + 1)
    rw [State.dstPut_mem, State.dstPut_mem, hm, State.dstAt, hd, State.dstAt]

/-- What initialisation leaves in memory depends on memory, the destination and `n` only (44_encoder R182). -/
theorem initEncode_mem_congr {s s' : State} (hm : s'.mem = s.mem) (hd : s'.dstAddr = s.dstAddr) (hn : s'.enc.n = s.enc.n) :
    (initEncode s').mem = (initEncode s).mem := by
  have hw : (headerWritten s').mem = (headerWritten s).mem := by
    rw [headerWritten, headerWritten, hn]
    exact State.dstPuts_mem_congr (s := initRegs s) (s' := initRegs s') hm hd 0 _
  rw [initEncode_openGroup, initEncode_openGroup, openGroup_mem, openGroup_mem, hw, headerWritten_op, headerWritten_op,
    headerWritten_dstAt, headerWritten_dstAt, State.dstAt, hd, State.dstAt]

/-- Settles O48: initialisation reads memory and `n`, and sets the rest; two runs of one input stay in
lock step until both are idle. -/
theorem encodeForgetsThePast : Obligations.EncodeForgetsThePast := by
  refine ⟨?initialisation, ?run⟩
  case initialisation =>
    rintro s t t' ht wr e ⟨hh, hc, hp⟩ hn hstep hstep'
    rw [step_encodeMove hh hc, encodeMove_begin hp] at hstep
    rw [step_encodeMove (s := { s with ht := ht, wr := wr, enc := e }) hh hc, encodeMove_begin (by exact hp)] at hstep'
    cases hstep
    cases hstep'
    refine ⟨initEncode_mem_congr rfl rfl hn, ?_⟩
    rw [initEncode_frame s, initEncode_frame { s with ht := ht, wr := wr, enc := e }]
    exact ⟨rfl, rfl, hn, rfl, rfl⟩
  case run =>
    intro s t u s' t' u' k k' hs hs' hlen hsrc hex hrun hi hex' hrun' hi'
    obtain ⟨hchk, rfl, hu⟩ := encodeReady_run hs hex hrun
    obtain ⟨hchk', rfl, hu'⟩ := encodeReady_run hs' hex' hrun'
    have hlong : Host.Core.run core (k + k') (s.accept .encode) = .next u := (run_add hrun k').trans (run_idle hu.run.host hi k')
    have hlong' : Host.Core.run core (k + k') (s'.accept .encode) = .next u' := by
      rw [Nat.add_comm]
      exact (run_add hrun' k).trans (run_idle hu'.run.host hi' k)
    exact ((Lockstep.accept hs hs').run hchk hchk' hlen hsrc hlong hlong').ended hi

end Sys2Proof.Machine

/-! # DECODE: its header check, and what each item of its stream does (45_decoder R202 to R210) -/

namespace Sys2Proof.Machine

/-! ### Errors, and what the running command wants next -/

/-- An error leaves parameters, memory and the host's data as they are (60_exceptions R243). -/
theorem raise_errorTaken (s : State) (c : Cause) : ErrorTaken s (s.raise c) (statusError c) :=
  ⟨rfl, rfl, rfl, ⟨rfl, rfl, rfl, rfl⟩, rfl, rfl, rfl, rfl⟩

section wants

variable {s : State}

theorem want_begin (hd : s.ctrl = .busy .decode) (hp : s.phase = .begin) : want s = .header := by
  simp only [want, hd, hp, ↓reduceIte]

theorem want_peekSize (hc : s.ctrl = .busy .peekSize) : want s = .header := by
  simp only [want, hc]

theorem want_loop (hd : s.ctrl = .busy .decode) (hp : s.phase ≠ .begin) : want s = wantToken s.dec := by
  simp only [want, hd, hp, ↓reduceIte]

/-- While bytes are left to write, an empty flag register asks for a flag byte (45_decoder R204). -/
theorem want_of_inLoop (h : InLoop s) (hb : s.dec.bits = 0#4) : want s = .flag := by
  obtain ⟨hd, hp, hne⟩ := h
  rw [want_loop hd hp, wantToken, if_neg hne, if_pos hb]

/-- A flag bit 1 announces a literal (45_decoder R205). -/
theorem want_of_atLiteral (h : AtLiteral s) : want s = .literal := by
  obtain ⟨⟨hd, hp, hne⟩, hb, hflag⟩ := h
  rw [want_loop hd hp, wantToken, if_neg hne, if_neg hb, flagIsLiteral, if_pos hflag]

/-- A flag bit 0 announces a match (45_decoder R205). -/
theorem want_of_atMatch (h : AtMatch s) : want s = .matchCode := by
  obtain ⟨⟨hd, hp, hne⟩, hb, hflag⟩ := h
  rw [want_loop hd hp, wantToken, if_neg hne, if_neg hb, flagIsLiteral, hflag]
  rfl

end wants

/-! ### The step runs the item that its bytes decode to -/

section fetch

variable {s : State} {i : Instr}

/-- A DECODE or PEEK_SIZE that wants a header and is left alone fetches it (45_decoder R202, 46_header_utilities R230). -/
theorem step_runHeader (hh : s.host = []) (hw : want s = .header) : step s = perform (runHeader s) := by
  have hturn : blockTurn s = streamTurn s := by
    rw [blockTurn]
    rcases want_header hw with hc | ⟨hc, -⟩ <;> rw [hc]
  rw [step_blockTurn hh, hturn, streamTurn, hw]

/-- The step runs the header, if the source is long enough for it (45_decoder R202, 46_header_utilities R230). -/
theorem step_header_item (hh : s.host = []) (hw : want s = .header) (hlen : headerNeed s ≤ headerHave s) {rest : List Byte}
    (hdec : decode .hdr (s.srcBytes 0 8) = .ok (i, rest)) : step s = exec i s := by
  have hdec' : decode .hdr (s.srcBytes 0 Config.peekLen) = .ok (i, rest) := hdec
  rw [step_runHeader hh hw, runHeader, if_neg (Nat.not_lt.mpr hlen), hdec', perform_run]

/-- As many bytes are fetched for a match code as its first byte says it has (30_encoding R94, 45_decoder R207). -/
theorem matchNeed_eq_length (hwf : wellFormed i = true) (hi : selectOf i = .mtch) (hl : (encode i).length ≤ streamLeft s)
    (hb : ∀ j, j < (encode i).length → some (s.srcByte (s.dec.pos.toNat + j)) = (encode i)[j]?) : matchNeed s = (encode i).length := by
  obtain ⟨h2, b, hb0, hlen⟩ := matchLen_encode hwf hi
  have hfirst : s.srcByte s.dec.pos.toNat = b := Option.some.inj ((hb 0 (by omega)).trans hb0)
  rw [matchNeed, if_neg (by omega), hfirst, hlen]

/-- The step runs the token's item that the stream holds at the cursor (45_decoder R204, R206, R207). -/
theorem step_token_item (hh : s.host = []) (hd : s.ctrl = .busy .decode)
    (hi : selectOf i = .flag ∨ selectOf i = .lit ∨ selectOf i = .mtch) (hw : want s = wantedFor (selectOf i))
    (hwf : wellFormed i = true) (hl : (encode i).length ≤ streamLeft s)
    (hb : ∀ j, j < (encode i).length → some (s.srcByte (s.dec.pos.toNat + j)) = (encode i)[j]?) : step s = exec i s := by
  have hrun (c : Cause) : runItem s (selectOf i) (encode i).length c = .run i s := runItem_encode hwf hl hb
  rw [step_streamTurn hh hd, streamTurn, hw]
  cases i with
  | flag f => exact congrArg perform (hrun _)
  | lit b => exact congrArg perform (hrun _)
  | sm l d =>
    rw [← matchNeed_eq_length hwf rfl hl hb] at hrun
    exact congrArg perform (hrun _)
  | lm d n =>
    rw [← matchNeed_eq_length hwf rfl hl hb] at hrun
    exact congrArg perform (hrun _)
  | _ => rcases hi with hi | hi | hi <;> cases hi

/-- An item of one byte, which the stream holds at the cursor. -/
theorem step_byte_item (hh : s.host = []) (hd : s.ctrl = .busy .decode) (hpos : s.dec.pos.toNat < s.dec.n.toNat)
    (hi : selectOf i = .flag ∨ selectOf i = .lit) (hw : want s = wantedFor (selectOf i)) (hwf : wellFormed i = true)
    (he : encode i = [s.srcByte s.dec.pos.toNat]) : step s = exec i s := by
  refine step_token_item hh hd (hi.imp_right .inl) hw hwf ?_ fun j hj => ?_
  · rw [he]
    exact Nat.sub_pos_of_lt hpos
  · rw [he] at hj ⊢
    obtain rfl : j = 0 := Nat.lt_one_iff.mp hj
    rfl

end fetch

/-- Settles O10: a header by `step_header_item`, a flag byte and a literal by `step_byte_item`; bytes that decode as a match code are its
encoding, and are run by `step_token_item`. -/
theorem streamItemRuns : Obligations.StreamItemRuns := by
  intro s hh
  refine ⟨fun size hd hp h16 hdec => ?header, fun size hc h8 hdec => ?peek, fun h hb hpos => ?flag, fun h hpos => ?literal,
    fun i h hlen hdec => ?matchCode⟩
  case header =>
    exact step_header_item hh (want_begin hd hp) (Nat.not_lt.mp (header_fits hd h16)) hdec
  case peek =>
    have hlen : headerNeed s ≤ headerHave s := by
      rw [headerNeed, headerHave, if_pos hc, if_pos hc]
      exact h8
    exact step_header_item hh (want_peekSize hc) hlen hdec
  case flag => exact step_byte_item (i := .flag _) hh h.1 hpos (.inl rfl) (want_of_inLoop h hb) rfl rfl
  case literal => exact step_byte_item (i := .lit _) hh h.1.1 hpos (.inr rfl) (want_of_atLiteral h) rfl rfl
  case matchCode =>
    obtain ⟨hwf, hbytes⟩ := encodeOfDecodedMatch _ _ _ hdec
    rw [List.append_nil] at hbytes
    have hsel := decode_select hdec
    refine step_token_item hh h.1.1 (.inr (.inr hsel)) (hsel ▸ want_of_atMatch h) hwf (Nat.le_sub_of_add_le' hlen) fun j hj => ?_
    rw [← srcBytes_getElem? s _ _ j hj, hbytes]

/-! ### The header (45_decoder R202, R203) -/

section header

variable {s : State} (hd : s.ctrl = .busy .decode) (hp : s.phase = .begin)
include hd hp

/-- DECODE checks the size of a header that its source is long enough for (45_decoder R202). -/
theorem exec_hdr_decode (h16 : 16 ≤ s.dec.n.toNat) (size : Word) : exec (.hdr size) s = .next (checkHeader s size) := by
  have hpeek : ¬ s.ctrl = .busy .peekSize := by rw [hd]; nofun
  rw [exec, execHdr, if_neg (Decidable.not_not.mpr (want_begin hd hp)), if_neg (header_fits hd h16), if_neg hpeek]

/-- A source below sixteen bytes ends DECODE before a byte of it is read (45_decoder R202). -/
theorem step_shortInput (hh : s.host = []) (hlen : s.dec.n.toNat < 16) : step s = .next (s.raise .shortInput) := by
  have hpeek : ¬ s.ctrl = .busy .peekSize := by rw [hd]; nofun
  have hshort : headerHave s < headerNeed s := by
    rw [headerHave, headerNeed, if_neg hpeek, if_neg hpeek]
    exact hlen
  rw [step_runHeader hh (want_begin hd hp), runHeader, if_pos hshort, perform_move]

/-- A source without the magic ends DECODE (45_decoder R202). -/
theorem step_badMagic (hh : s.host = []) (h16 : 16 ≤ s.dec.n.toNat) (hmagic : ¬ SrcMagic s) :
    step s = .next (s.raise .badMagic) := by
  have hne : (s.srcBytes 0 Config.peekLen).take 4 ≠ Config.magic := by
    intro he
    injection he with h0 he
    injection he with h1 he
    injection he with h2 he
    injection he with h3
    exact hmagic ⟨h0, h1, h2, h3⟩
  have hlen : 8 ≤ (s.srcBytes 0 Config.peekLen).length := Nat.le_of_eq (State.srcBytes_length s 0 8).symm
  rw [step_runHeader hh (want_begin hd hp), runHeader, if_neg (header_fits hd h16),
    decode_hdr_badMagic hlen hne, perform_move]

/-- After the magic DECODE checks the declared size (45_decoder R202). -/
theorem step_checkHeader (hh : s.host = []) (h16 : 16 ≤ s.dec.n.toNat) (hmagic : SrcMagic s) :
    ∃ size : Word, size.toNat = srcSize s ∧ step s = .next (checkHeader s size) := by
  obtain ⟨h0, h1, h2, h3⟩ := hmagic
  have hdec : decode .hdr (s.srcBytes 0 8) = .ok (.hdr (s.srcByte 4 ++ s.srcByte 5 ++ s.srcByte 6 ++ s.srcByte 7), []) := by
    have hbytes : s.srcBytes 0 8 = Config.magic ++ [s.srcByte 4, s.srcByte 5, s.srcByte 6, s.srcByte 7] := by
      rw [Config.magic, ← h0, ← h1, ← h2, ← h3]
      rfl
    rw [hbytes]
    exact decode_hdr_magic
  obtain ⟨hrun, -⟩ := streamItemRuns s hh
  exact ⟨_, word_toNat .., (hrun _ hd hp h16 hdec).trans (exec_hdr_decode hd hp h16 _)⟩

end header

/-- Settles O34: the step of `exec_hdr_decode`, whose size passes its checks. -/
theorem headerStartsLoop : Obligations.HeaderStartsLoop := by
  intro s size hd hp h16 h0 hcap
  have h1 : 1 ≤ size.toNat := Nat.pos_of_ne_zero fun he => h0 (BitVec.eq_of_toNat_eq he)
  rw [exec_hdr_decode hd hp h16, checkHeader_starts h1 hcap]

/-- The next state of a step that takes an error. -/
theorem errorTaken_of_step {s u : State} {c : Cause} (hu : step s = .next u) (h : step s = .next (s.raise c)) :
    ErrorTaken s u (statusError c) := by
  cases hu.symm.trans h
  exact raise_errorTaken s c

/-- Settles O35: the step is the error of the first check that fails, or starts the loop with the size of source bytes 4 to 7. -/
theorem headerErrors : Obligations.HeaderErrors := by
  intro s hh hd hp hn
  obtain ⟨u, hu⟩ : ∃ u, step s = .next u := (step_blockTurn hh) ▸ blockTurn_answers s
  rw [← hn]
  refine ⟨u, hu, fun hlen => ?short, fun h16 hmagic => ?magic, fun h16 hmagic hsize => ?zero, fun h16 hmagic hsize hcap => ?large,
    fun h16 hmagic hsize hcap => ?starts⟩
  case short => exact errorTaken_of_step hu (step_shortInput hd hp hh hlen)
  case magic => exact errorTaken_of_step hu (step_badMagic hd hp hh h16 hmagic)
  all_goals obtain ⟨size, hval, hstep⟩ := step_checkHeader hd hp hh h16 hmagic
  case zero =>
    have h0 : size = 0#32 := BitVec.eq_of_toNat_eq (hval.trans hsize)
    rw [checkHeader, if_pos h0] at hstep
    exact errorTaken_of_step hu hstep
  case large =>
    have h0 : size ≠ 0#32 := by rintro rfl; exact hsize hval.symm
    rw [checkHeader, if_neg h0, if_pos (hval ▸ hcap)] at hstep
    exact errorTaken_of_step hu hstep
  case starts =>
    rw [checkHeader_starts (by omega) (by omega)] at hstep
    cases hu.symm.trans hstep
    exact ⟨rfl, hval⟩

/-! ### FLAG and LIT (45_decoder R204, R206) -/

theorem streamLeft_eq_zero {s : State} (h : s.dec.n.toNat ≤ s.dec.pos.toNat) : streamLeft s = 0 := Nat.sub_eq_zero_of_le h

theorem streamLeft_ne_zero {s : State} (h : s.dec.pos.toNat < s.dec.n.toNat) : streamLeft s ≠ 0 := Nat.sub_ne_zero_of_lt h

/-- Settles O36: the two cases of the model's FLAG, where a flag byte is wanted. -/
theorem flagFetch_effect : Obligations.FlagFetch := by
  intro s f h hb
  have hw : ¬ want s ≠ .flag := Decidable.not_not.mpr (want_of_inLoop h hb)
  rw [exec, execFlag, if_neg hw]
  exact ⟨fun hpos => if_neg (streamLeft_ne_zero hpos), fun hend => ⟨_, if_pos (streamLeft_eq_zero hend), raise_errorTaken s _⟩⟩

/-- Settles O37: the three cases of the model's LIT, where a literal is wanted; the byte written reads back, and no other changes. -/
theorem literalToken : Obligations.LiteralToken := by
  intro s b h
  have hw : ¬ want s ≠ .literal := Decidable.not_not.mpr (want_of_atLiteral h)
  rw [exec, execLit, if_neg hw]
  refine ⟨fun hm hpos hcap => ?written, fun hend => ?truncated, fun hpos hcap => ?full⟩
  case written =>
    refine ⟨_, (if_neg (streamLeft_ne_zero hpos)).trans (if_neg hcap), rfl, State.dstByte_dstPut_self hm _ b, fun a ha => ?_⟩
    exact State.memRead_dstPut_ne s b (by rw [State.dstAt_toNat]; exact ha.symm)
  case truncated => exact ⟨_, if_pos (streamLeft_eq_zero hend), raise_errorTaken s _⟩
  case full => exact ⟨_, (if_neg (streamLeft_ne_zero hpos)).trans (if_pos hcap), raise_errorTaken s _⟩

/-! ### SM and LM: the copy (45_decoder R207, R208, R219) -/

/-- The bytes copied repeat the last `dist` bytes before them (45_decoder R219). -/
theorem copyBytes_periodic {s : State} (hm : Memory.wf s.mem) {dist len : Nat} (hd : 1 ≤ dist) (hdw : dist ≤ s.dec.written.toNat)
    (hfit : s.dec.written.toNat + len < 2 ^ 32) {i : Nat} (hi : i < len) :
    (copyBytes s dist len).dstByte (s.dec.written.toNat + i) = s.dstByte (s.dec.written.toNat - dist + i % dist) := by
  induction i using Nat.strongRecOn with
  | ind i ih =>
    rw [copyBytes_repeats hm hd hdw hfit (Nat.le_add_right ..) (by omega)]
    by_cases hlt : i < dist
    · rw [copyBytes_below s dist len hfit (by omega), Nat.mod_eq_of_lt hlt, Nat.sub_add_comm hdw]
    · have hge : dist ≤ i := Nat.not_lt.mp hlt
      rw [Nat.add_sub_assoc hge, ih (i - dist) (by omega) (by omega), ← Nat.mod_eq_sub_mod hge]

section matchToken

variable {s : State} {b0 b1 b2 : Byte} {k : Nat} {dist : BitVec 13} {len : BitVec 9}

/-- A match token that passes its checks, whole: what it writes, what it leaves, and the registers after it (45_decoder R207 to R209). -/
theorem matchToken_matchCopied (hm : Memory.wf s.mem) (hl : k ≤ streamLeft s) (hd : 1 ≤ dist.toNat)
    (hdist : dist.toNat ≤ s.dec.written.toNat) (hcap : s.dec.written.toNat + len.toNat ≤ s.dec.cap.toNat)
    (hsize : s.dec.written.toNat + len.toNat ≤ s.dec.size.toNat) :
    MatchCopied s (matchToken s b0 b1 b2 k dist len) k b0 b1 b2 dist len := by
  have hfit : s.dec.written.toNat + len.toNat < 2 ^ 32 := Nat.lt_of_le_of_lt hsize s.dec.size.isLt
  rw [matchToken_copied hl hdist hcap hsize]
  refine ⟨congrArg nextFlagBit (copyBytes_frame ..), fun i hi => ?_, fun a ha => ?_⟩
  · exact copyBytes_periodic (s := readMatch s b0 b1 b2 k dist len) hm hd hdist hfit hi
  · exact copyBytes_outside (readMatch s b0 b1 b2 k dist len) _ _ hfit fun i hi => (ha i hi).symm

/-- The stream ends within the match code (45_decoder R207). -/
theorem matchToken_truncMatch (hl : streamLeft s < k) : ErrorTaken s (matchToken s b0 b1 b2 k dist len) 0xD06#32 := by
  rw [matchToken, if_pos hl]
  exact raise_errorTaken s .truncMatch

/-- An error taken once the match code is read changes no memory and no parameter (45_decoder R218). -/
theorem matchToken_errorTaken {c : Cause} (h : matchToken s b0 b1 b2 k dist len = (readMatch s b0 b1 b2 k dist len).raise c) :
    ErrorTaken s (matchToken s b0 b1 b2 k dist len) (statusError c) := by
  rw [h]
  exact raise_errorTaken (readMatch s b0 b1 b2 k dist len) c

section read

variable (hl : k ≤ streamLeft s)
include hl

/-- The match reaches back before the output's start (45_decoder R208). -/
theorem matchToken_badDistance (hdist : s.dec.written.toNat < dist.toNat) :
    ErrorTaken s (matchToken s b0 b1 b2 k dist len) 0xE06#32 :=
  matchToken_errorTaken ((if_neg (Nat.not_lt.mpr hl)).trans (if_pos hdist))

variable (hdist : dist.toNat ≤ s.dec.written.toNat)
include hdist

/-- The match passes the capacity (45_decoder R208). -/
theorem matchToken_capOverrun (hcap : s.dec.cap.toNat < s.dec.written.toNat + len.toNat) :
    ErrorTaken s (matchToken s b0 b1 b2 k dist len) 0xF06#32 :=
  matchToken_errorTaken ((if_neg (Nat.not_lt.mpr hl)).trans ((if_neg (Nat.not_lt.mpr hdist)).trans (if_pos hcap)))

/-- The match passes the declared size (45_decoder R208). -/
theorem matchToken_sizeOverrun (hcap : s.dec.written.toNat + len.toNat ≤ s.dec.cap.toNat)
    (hsize : s.dec.size.toNat < s.dec.written.toNat + len.toNat) :
    ErrorTaken s (matchToken s b0 b1 b2 k dist len) 0x1006#32 :=
  matchToken_errorTaken
    ((if_neg (Nat.not_lt.mpr hl)).trans
      ((if_neg (Nat.not_lt.mpr hdist)).trans ((if_neg (Nat.not_lt.mpr hcap)).trans (if_pos hsize))))

end read

end matchToken

/-- Settles O38: SM is a match token of two bytes, and `matchToken_matchCopied` says what it does. -/
theorem shortMatchToken : Obligations.ShortMatchToken := by
  intro s l d _ h hm hl hdist hcap hsize
  rw [← matchDistance_toNat] at hdist
  rw [← shortLength_toNat] at hcap hsize
  exact ⟨_, _, _, matchDistance d, shortLength l, if_neg (Decidable.not_not.mpr (want_of_atMatch h)), rfl, matchDistance_toNat d,
    shortLength_toNat l, matchToken_matchCopied hm (Nat.le_sub_of_add_le' hl) (matchDistance_pos d) hdist hcap hsize⟩

/-- Settles O39: LM is a match token of three bytes, and `matchToken_matchCopied` says what it does. -/
theorem longMatchToken : Obligations.LongMatchToken := by
  intro s d n h hm hl hdist hcap hsize
  rw [← matchDistance_toNat] at hdist
  rw [← longLength_toNat] at hcap hsize
  exact ⟨_, _, _, _, matchDistance d, longLength n, if_neg (Decidable.not_not.mpr (want_of_atMatch h)), rfl, matchDistance_toNat d,
    longLength_toNat n, matchToken_matchCopied hm (Nat.le_sub_of_add_le' hl) (matchDistance_pos d) hdist hcap hsize⟩

/-- Settles O40: SM and LM are match tokens of their operands by `exec_match`, and each error is that of its check. -/
theorem matchErrors : Obligations.MatchErrors := by
  intro s i len dist h _ hops
  obtain ⟨b0, b1, b2, D, L, hex, rfl, rfl⟩ := exec_match hops (want_of_atMatch h)
  have hlen : 0 < (encode i).length := by cases i <;> exact Nat.succ_pos _
  have hread (hs : ¬ s.dec.n.toNat < s.dec.pos.toNat + (encode i).length) : (encode i).length ≤ streamLeft s :=
    Nat.le_sub_of_add_le' (Nat.not_lt.mp hs)
  exact ⟨fun hs => ⟨_, hex, matchToken_truncMatch (by unfold streamLeft; omega)⟩,
    fun hs hdist => ⟨_, hex, matchToken_badDistance (hread hs) hdist⟩,
    fun hs hdist hcap => ⟨_, hex, matchToken_capOverrun (hread hs) hdist hcap⟩,
    fun hs hdist hcap hsize => ⟨_, hex, matchToken_sizeOverrun (hread hs) hdist hcap hsize⟩⟩

/-! ### The end of the loop (45_decoder R210) -/

/-- Settles O41: with the declared size written nothing more is wanted, and the step completes with `written`. -/
theorem decodeCompletes : Obligations.DecodeCompletes := by
  intro s hh hd hp hsize
  have hp' : s.phase ≠ .begin := by rw [hp]; nofun
  have hw : want s = .done := by rw [want_loop hd hp', wantToken, if_pos hsize]
  rw [step_streamTurn hh hd, streamTurn, hw, ← hsize]
  rfl

end Sys2Proof.Machine

/-! # The header utilities: PEEK_SIZE and IS_YAZ0 (46_header_utilities R230 to R235) -/

namespace Sys2Proof.Machine

section utilities

variable {s : State}

/-! ### The magic and the size in the source -/

/-- IS_YAZ0's test, in the statements' words (46_header_utilities R232). -/
theorem srcBytes_eq_magic : s.srcBytes 0 Config.magicLen = Config.magic ↔ SrcMagic s := by
  simp only [Config.magicLen, State.srcBytes, Config.magic, List.cons.injEq, and_true]

/-- The header in the source, as it is decoded: its size, or BAD_MAGIC (30_encoding R83). -/
theorem decode_hdr_source :
    decode .hdr (s.srcBytes 0 Config.peekLen) =
      if SrcMagic s then .ok (.hdr (BitVec.ofNat 32 (srcSize s)), []) else .error .badMagic := by
  have hsize : s.srcByte 4 ++ s.srcByte 5 ++ s.srcByte 6 ++ s.srcByte 7 = BitVec.ofNat 32 (srcSize s) := by
    rw [srcSize, ← word_toNat, BitVec.ofNat_toNat, BitVec.setWidth_eq]
  rw [← hsize]
  exact ite_congr (propext srcBytes_eq_magic) (fun _ => rfl) fun _ => rfl

theorem srcSize_lt (s : State) : srcSize s < 2 ^ 32 := by
  rw [srcSize, ← word_toNat]
  exact BitVec.isLt _

/-! ### Acceptance -/

/-- IS_YAZ0 has no start check but the source's (46_header_utilities R235). -/
theorem exec_isYaz0_accepted (h : s.ctrl = .idle) (hsrc : ¬ SrcWraps s) : exec .isYaz0 s = .next (s.accept .isYaz0) :=
  start_accepted h (startCheck_srcOnly nofun rfl hsrc)

/-- PEEK_SIZE has no start check but the source's (46_header_utilities R235). -/
theorem exec_peekSize_accepted (h : s.ctrl = .idle) (hsrc : ¬ SrcWraps s) : exec .peekSize s = .next (s.accept .peekSize) :=
  start_accepted h (startCheck_srcOnly nofun rfl hsrc)

/-- A command that takes no copies of the parameters, accepted and completed, has changed STATUS, RESULT and the phase only
(46_header_utilities R235). -/
theorem accept_complete (h : s.ctrl = .idle) {op : Op} (he : op ≠ .encode) (hd : op ≠ .decode) (r : Word) :
    (s.accept op).complete r = { s with phase := .begin, status := 0x2#32, result := r } := by
  rw [State.accept, if_neg he, if_neg hd, State.complete, ← h]
  rfl

/-! ### The one step after acceptance -/

/-- IS_YAZ0 completes with 1 exactly for four bytes that are the magic (46_header_utilities R232, R233). -/
theorem isYaz0Move_eq : isYaz0Move s = s.complete (if 4 ≤ s.srcLen.toNat ∧ SrcMagic s then 1#32 else 0#32) := by
  by_cases hlen : s.srcLen.toNat < Config.magicLen
  · rw [isYaz0Move, if_pos hlen, if_neg fun h => Nat.not_lt.mpr h.1 hlen]
  · have h4 : 4 ≤ s.srcLen.toNat := Nat.not_lt.mp hlen
    by_cases hm : SrcMagic s
    · rw [isYaz0Move, if_neg hlen, if_pos (srcBytes_eq_magic.mpr hm), if_pos ⟨h4, hm⟩]
    · rw [isYaz0Move, if_neg hlen, if_neg (mt srcBytes_eq_magic.mp hm), if_neg fun h => hm h.2]

/-- A running IS_YAZ0 that is left alone completes in one step (46_header_utilities R232). -/
theorem step_isYaz0 (hh : s.host = []) (hc : s.ctrl = .busy .isYaz0) :
    step s = .next (s.complete (if 4 ≤ s.srcLen.toNat ∧ SrcMagic s then 1#32 else 0#32)) := by
  rw [step_blockTurn hh, blockTurn, hc, isYaz0Move_eq]
  rfl

section peekSize

variable (hc : s.ctrl = .busy .peekSize)
include hc

/-- PEEK_SIZE needs eight bytes of source (46_header_utilities R230). -/
theorem headerShort_peekSize : headerHave s < headerNeed s ↔ s.srcLen.toNat < 8 := by
  rw [headerHave, headerNeed, if_pos hc, if_pos hc, Config.peekLen]

variable (hh : s.host = [])
include hh

/-- A source below eight bytes ends PEEK_SIZE before a byte of it is read (46_header_utilities R230). -/
theorem step_peekSize_short (hlen : s.srcLen.toNat < 8) : step s = .next (s.raise .shortInput) := by
  rw [step_runHeader hh (want_peekSize hc), runHeader, if_pos ((headerShort_peekSize hc).mpr hlen), perform_move]

variable (h8 : 8 ≤ s.srcLen.toNat)
include h8

/-- A source without the magic ends PEEK_SIZE (46_header_utilities R230). -/
theorem step_peekSize_badMagic (hm : ¬ SrcMagic s) : step s = .next (s.raise .badMagic) := by
  have hlen := mt (headerShort_peekSize hc).mp (Nat.not_lt.mpr h8)
  rw [step_runHeader hh (want_peekSize hc), runHeader, if_neg hlen, decode_hdr_source, if_neg hm]
  rfl

/-- PEEK_SIZE completes with the declared size, whatever it is (46_header_utilities R230, R231). -/
theorem step_peekSize_complete (hm : SrcMagic s) : step s = .next (s.complete (BitVec.ofNat 32 (srcSize s))) := by
  have hlen := mt (headerShort_peekSize hc).mp (Nat.not_lt.mpr h8)
  have hdec := (decode_hdr_source (s := s)).trans (if_pos hm)
  rw [step_header_item hh (want_peekSize hc) (Nat.not_lt.mp hlen) hdec, exec, execHdr,
    if_neg (Decidable.not_not.mpr (want_peekSize hc)), if_neg hlen, if_pos hc]

end peekSize

end utilities

/-! ### The answers -/

/-- Settles O31: acceptance, and the completion of `step_isYaz0`, whose RESULT is the test. -/
theorem isYaz0Answers : Obligations.IsYaz0Answers := by
  intro s hh hi hsrc
  have hstep := step_isYaz0 (s := s.accept .isYaz0) hh rfl
  rw [accept_complete hi (op := .isYaz0) nofun nofun] at hstep
  exact ⟨_, _, exec_isYaz0_accepted hi hsrc, rfl, hstep, fun h => if_pos h, fun h => if_neg h⟩

/-- Settles O32: acceptance, and PEEK_SIZE's step for each of its three ends. -/
theorem peekSizeAnswers : Obligations.PeekSizeAnswers := by
  intro s hh hi hsrc
  obtain ⟨u, hu⟩ : ∃ u, step (s.accept .peekSize) = .next u := step_blockTurn (s := s.accept .peekSize) hh ▸ blockTurn_answers _
  refine ⟨_, u, exec_peekSize_accepted hi hsrc, rfl, hu, fun h8 hm => ?size, fun hlen => ?short, fun h8 hm => ?magic⟩
  case size =>
    have hstep := step_peekSize_complete (s := s.accept .peekSize) rfl hh h8 hm
    rw [accept_complete hi (op := .peekSize) nofun nofun] at hstep
    cases hu.symm.trans hstep
    exact ⟨rfl, (BitVec.toNat_ofNat ..).trans (Nat.mod_eq_of_lt (srcSize_lt s))⟩
  case short => exact errorTaken_of_step hu (step_peekSize_short rfl hh hlen)
  case magic => exact errorTaken_of_step hu (step_peekSize_badMagic rfl hh h8 hm)

/-! ### The three magic tests (46_header_utilities R234) -/

/-- The checks after the magic have other errors than BAD_MAGIC, and otherwise STATUS stays (45_decoder R202). -/
theorem checkHeader_status_ne {s : State} (hs : s.status = statusRunning) (size : Word) : (checkHeader s size).status ≠ 0x706#32 := by
  by_cases h0 : size = 0#32
  · rw [checkHeader, if_pos h0]
    exact (by decide : statusError .zeroSize ≠ 0x706#32)
  · by_cases hcap : s.dec.cap.toNat < size.toNat
    · rw [checkHeader, if_neg h0, if_pos hcap]
      exact (by decide : statusError .sizeGtCap ≠ 0x706#32)
    · rw [checkHeader, if_neg h0, if_neg hcap]
      exact hs ▸ (by decide : statusRunning ≠ 0x706#32)

section magicTests

variable {s t u : State} (hh : s.host = []) (hi : s.ctrl = .idle) (h16 : 16 ≤ s.srcLen.toNat)
include hh hi h16

/-- IS_YAZ0 answers 1 exactly for the magic. -/
theorem isYaz0_result_iff (hsrc : ¬ SrcWraps s) (ht : exec .isYaz0 s = .next t) (hu : step t = .next u) :
    u.result = 1#32 ↔ SrcMagic s := by
  obtain ⟨t', r, ht', -, hu', hyes, hno⟩ := isYaz0Answers s hh hi hsrc
  cases ht'.symm.trans ht
  cases hu'.symm.trans hu
  by_cases hm : SrcMagic s
  · exact iff_of_true (hyes ⟨by omega, hm⟩) hm
  · have hr : r = 0#32 := hno fun h => hm h.2
    exact iff_of_false (fun h1 => absurd (hr.symm.trans h1) (by decide)) hm

/-- PEEK_SIZE's error is another than BAD_MAGIC, or none, exactly for the magic. -/
theorem peekSize_status_iff (hsrc : ¬ SrcWraps s) (ht : exec .peekSize s = .next t) (hu : step t = .next u) :
    u.status ≠ 0x706#32 ↔ SrcMagic s := by
  obtain ⟨t', u', ht', -, hu', hsize, -, hbad⟩ := peekSizeAnswers s hh hi hsrc
  cases ht'.symm.trans ht
  cases hu'.symm.trans hu
  by_cases hm : SrcMagic s
  · have hok : u.status = 0x2#32 := congrArg State.status (hsize (by omega) hm).1
    exact iff_of_true (hok ▸ by decide) hm
  · exact iff_of_false (Decidable.not_not.mpr (hbad (by omega) hm).1) hm

/-- DECODE's first step takes another error than BAD_MAGIC, or none, exactly for the magic. -/
theorem decode_status_iff (hfit : RegionsFit s) (ht : exec .decode s = .next t) (hu : step t = .next u) :
    u.status ≠ 0x706#32 ↔ SrcMagic s := by
  cases (exec_decode_accepted hi hfit).symm.trans ht
  by_cases hm : SrcMagic s
  · obtain ⟨size, -, hstep⟩ := step_checkHeader (s := s.accept .decode) rfl rfl hh h16 hm
    cases hstep.symm.trans hu
    exact iff_of_true (checkHeader_status_ne rfl size) hm
  · have herr := errorTaken_of_step hu (step_badMagic (s := s.accept .decode) rfl rfl hh h16 hm)
    exact iff_of_false (Decidable.not_not.mpr herr.1) hm

end magicTests

/-- Settles O33: each of the three answers says whether the source starts with the magic. -/
theorem magicTestsAgree : Obligations.MagicTestsAgree := by
  intro s t1 t2 t3 u1 u2 u3 hh hi hfit h16 ht1 hu1 ht2 hu2 ht3 hu3
  have ⟨hsrc, _, _⟩ := hfit
  have hyaz := isYaz0_result_iff hh hi h16 hsrc ht1 hu1
  exact ⟨hyaz.trans (peekSize_status_iff hh hi h16 hsrc ht2 hu2).symm, hyaz.trans (decode_status_iff hh hi h16 hfit ht3 hu3).symm⟩

end Sys2Proof.Machine

/-! # The errors: what taking one leaves, and why LIT_CAP is never reported (60_exceptions R240 to R243) -/

namespace Sys2Proof.Machine

/-! ### What taking an error leaves (60_exceptions R243) -/

/-- The STATUS of an error is `cause << 8 | 6` (60_exceptions R243). -/
theorem statusWord_error_eq_ofNat (cause : BitVec 5) :
    statusWord false true true cause = BitVec.ofNat 32 (cause.toNat * 256 + 6) := by
  revert cause
  decide

/-- Listing `f` at some keys, those of the unlisted value left out, gives `f` at these keys and the unlisted value at all others. -/
theorem Store.get_filterMap {w : Nat} (f : Nat → BitVec w) (keys : List Nat) (a : Nat) :
    Store.get (keys.filterMap fun k => if f k = Store.unlisted then none else some (k, f k)) a =
      if a ∈ keys then f a else Store.unlisted := by
  induction keys with
  | nil => rfl
  | cons k keys ih =>
    rw [List.filterMap_cons]
    by_cases hka : k = a
    · subst hka
      by_cases hf : f k = Store.unlisted <;> simp [hf, ih, Store.get]
    · have hak : a ≠ k := Ne.symm hka
      by_cases hf : f k = Store.unlisted <;> simp [hf, ih, Store.get, hka, hak]

/-- A store made from a function gives the function's value at every key below its bound. -/
theorem Store.get_ofFn {w n a : Nat} (f : Nat → BitVec w) (ha : a < n) : Store.get (Store.ofFn n f) a = f a := by
  rw [Store.ofFn, Store.get_filterMap, if_pos (List.mem_range.mpr ha)]

/-- Every slot of a free table is a free value (log 6). -/
theorem freeTable_get (d : Nat) {a : Nat} (ha : a < Config.htSize) : Store.get (freeTable d) a = Config.freeSlot d a := by
  unfold freeTable
  exact Store.get_ofFn _ ha

/-- Settles O30: `raise_errorTaken` with STATUS as a number, and `freeTable_get` for the slots. -/
theorem takingAnError : Obligations.TakingAnError := fun s c =>
  ⟨statusWord_error_eq_ofNat c.code ▸ raise_errorTaken s c, rfl, rfl, rfl, fun h => freeTable_get s.draws h.isLt⟩

/-! ### LIT_CAP is never reported (60_exceptions R242) -/

/-- Only LIT_CAP has LIT_CAP's STATUS (60_exceptions R240). -/
theorem statusError_ne_of_ne_litCap {c : Cause} (h : c ≠ .litCap) : statusError c ≠ 0xC06#32 := by
  revert h
  cases c <;> decide

/-- No start check fails with LIT_CAP (40_command_interface R112, 44_encoder R181). -/
theorem startCheck_ne_litCap (op : Op) (s : State) : startCheck op s ≠ some .litCap := by
  unfold startCheck encodeCheck
  split_ifs <;> nofun

/-- A literal always has room: where it is read, `written < size ≤ DST_CAP` (60_exceptions R242). -/
theorem DecodeOk.written_ne_cap {s : State} (hs : DecodeOk s) (hw : want s = .literal) : s.dec.written ≠ s.dec.cap := by
  obtain ⟨hd, hp⟩ := want_decode (s := s) (by simp [hw]) (by simp [hw])
  obtain ⟨hloop, -⟩ := hs.loop_dstCap hd hp
  have hroom : s.dec.written.toNat < s.dec.size.toNat := hloop.written_lt (want_token (.inl hw)).1
  obtain ⟨-, -, -, hcap, -⟩ := hloop
  intro he
  rw [he] at hroom
  omega

section noLitCap

variable {s t : State} (hl : s.status ≠ 0xC06#32)
include hl

/-- A move of the stream does not report LIT_CAP (60_exceptions R242). -/
theorem StreamMove.status_ne_litCap (h : StreamMove s t) (hs : DecodeOk s) : t.status ≠ 0xC06#32 := by
  cases h with
  | badHeader c hc | badSize c hc | truncated c hc =>
    exact statusError_ne_of_ne_litCap (by rintro rfl; simp at hc)
  | badMatch b0 b1 b2 k dist len c hc => exact statusError_ne_of_ne_litCap (by rintro rfl; simp at hc)
  | literalFull hd hp hw hcap => exact absurd hcap (hs.written_ne_cap hw)
  | peeked | done => exact (by decide : statusDoneOk ≠ 0xC06#32)
  | headerDone | flag | literal => exact hl
  | copied => rw [copyBytes_frame]; exact hl

/-- A move of the block does not report LIT_CAP. -/
theorem BlockMove.status_ne_litCap (h : BlockMove s t) (hs : DecodeOk s) : t.status ≠ 0xC06#32 := by
  cases h with
  | idle => exact hl
  | reserved => exact statusError_ne_of_ne_litCap (c := .illegalCmd) nofun
  | isYaz0 => exact (by decide : statusDoneOk ≠ 0xC06#32)
  | stream _ h => exact h.status_ne_litCap hl hs
  | encode =>
    by_cases hp : s.phase = .flushed
    · rw [encodeMove_flushed hp]
      exact (by decide : statusDoneOk ≠ 0xC06#32)
    · rw [(encodeMove_continues hp).status]
      exact hl

/-- The start of a command does not report LIT_CAP. -/
theorem start_status_ne_litCap (op : Op) : (start op s).status ≠ 0xC06#32 := by
  cases hc : s.ctrl with
  | busy op' => rw [start_busy hc]; exact hl
  | idle =>
    cases hchk : startCheck op s with
    | none =>
      injection start_accepted hc hchk with he
      rw [he]
      exact (by decide : statusRunning ≠ 0xC06#32)
    | some c =>
      obtain ⟨t, ht, hstatus, -⟩ := start_errorTaken hc hchk
      cases ht
      rw [hstatus]
      exact statusError_ne_of_ne_litCap (by rintro rfl; exact startCheck_ne_litCap op s hchk)

/-- No move of the block or the host reports LIT_CAP. -/
theorem StepMove.status_ne_litCap (h : StepMove s t) (hs : DecodeOk s) : t.status ≠ 0xC06#32 := by
  cases h with
  | block h => exact h.status_ne_litCap hl hs
  | command op => exact start_status_ne_litCap hl op
  | nothing | memWrite => exact hl
  | regWrite off v => rw [State.regWrite_frame]; exact hl
  | memRead a => rw [State.hostMemRead_frame]; exact hl
  | reset => exact (by decide : 0#32 ≠ 0xC06#32)

end noLitCap

/-- Settles O43: `StepMove.status_ne_litCap`, for the move that `step_cases` names. -/
theorem litCapNeverReported : Obligations.LitCapNeverReported := by
  intro s t hs hl h
  obtain ⟨q, v, hm⟩ := step_cases h
  exact hm.status_ne_litCap (s := s.withHost q v) hl hs

end Sys2Proof.Machine

/-! # Memory and the hash table stay in canonical form (20_memory section 1, 10_state section 3; logs 3 and 5) -/

namespace Sys2Proof.Machine

/-! ### Writes, the start and the end of a command -/

section operations

variable {s : State} (hs : StoresOk s)
include hs

theorem StoresOk.memWrite (a : Word) (v : Byte) : StoresOk (s.memWrite a v) := by
  obtain ⟨hm, ht⟩ := hs
  exact ⟨State.memWrite_wf hm a v, ht⟩

theorem StoresOk.dstPut (j : Nat) (v : Byte) : StoresOk (s.dstPut j v) := hs.memWrite _ v

theorem StoresOk.dstPuts (j : Nat) (bs : List Byte) : StoresOk (s.dstPuts j bs) := by
  induction bs generalizing s j with
  | nil => exact hs
  | cons b t ih => exact ih (hs.dstPut j b) (j + 1)

theorem StoresOk.htPut (h : BitVec 14) (v : BitVec 32) : StoresOk (s.htPut h v) := by
  obtain ⟨hm, ht⟩ := hs
  exact ⟨hm, htPut_wf ht h v⟩

/-- A table of free values is in canonical form too (60_exceptions R243). -/
theorem StoresOk.freeWork : StoresOk s.freeWork := by
  obtain ⟨hm, -⟩ := hs
  exact ⟨hm, freeTable_wf s.draws⟩

theorem StoresOk.raise (c : Cause) : StoresOk (s.raise c) := hs.freeWork

theorem StoresOk.start (op : Op) : StoresOk (start op s) := by
  cases hc : s.ctrl with
  | busy op' => rw [start_busy hc]; exact hs
  | idle =>
    have haccept : StoresOk (s.accept op) := hs
    rcases start_idle hc op with ⟨c, he⟩ | ⟨-, he⟩ <;> rw [he]
    · exact haccept.raise c
    · exact haccept

/-! ### ENCODE -/

theorem StoresOk.openGroup : StoresOk (openGroup s) := hs.dstPut _ _

theorem StoresOk.advanceMask : StoresOk (advanceMask s) := by
  unfold Machine.advanceMask
  split
  · exact StoresOk.openGroup (s := { s with wr := { s.wr with mask := nextMask s.wr.mask } }) hs
  · exact hs

theorem StoresOk.putToken (i : Instr) : StoresOk (putToken s i) := hs.dstPuts _ _

theorem StoresOk.emitLiteral (b : Byte) : StoresOk (emitLiteral s b) := by
  have hmark : StoresOk (markLiteral s) := hs.dstPut _ _
  exact (hmark.putToken _).advanceMask

theorem StoresOk.emitLiterals (src count : Nat) : StoresOk (emitLiterals s src count) := by
  induction count generalizing s src with
  | zero => exact hs
  | succ k ih => exact ih (hs.emitLiteral _) (src + 1)

theorem StoresOk.emitTokens (dist : Nat) (l : List Nat) : StoresOk (emitTokens s dist l) := by
  induction l generalizing s with
  | nil => exact hs
  | cons len t ih => exact ih (hs.putToken (matchInstr len dist)).advanceMask

theorem StoresOk.insertPair (p : Nat) : StoresOk (insertPair s p) := (hs.htPut _ _).htPut _ _

theorem StoresOk.initEncode : StoresOk (initEncode s) := by
  obtain ⟨hm, -⟩ := hs
  have hregs : StoresOk (initRegs s) := ⟨hm, Store.nil_wf _⟩
  exact (hregs.dstPuts 0 (hdrBytes s.enc.n)).openGroup

theorem StoresOk.probe : StoresOk (probe s) := by
  obtain ⟨hm, ht⟩ := hs
  rw [probe_frame]
  exact ⟨hm, probe_ht_wf ht⟩

theorem StoresOk.matchStep : StoresOk (matchStep s) := by
  have htokens := (hs.emitLiterals s.enc.anchor.toNat (s.enc.ip.toNat - s.enc.anchor.toNat)).emitTokens
    (s.enc.ip.toNat - s.enc.ref.toNat) (chunks (matchLength s) (matchLength s))
  unfold Machine.matchStep
  exact StoresOk.insertPair htokens _

theorem StoresOk.encodeMove : StoresOk (encodeMove s) := by
  cases h : s.phase with
  | begin => rw [encodeMove_begin h]; exact hs.initEncode
  | tokens => rw [encodeMove_tokens h]; exact hs.initEncode
  | search =>
    rw [encodeMove_search h]
    split
    · exact hs.probe
    · exact hs.emitLiterals _ _
  | accepted => rw [encodeMove_accepted h]; exact hs.matchStep
  | flushed => rw [encodeMove_flushed h]; exact hs

/-! ### DECODE, and the reset input -/

theorem StoresOk.copyBytes (dist len : Nat) : StoresOk (copyBytes s dist len) := by
  obtain ⟨hm, ht⟩ := hs
  rw [copyBytes_frame]
  exact ⟨copyBytes_wf hm dist len, ht⟩

theorem StoresOk.resetInput : StoresOk s.resetInput := by
  obtain ⟨hm, -⟩ := hs
  exact ⟨State.abortDst_wf hm, freeTable_wf _⟩

end operations

/-! ### The step -/

theorem StreamMove.storesOk {s t : State} (h : StreamMove s t) (hs : StoresOk s) : StoresOk t := by
  cases h with
  | badHeader c | badSize c | truncated c => exact hs.raise c
  | literalFull => exact hs.raise .litCap
  | badMatch b0 b1 b2 k dist len c => exact StoresOk.raise (s := readMatch s b0 b1 b2 k dist len) hs c
  | peeked | headerDone | flag | done => exact hs
  | literal b => exact hs.dstPut _ b
  | copied b0 b1 b2 k dist len => exact StoresOk.copyBytes (s := readMatch s b0 b1 b2 k dist len) hs _ _

theorem BlockMove.storesOk {s t : State} (h : BlockMove s t) (hs : StoresOk s) : StoresOk t := by
  cases h with
  | idle | isYaz0 => exact hs
  | reserved => exact hs.raise .illegalCmd
  | encode => exact hs.encodeMove
  | stream _ h => exact h.storesOk hs

theorem StepMove.storesOk {s t : State} (h : StepMove s t) (hs : StoresOk s) : StoresOk t := by
  cases h with
  | block h => exact h.storesOk hs
  | command op => exact hs.start op
  | nothing => exact hs
  | regWrite off v => rw [State.regWrite_frame]; exact hs
  | memWrite a b => exact hs.memWrite a b
  | memRead a => rw [State.hostMemRead_frame]; exact hs
  | reset => exact hs.resetInput

/-- Settles O17: `StepMove.storesOk`, for the move that `step_cases` names. -/
theorem storesKept : Obligations.StoresKept := by
  intro s t hs h
  obtain ⟨q, v, hm⟩ := step_cases h
  exact hm.storesOk (s := s.withHost q v) hs

end Sys2Proof.Machine

/-! # The host's parameters and memory accesses, and the reset input (20_memory section 4, 70_reset_and_hazards R270 to R275) -/

namespace Sys2Proof.Machine

/-! ### The parameter registers (70_reset_and_hazards R275) -/

/-- A host action that is neither a register write nor the reset input leaves the parameters alone. -/
theorem hostTurn_sameParams {s t : State} {a : HostAction} (hwr : ∀ w off v, a ≠ .wr w off v) (hreset : a ≠ .reset)
    (h : perform (hostTurn s a) = .next t) : SameParams s t := by
  cases a with
  | wr width off v => exact absurd rfl (hwr width off v)
  | rd width off =>
    simp only [hostTurn, readTurn] at h
    split at h; · cases h
    split at h
    · cases h
    · cases h; exact ⟨rfl, rfl, rfl, rfl⟩
  | memWr addr b =>
    simp only [hostTurn] at h
    split at h
    · cases h
    · cases h; exact ⟨rfl, rfl, rfl, rfl⟩
  | memRd addr => cases h; rw [State.hostMemRead_frame]; exact ⟨rfl, rfl, rfl, rfl⟩
  | wait =>
    simp only [hostTurn] at h
    split at h
    · exact (block_cases h).sameParams
    · cases h; exact ⟨rfl, rfl, rfl, rfl⟩
  | pass => exact (block_cases h).sameParams
  | reset => exact absurd rfl hreset

/-- Settles O18: without a host action the step is the block's, and with one it is `hostTurn`'s. -/
theorem parametersKept : Obligations.ParametersKept := by
  intro s t hwr hreset h
  cases hq : s.host with
  | nil =>
    rw [step_blockTurn hq] at h
    exact (block_cases h).sameParams
  | cons a rest =>
    rw [step_hostTurn hq] at h
    have hwr' : ∀ w off v, a ≠ .wr w off v := fun w off v ha => hwr w off v rest (ha ▸ hq)
    exact hostTurn_sameParams (s := s.withHost rest s.portData) hwr' (fun ha => hreset rest (ha ▸ hq)) h

/-! ### The host's memory accesses (20_memory R69 to R72) -/

section regions

variable {s : State} {a : Word}

theorem State.inBusySrc_iff : s.inBusySrc a = true ↔ s.ctrl ≠ .idle ∧ InSrc s a := by
  simp [State.inBusySrc, State.isBusy, inRegion, InSrc]

/-- ENCODE and DECODE alone use the destination (46_header_utilities R235). -/
theorem Op.usesDst_iff {op : Op} : op.usesDst = true ↔ op = .encode ∨ op = .decode := by
  cases op <;> decide

theorem State.inBusyDst_iff : s.inBusyDst a = true ↔ (s.ctrl = .busy .encode ∨ s.ctrl = .busy .decode) ∧ InDst s a := by
  cases hc : s.ctrl <;> simp [State.inBusyDst, hc, Op.usesDst_iff, inRegion, InDst]

end regions

section access

variable {s : State} {a : Word} {b : Byte} {rest : List HostAction}

/-- A host write into a region of the running command is a race (20_memory R70; log 10). -/
theorem step_memWr_race (h : s.host = .memWr a b :: rest) (ha : s.Shielded a) : step s = .fault .regionRace := by
  have ha' : ((s.withHost rest s.portData).inBusySrc a || (s.withHost rest s.portData).inBusyDst a) = true :=
    Bool.or_eq_true_iff.mpr ha
  rw [step_hostTurn h, hostTurn, if_pos ha']
  rfl

/-- Any other host write writes its byte (20_memory R69). -/
theorem step_memWr (h : s.host = .memWr a b :: rest) (ha : ¬ s.Shielded a) :
    step s = .next ((s.withHost rest s.portData).memWrite a b) := by
  have ha' : ¬ ((s.withHost rest s.portData).inBusySrc a || (s.withHost rest s.portData).inBusyDst a) = true :=
    mt Bool.or_eq_true_iff.mp ha
  rw [step_hostTurn h, hostTurn, if_neg ha']
  rfl

/-- A host read of memory is `hostMemRead`. -/
theorem step_memRd (h : s.host = .memRd a :: rest) : step s = .next ((s.withHost rest s.portData).hostMemRead a) := by
  rw [step_hostTurn h]
  rfl

end access

/-- Settles O20: a write races exactly in the regions, and a read is free exactly in the destination. -/
theorem hostMemoryAccess : Obligations.HostMemoryAccess := by
  intro s a b rest inDst inSrc
  have hdst : (s.withHost rest s.portData).inBusyDst a = true ↔ inDst := State.inBusyDst_iff
  have hshield : s.Shielded a ↔ inSrc ∨ inDst := or_congr State.inBusySrc_iff State.inBusyDst_iff
  refine ⟨fun h ha => step_memWr_race h (hshield.mpr ha), fun h hs hd => step_memWr h fun ha => (hshield.mp ha).elim hs hd,
    fun h hd => ?_, fun h hd => ?_⟩
  · rw [step_memRd h, State.hostMemRead, if_neg (mt hdst.mp hd)]
    rfl
  · rw [step_memRd h, State.hostMemRead, if_pos (hdst.mpr hd)]
    rfl

/-! ### The reset input (70_reset_and_hazards R270 to R272) -/

/-- Freeing the destination changes memory and nothing else. -/
theorem State.freeDst_frame (s : State) (d n : Nat) : s.freeDst d n = { s with mem := (s.freeDst d n).mem } := by
  induction n with
  | zero => rfl
  | succ k ih => rw [State.freeDst, ih]; rfl

theorem State.freeDst_dstAt (s : State) (d n k : Nat) : (s.freeDst d n).dstAt k = s.dstAt k := by
  rw [State.freeDst_frame]; rfl

/-- Freeing the destination leaves every address alone that is none of its own. -/
theorem State.memRead_freeDst_ne (s : State) (d n : Nat) {a : Word} (h : ∀ k, k < n → s.dstAt k ≠ a) :
    (s.freeDst d n).memRead a = s.memRead a := by
  induction n with
  | zero => rfl
  | succ n ih =>
    have hn : (s.freeDst d n).dstAt n ≠ a := by rw [State.freeDst_dstAt]; exact h n (Nat.lt_succ_self n)
    rw [State.freeDst, State.memRead_dstPut_ne _ _ hn, ih fun k hk => h k (Nat.lt_succ_of_lt hk)]

/-- Each freed byte is the free value of its offset (log 8). -/
theorem State.dstByte_freeDst {s : State} (hm : Memory.wf s.mem) (d : Nat) {n k : Nat} (hn : n ≤ 2 ^ 32) (hk : k < n) :
    (s.freeDst d n).dstByte k = Config.freeByte d k := by
  induction n with
  | zero => omega
  | succ n ih =>
    rw [State.freeDst]
    by_cases he : k = n
    · subst he
      exact State.dstByte_dstPut_self (State.freeDst_wf hm d k) k _
    · rw [State.dstByte_dstPut_ne _ _ (by omega) (by omega) he, ih (by omega) (by omega)]

section abort

variable {s : State}

theorem State.abortDst_idle (h : s.ctrl = .idle) : s.abortDst = s := by rw [State.abortDst, h]

theorem State.abortDst_srcOnly {op : Op} (h : s.ctrl = .busy op) (hu : ¬ op.usesDst = true) : s.abortDst = s := by
  simp only [State.abortDst, h, hu, Bool.false_eq_true, ↓reduceIte]

theorem State.abortDst_usesDst {op : Op} (h : s.ctrl = .busy op) (hu : op.usesDst = true) :
    s.abortDst = s.freeDst s.draws s.dstCap.toNat := by
  simp only [State.abortDst, h, hu, ↓reduceIte]

theorem State.abortDst_frame (s : State) : s.abortDst = { s with mem := s.abortDst.mem } := by
  unfold State.abortDst
  split
  · split
    · exact State.freeDst_frame ..
    · rfl
  · rfl

@[simp] theorem State.resetInput_mem (s : State) : s.resetInput.mem = s.abortDst.mem := rfl

@[simp] theorem State.resetInput_host (s : State) : s.resetInput.host = s.host := by
  rw [State.resetInput, State.abortDst_frame]; rfl

/-- The reset input's step. -/
theorem step_reset {rest : List HostAction} (h : s.host = .reset :: rest) :
    step s = .next (s.withHost rest s.portData).resetInput := by
  rw [step_hostTurn h]
  rfl

end abort

/-- Settles O21: `resetInput` sets each register, and an idle block has no destination to free. -/
theorem resetInput : Obligations.ResetInput := by
  intro s rest h
  refine ⟨_, step_reset h, rfl, rfl, rfl, rfl, rfl, rfl, rfl, State.resetInput_host _, fun hc => ?_⟩
  rw [State.resetInput_mem, State.abortDst_idle (s := s.withHost rest s.portData) hc, State.withHost_mem]

/-- Settles O22: a command that uses a destination has it freed, byte by byte, and the start checks it passed keep the offsets in the
region; a command that uses none leaves memory as it is. -/
theorem resetWhileBusy : Obligations.ResetWhileBusy := by
  intro s op rest h hc hp hm
  refine ⟨_, step_reset h, rfl, rfl, rfl, ?_⟩
  by_cases hu : op.usesDst = true
  · have hop : op = .encode ∨ op = .decode := Op.usesDst_iff.mp hu
    obtain ⟨-, hfit, -⟩ := startCheck_regions hu (hp op hc)
    have hfree := State.abortDst_usesDst (s := s.withHost rest s.portData) hc hu
    have hmem : (s.withHost rest s.portData).resetInput.mem = _ := (State.resetInput_mem _).trans (congrArg State.mem hfree)
    refine ⟨fun a ha => ?_, fun he hd => (hop.elim he hd).elim, fun _ k hk => ?_⟩
    · rw [State.memRead_of_mem_eq hmem]
      exact State.memRead_freeDst_ne (s.withHost rest s.portData) _ _ fun k hk => dstAt_ne_of_not_inDst hfit ha hk
    · have hbyte := State.dstByte_freeDst (s := s.withHost rest s.portData) hm s.draws (Nat.le_of_lt s.dstCap.isLt) hk
      rw [State.dstByte, State.freeDst_dstAt] at hbyte
      rw [State.memRead_of_mem_eq hmem]
      exact hbyte
  · have hmem : (s.withHost rest s.portData).resetInput.mem = s.mem := by
      rw [State.resetInput_mem, State.abortDst_srcOnly (s := s.withHost rest s.portData) hc hu, State.withHost_mem]
    exact ⟨fun a _ => State.memRead_of_mem_eq hmem a, fun _ _ => hmem, fun hop => absurd (Op.usesDst_iff.mpr hop) hu⟩

/-- Settles O24: nothing runs, both stores are empty, and STATUS and RESULT are 0. -/
theorem resetKeepsPromises : Obligations.ResetKeepsPromises :=
  ⟨.inl ⟨rfl, rfl⟩, ⟨State.reset_mem_wf, Store.nil_wf _⟩, nofun, nofun, nofun⟩

end Sys2Proof.Machine

/-! # A stream item out of place is refused (30_encoding R94; log 14) -/

namespace Sys2Proof.Machine

section refused

variable {s : State}

/-- HDR where no header is read. -/
theorem exec_hdr_refused (size : Word) (h : want s ≠ .header) : exec (.hdr size) s = .refused .notSelected := if_pos h

/-- FLAG where no flag byte is read. -/
theorem exec_flag_refused (f : Byte) (h : want s ≠ .flag) : exec (.flag f) s = .refused .notSelected := if_pos h

/-- LIT where no literal is read. -/
theorem exec_lit_refused (b : Byte) (h : want s ≠ .literal) : exec (.lit b) s = .refused .notSelected := if_pos h

/-- SM and LM where no match code is read. -/
theorem exec_mtch_refused {i : Instr} (hi : selectOf i = .mtch) (h : want s ≠ .matchCode) : exec i s = .refused .notSelected := by
  cases i with
  | sm l d => exact if_pos h
  | lm d n => exact if_pos h
  | _ => cases hi

/-- A flag byte is read only while bytes are left to write and the flag register is empty (45_decoder R204). -/
theorem inLoop_of_want_flag (h : want s = .flag) : InLoop s ∧ s.dec.bits = 0#4 := by
  obtain ⟨hd, hp⟩ := want_decode (s := s) (by simp [h]) (by simp [h])
  rw [want_loop hd hp, wantToken] at h
  split_ifs at h with hdone hbits
  exact ⟨⟨hd, hp, hdone⟩, hbits⟩

/-- A literal is read only at a flag bit 1 (45_decoder R205). -/
theorem atLiteral_of_want (h : want s = .literal) : AtLiteral s := by
  obtain ⟨hd, hp⟩ := want_decode (s := s) (by simp [h]) (by simp [h])
  rw [want_loop hd hp, wantToken] at h
  split_ifs at h with hdone hbits hflag
  exact ⟨⟨hd, hp, hdone⟩, hbits, hflag⟩

/-- A match code is read only at a flag bit 0 (45_decoder R205). -/
theorem atMatch_of_want (h : want s = .matchCode) : AtMatch s := by
  obtain ⟨hd, hp⟩ := want_decode (s := s) (by simp [h]) (by simp [h])
  rw [want_loop hd hp, wantToken] at h
  split_ifs at h with hdone hbits hflag
  exact ⟨⟨hd, hp, hdone⟩, hbits, Bool.eq_false_iff.mpr hflag⟩

end refused

/-- Settles O12: each item is refused where it is not wanted, and what is wanted says where the decoder stands. -/
theorem itemsOutOfPlaceRefused : Obligations.ItemsOutOfPlaceRefused := fun _ =>
  ⟨fun size hpeek hbegin => exec_hdr_refused size fun hw => (want_header hw).elim hpeek hbegin,
    fun f h => exec_flag_refused f (mt inLoop_of_want_flag h),
    fun b h => exec_lit_refused b (mt atLiteral_of_want h),
    fun _ hi h => exec_mtch_refused hi (mt atMatch_of_want h)⟩

end Sys2Proof.Machine
